-- ==== Sys2Proof/Word.lean ====
section
/-! DEFINITION. The words the VTC handles as bits: headers and polynomial operands, packed bytes, path metrics,
symbols. Counts, lengths, state numbers and table indices are natural numbers (R9: every quantity is unsigned). -/

namespace Sys2Proof

/-- A command header or a polynomial operand: a 32-bit unsigned number given as a value (R67, R90). -/
abbrev Word := BitVec 32

/-- A packed byte, bit 7 the earliest bit in time (R65, R105). -/
abbrev Byte := BitVec 8

/-- A path metric, PMW = 8 bits (R8, R104). -/
abbrev Metric := BitVec 8

/-- A symbol, or a row of the transition table: P bits, element j belonging to polynomial j (R66, R102). -/
abbrev Symbol := List Bool

/-- INF, the sentinel 2^PMW - 1 = 255: unreachable or saturated, not told apart (R8, R104). -/
def inf : Metric := 255#8

end Sys2Proof
end

