-- ==== Sys2Proof/Machine/Registers.lean ====
section
/-! DEFINITION. The VTC's registers, banked by the lifetimes of 10_state.md R20: the code parameters with their table
(lifetime (a)), the per-command working state (lifetime (b)), the sequencer phase (lifetime (c)); and the items of the
ports (R36). Plain data. -/

namespace Sys2Proof.Machine

/-- PHASE, the sequencer state (R38). -/
inductive Phase where
  | idle    -- waiting for a header on CMD
  | check   -- decode the header and test every precondition
  | build   -- fill TT row by row
  | enc     -- one encoder step per input bit
  | acs     -- one column step: all S states
  | select  -- choose BEST
  | trace   -- one traceback step per column, newest first
  | respond -- put the response code on RSP
  deriving DecidableEq, Repr, Inhabited

/-- MODE: 0 = full-sequence (DECF), 1 = truncated (DECT) (R35). -/
inductive Mode where
  | full
  | truncated
  deriving DecidableEq, Repr, Inhabited

/-- One DIN item: a 32-bit polynomial word, a bit or a byte (R36, R64). -/
inductive DinItem where
  | word (w : Word)
  | bit (b : Bool)
  | byte (b : Byte)
  deriving DecidableEq, Repr

/-- One DOUT item: a bit or a byte (R36, R64). -/
inductive DoutItem where
  | bit (b : Bool)
  | byte (b : Byte)
  deriving DecidableEq, Repr

/-- The response codes of RSP (R97, R224). -/
inductive Rsp where
  | ok
  | errParam
  | errInput
  | errCmd
  deriving DecidableEq, Repr

/-- The configuration registers other than CFG_VALID (R22 to R24, R26). `g` and `tt` hold the live entries:
G[0..P-1] and the 2^K rows (log 9). -/
structure Code where
  /-- K, constraint length, 5 bits (R22). -/
  k : BitVec 5
  /-- P, polynomial count, 8 bits (R23). -/
  p : BitVec 8
  /-- G[0..P-1], each the operand word CFG took (R24). -/
  g : List Word
  /-- TT, the transition table (R26): row i is `tt[i]`, element j of it is TT[i][j]. -/
  tt : List Symbol
  deriving DecidableEq, Repr, Inhabited

/-- The per-command working state (R27 to R35). A state number of K-1 bits is a natural number (log 9). -/
structure Work where
  /-- ENC_STATE (R27). -/
  encState : Nat
  /-- PACK_ACC (R28). -/
  packAcc : Byte
  /-- PACK_CNT (R28). -/
  packCnt : BitVec 3
  /-- PM[0..S-1] (R29). -/
  pm : List Metric
  /-- PMN[0..S-1], scratch (R30). -/
  pmn : List Metric
  /-- COLBUF[0..S-1], scratch (R31). -/
  colbuf : List Nat
  /-- TR, column 0 the oldest (R32): TR[c][s] is `tr[c][s]`. -/
  tr : List (List Nat)
  /-- COLCNT (R32). -/
  colcnt : Nat
  /-- T (R33). -/
  t : BitVec 24
  /-- OUT_OFF (R33). -/
  outOff : BitVec 24
  /-- BEST (R34). -/
  best : Nat
  /-- TB_STATE (R34). -/
  tbState : Nat
  /-- MODE (R35). -/
  mode : Mode
  deriving DecidableEq, Repr, Inhabited

end Sys2Proof.Machine
end

