-- ==== Sys2Proof/Config.lean ====
section
/-! DEFINITION. What one VTC instance fixes (00_scope.md R8: K_MAX, P_MAX, D_MAX, left OPEN by the spec) and the free
values: register contents the spec calls unspecified. -/

namespace Sys2Proof

/-- The implementation parameters the spec leaves OPEN (R8, D8); "A model takes K_MAX, P_MAX and D_MAX as arguments".
They stand in `State.config`, which no step changes (log 5). The bounds K_MAX ≤ 31 and P_MAX ≤ 255 are the types'. -/
structure Config where
  /-- K_MAX, the largest constraint length the instance accepts. -/
  kMax : Fin 32
  /-- P_MAX, the largest number of polynomials the instance accepts. -/
  pMax : Fin 256
  /-- D_MAX, the largest number of trellis columns of a full-sequence decode; `none` is "unbounded". -/
  dMax : Option Nat
  deriving DecidableEq, Repr

/-- `n` trellis columns fit the instance: n ≤ D_MAX (R172). -/
def Config.fits (c : Config) (n : Nat) : Bool :=
  match c.dMax with
  | none => true
  | some d => n ≤ d

/-- The ranges R8 gives the parameters: 2 ≤ K_MAX, 1 ≤ P_MAX, D_MAX ≥ 5 × K_MAX (the upper bounds are the types'). -/
def Config.wf (c : Config) : Bool :=
  2 ≤ c.kMax.val && 1 ≤ c.pMax.val && c.fits (5 * c.kMax.val)

/-- DESIGN CHOICE (log 5): the instance the reset state describes, the largest R8 admits. -/
def Config.largest : Config := { kMax := 31, pMax := 255, dMax := none }

/-- FREE VALUE (log 7): what K, P, G and TT hold after an RST or a failed CFG, "unspecified" in R120 and R226 (93 U1). -/
opaque Config.freeCode : Nat → Machine.Code

/-- FREE VALUE (log 7): what the working state other than TR and COLCNT holds after an RST, "unspecified" in R120 (U2). -/
opaque Config.freeWork : Nat → Machine.Work

/-- FREE VALUE (log 8): what PMN holds outside a column step, "unspecified and never read" in R30 (U4). -/
opaque Config.freeMetrics : Nat → List Metric

/-- FREE VALUE (log 8): what COLBUF holds outside a column step, "unspecified and never read" in R31 (U4). -/
opaque Config.freeColumn : Nat → List Nat

end Sys2Proof
end

