-- ==== Sys2Proof/Machine/State.lean ====
section
/-! DEFINITION. The state of one VTC, its value at power-on, and the ways a step can stop. -/

namespace Sys2Proof.Machine

/-- The state of one VTC (10_state.md R20 to R38) with its ports (R36) and its instance parameters (00_scope.md R8). -/
structure State where
  /-- K_MAX, P_MAX, D_MAX of this instance; no step changes them (R8, log 5). -/
  config : Config
  /-- CFG_VALID, the only status bit (R21, R37). -/
  cfgValid : Bool
  /-- K, P, G, TT (R22, R23, R24, R26). -/
  code : Code
  /-- The per-command working state (R27 to R35). -/
  work : Work
  /-- PHASE (R38). -/
  phase : Phase
  /-- CMD: the headers offered by the host and not yet taken, the next one first (R36, log 2). -/
  cmd : List Word
  /-- The header taken last: the command being executed while PHASE is not IDLE (R38, log 2). -/
  hdr : Word
  /-- DIN: the items offered by the host and not yet taken, the next one first (R36, R64, log 2). -/
  din : List DinItem
  /-- DOUT: the items put and not yet drained, the oldest first (R36, R64, log 2). -/
  dout : List DoutItem
  /-- RSP: the response codes put and not yet read, the oldest first (R36, R97, log 2). -/
  rsp : List Rsp
  /-- The MODEL's own counter of free values drawn (log 7). -/
  drawn : Nat
  deriving DecidableEq, Repr

/-- Where the model gives no step. -/
inductive Fault where
  /-- Raised by `step` alone, when PHASE is one of BUILD, ENC, ACS, SELECT, TRACE, RESPOND: a moment inside a command,
  at which no header is taken and no command begins (R38, R264). No step answers such a state. Safe. -/
  | insideCommand
  deriving DecidableEq, Repr

/-- Where the spec gives no meaning. -/
inductive Refusal where
  /-- An instruction with no meaning yet; raised by an arm of `exec` alone. Safe. -/
  | notModelled (mnemonic : String)
  /-- Raised by a command (CFG, ENCB, ENCP, DECF, DECT) one of whose operands on DIN is an item of another size:
  "this spec gives a mismatch of item sizes no meaning" (93 U9, log 4). Safe. -/
  | dinItemSize
  deriving DecidableEq, Repr

/-- The working state at power-on: TR empty and COLCNT = 0 as R46 says, everything else a value of the model's
(R46 "unspec."; DESIGN CHOICE, log 6). -/
def Work.reset : Work where
  encState := 0
  packAcc := 0#8
  packCnt := 0#3
  pm := []
  pmn := []
  colbuf := []
  tr := []
  colcnt := 0
  t := 0#24
  outOff := 0#24
  best := 0
  tbState := 0
  mode := .full

/-- Power-on reset (R260, R46): CFG_VALID = 0, TR empty, COLCNT = 0, PHASE = IDLE, nothing on the ports. The registers
R46 calls unspecified hold the values of log 6, the instance parameters those of log 5. -/
def State.reset : State where
  config := Config.largest
  cfgValid := false
  code := { k := 0#5, p := 0#8, g := [], tt := [] }
  work := Work.reset
  phase := .idle
  cmd := []
  hdr := 0#32
  din := []
  dout := []
  rsp := []
  drawn := 0

end Sys2Proof.Machine
end

