-- ==== Sys2Proof/Machine/Ops.lean ====
section
/-! DEFINITION. The operations every command shares: the derived constants, the reads of the internal spaces, taking
DIN items, putting DOUT items, the response, waiting, and taking an exception. -/

namespace Sys2Proof.Machine

/-! ### Derived constants (R7, R25): functions of the K register -/

/-- The value of the K register. -/
def Code.kVal (c : Code) : Nat := c.k.toNat

/-- The value of the P register: the width of a symbol and of a row (R23). -/
def Code.pVal (c : Code) : Nat := c.p.toNat

/-- S = 2^(K-1), the number of encoder states, for a constraint length K (R7). -/
def numStates (k : Nat) : Nat := 1 <<< (k - 1)

/-- SMASK = S - 1 (R7). -/
def stateMask (k : Nat) : Nat := numStates k - 1

/-- S of the configured code (R25). -/
def Code.nStates (c : Code) : Nat := numStates c.kVal

/-- WIN = 5 × K, the window of truncated mode in symbols (R25, R200). -/
def Code.win (c : Code) : Nat := 5 * c.kVal

/-! ### Reads of the internal spaces (R10, R60)

A read outside the live entries happens in no state that a run reaches (log 11). -/

/-- MemRead(TT, i) (R10): the P-bit row TT[i]. -/
def Code.readRow (c : Code) (i : Nat) : Symbol := c.tt.getD i []

/-- MemRead(PM, s) (R10): the metric PM[s]. -/
def readMetric (pm : List Metric) (s : Nat) : Metric := pm.getD s inf

/-- MemRead(TR, (c, s)) (R10): the predecessor TR[c][s]. -/
def readTrellis (tr : List (List Nat)) (c s : Nat) : Nat := (tr.getD c []).getD s 0

/-! ### Ports (R36) -/

/-- What taking items from DIN finds. -/
inductive Taken (α : Type) where
  /-- All of them, and what is left on DIN. -/
  | got (xs : List α) (rest : List DinItem)
  /-- Too few have been supplied yet (R232). -/
  | starved
  /-- An item of another size stands among them (93 U9). -/
  | mismatch
  deriving DecidableEq, Repr

/-- Take `n` items of one size from DIN, in order, each once (R71, R95); `view` reads an item of that size. -/
def takeItems {α : Type} (view : DinItem → Option α) : Nat → List DinItem → Taken α
  | 0, din => .got [] din
  | _ + 1, [] => .starved
  | n + 1, x :: din =>
    match view x with
    | none => .mismatch
    | some a =>
      match takeItems view n din with
      | .got xs rest => .got (a :: xs) rest
      | .starved => .starved
      | .mismatch => .mismatch

/-- Put items on DOUT, after those already there; nothing already delivered is revised (R71). -/
def State.put (s : State) (items : List DoutItem) : State := { s with dout := s.dout ++ items }

/-- The two bits of a response code on RSP (R97, R224). -/
def Rsp.code : Rsp → BitVec 2
  | .ok => 0b00#2
  | .errParam => 0b01#2
  | .errInput => 0b10#2
  | .errCmd => 0b11#2

/-- RESPOND (R38): put the response code on RSP, after every DOUT item of the command (R74), and return to IDLE. -/
def State.respond (s : State) (r : Rsp) : State := { s with rsp := s.rsp ++ [r], phase := .idle }

/-- A command whose DIN items have not all arrived waits, in CHECK, and all state is kept (R232, R236, R272; log 3). -/
def State.wait (s : State) : State := { s with phase := .check }

/-- Run a command that owns `n` DIN items of one size: take them and go on with them; wait while they have not all
arrived (R232); no meaning when one of them has another size (93 U9, log 4). -/
def State.withItems {α : Type} (s : State) (view : DinItem → Option α) (n : Nat) (go : List α → State → State) :
    Host.Outcome State Fault Refusal :=
  match takeItems view n s.din with
  | .got xs rest => .next (go xs { s with din := rest })
  | .starved => .next s.wait
  | .mismatch => .refused .dinItemSize

/-- PMN and COLBUF outside a column step: unspecified (R30, R31), hence free values (log 8). -/
def State.releaseScratch (s : State) : State :=
  { s with
    work := { s.work with pmn := Config.freeMetrics s.drawn, colbuf := Config.freeColumn s.drawn }
    drawn := s.drawn + 1 }

/-! ### Exceptions (R220 to R230) -/

/-- The three synchronous exceptions (R220). -/
inductive Exc where
  /-- CFG with parameters that fail the check (R221). -/
  | invalidParameter
  /-- A data command on an unconfigured VTC, or a decode of a bad length (R222). -/
  | invalidInput
  /-- A header that spells no command (R223). -/
  | invalidCommand
  deriving DecidableEq, Repr

/-- The response code of an exception (R221, R222, R223, R224). -/
def Exc.rsp : Exc → Rsp
  | .invalidParameter => .errParam
  | .invalidInput => .errInput
  | .invalidCommand => .errCmd

/-- What an exception changes: InvalidParameter clears CFG_VALID and leaves K, P, G, TT unspecified, a free value
(R226, log 7); the other two change no state element (R227, R228). -/
def State.excEffect (s : State) : Exc → State
  | .invalidParameter => { s with cfgValid := false, code := Config.freeCode s.drawn, drawn := s.drawn + 1 }
  | .invalidInput => s
  | .invalidCommand => s

/-- Taking an exception (R226, R227, R228). Nothing is saved and nothing is vectored: the response code is the whole
report (R229), and there is nothing to return from: the VTC is in IDLE again (R230). The operands have been taken, or
not, by the command (R95). -/
def State.raise (s : State) (e : Exc) : State := (s.excEffect e).respond e.rsp

end Sys2Proof.Machine
end

