-- ==== Sys2Proof/Machine/Flags.lean ====
section
/-! DEFINITION. The tests of PHASE CHECK and the flush trigger. The VTC has no arithmetic flags and no condition codes;
CFG_VALID is its only status bit (10_state.md R21, R37). -/

namespace Sys2Proof.Machine

/-- Conditions (e) and (f) of R124 for one polynomial: nonzero and below 2^K. -/
def polyOk (k : Nat) (g : Word) : Bool := g.toNat != 0 && g.toNat < 2 ^ k

/-- valid(K, PF, g): the parameter check of CFG, conditions (a) to (f) in their order (R124, R225). -/
def paramsOk (config : Config) (k pf : Nat) (g : List Word) : Bool :=
  2 ≤ k && k ≤ config.kMax.val && 1 ≤ pf && pf ≤ config.pMax.val && g.all (polyOk k)

/-- The check of ENCB and ENCP: CFG_VALID = 1 (R142, R145, R222). -/
def State.encodeOk (s : State) : Bool := s.cfgValid

/-- The check of DECT, and the first two tests of DECF: CFG_VALID = 1, then P divides N (R68, R203, R222, R225). -/
def State.dectOk (s : State) (n : Nat) : Bool := s.cfgValid && n % s.code.pVal == 0

/-- The check of DECF: as DECT, then N / P ≤ D_MAX (R172, R222, R225). -/
def State.decfOk (s : State) (n : Nat) : Bool := s.dectOk n && s.config.fits (n / s.code.pVal)

/-- The flush trigger, tested after every column step: armed in truncated mode only, COLCNT = WIN (R35, R201). -/
def flushDue (c : Code) (w : Work) : Bool := w.mode == .truncated && w.colcnt == c.win

end Sys2Proof.Machine
end

