-- ==== Sys2Proof/Syntax.lean ====
section
/-! DEFINITION. The commands of the VTC as their headers spell them (30_encoding.md R90 to R94). The operands a command
takes from DIN are no part of the header (log 13); `Command` in Machine/Operands.lean pairs the two. -/

namespace Sys2Proof

/-- One constructor per row of spec/opcode_table.json. -/
inductive Instr where
  /-- RST (R92). -/
  | rst
  /-- CFG (R93): KF, the constraint length field, and PF, the number of polynomial words that follow on DIN. -/
  | cfg (kf pf : Nat)
  /-- ENCB (R94): N input bits. -/
  | encb (n : Nat)
  /-- ENCP (R94): N input bits in ceil(N/8) bytes. -/
  | encp (n : Nat)
  /-- DECF (R94): N received bits. -/
  | decf (n : Nat)
  /-- DECT (R94): N received bits. -/
  | dect (n : Nat)
  deriving DecidableEq, Repr

end Sys2Proof
end

