-- ==== Sys2Proof/WellFormed.lean ====
section
/-! DEFINITION. When a header can spell the instruction: every field fits its bits (30_encoding.md R90, R93, R94).
A field's legal VALUES are no matter of form: CFG with K = 0 is a command, and answers ERR_PARAM (R93). -/

namespace Sys2Proof

/-- N fits the 24 bits 23:0 (R90, D3). -/
def lengthFits (n : Nat) : Bool := n < 2 ^ 24

/-- Each field fits: KF in 5 bits, PF in 8 bits (R93), N in 24 bits (R94). -/
def Instr.wellFormed : Instr → Bool
  | .rst => true
  | .cfg kf pf => kf < 2 ^ 5 && pf < 2 ^ 8
  | .encb n => lengthFits n
  | .encp n => lengthFits n
  | .decf n => lengthFits n
  | .dect n => lengthFits n

end Sys2Proof
end

