-- ==== Sys2Proof/Decode.lean ====
section
/-! DEFINITION. The header decoder, total on 32-bit words (30_encoding.md R99), and the encoder, both written from the
formats R92, R93, R94. -/

namespace Sys2Proof

/-- Why a header spells no command (R98). -/
inductive Illegal where
  /-- OPC is 0b110 or 0b111. -/
  | reservedOpc
  /-- RST with a bit of 28:0 set. -/
  | rstBits
  /-- CFG with a bit of 15:0 set. -/
  | cfgBits
  /-- ENCB, ENCP, DECF or DECT with a bit of 28:24 set. -/
  | dataBits
  deriving DecidableEq, Repr

/-- OPC, bits 31:29 (R90). -/
def opcOf (h : Word) : Nat := (h.extractLsb' 29 3).toNat

/-- KF, bits 28:24 (R90). -/
def kfOf (h : Word) : Nat := (h.extractLsb' 24 5).toNat

/-- PF, bits 23:16 (R90, R93). -/
def pfOf (h : Word) : Nat := (h.extractLsb' 16 8).toNat

/-- N, bits 23:0 (R90, R94). -/
def lenOf (h : Word) : Nat := (h.extractLsb' 0 24).toNat

/-- A data command: bits 28:24 must be zero, then N is bits 23:0 (R94, R98). -/
def decodeData (mk : Nat → Instr) (h : Word) : Except Illegal Instr :=
  if kfOf h = 0 then .ok (mk (lenOf h)) else .error .dataBits

/-- R99: read OPC; OPC ≥ 6 is illegal; test the must-be-zero bits of that OPC's format; extract the fields. -/
def decode (h : Word) : Except Illegal Instr :=
  match opcOf h with
  | 0 => if (h.extractLsb' 0 29).toNat = 0 then .ok .rst else .error .rstBits
  | 1 => if (h.extractLsb' 0 16).toNat = 0 then .ok (.cfg (kfOf h) (pfOf h)) else .error .cfgBits
  | 2 => decodeData .encb h
  | 3 => decodeData .encp h
  | 4 => decodeData .decf h
  | 5 => decodeData .dect h
  | _ => .error .reservedOpc

/-- A header from its fields: OPC in 31:29, KF in 28:24, LEN in 23:0, as one number (R67, R90). -/
def header (opc kf len : Nat) : Word := BitVec.ofNat 32 (opc * 2 ^ 29 + kf * 2 ^ 24 + len)

/-- The header of a well-formed instruction (R91 to R94): CFG has PF in 23:16 and zeros below, a data command has
zeros in 28:24 and N in 23:0. -/
def encode : Instr → Word
  | .rst => header 0 0 0
  | .cfg kf pf => header 1 kf (pf * 2 ^ 16)
  | .encb n => header 2 0 n
  | .encp n => header 3 0 n
  | .decf n => header 4 0 n
  | .dect n => header 5 0 n

/-- The header an instruction of `nbits` bits begins with, when its bits are `w`: a header is one 32-bit word given as a
value (R67, R90), so it is the low 32 bits; bits from `nbits` up are 0. -/
def headerOf (nbits w : Nat) : Word := BitVec.ofNat 32 (w % 2 ^ nbits)

/-- What the decoder reads from an instruction of the opcode table whose bits are `w`. -/
def decodeTableWord (nbits w : Nat) : Option Instr :=
  match decode (headerOf nbits w) with
  | .ok i => some i
  | .error _ => none

end Sys2Proof
end

