-- ==== Sys2Proof/Machine/Operands.lean ====
section
/-! DEFINITION. The operand forms of the commands (20_memory.md R64, R65, R68; 30_encoding.md R95): which DIN items a
header owns, how bytes and symbols are cut from them, and a command as a header with its operands. -/

namespace Sys2Proof.Machine

/-- The item as a 32-bit polynomial word. -/
def DinItem.asWord : DinItem → Option Word
  | .word w => some w
  | _ => none

/-- The item as a bit. -/
def DinItem.asBit : DinItem → Option Bool
  | .bit b => some b
  | _ => none

/-- The item as a byte. -/
def DinItem.asByte : DinItem → Option Byte
  | .byte b => some b
  | _ => none

/-- ceil(n/8): the number of bytes that carry n bits (R64). -/
def byteCount (n : Nat) : Nat := (n + 7) / 8

/-- Bit q of a packed byte sequence, most significant bit first: bit `7 - (q mod 8)` of byte `q >> 3` (R65, R143). -/
def packedBit (bytes : List Byte) (q : Nat) : Bool := (bytes.getD (q >>> 3) 0#8).getLsbD (7 - (q &&& 7))

/-- bits_of(bytes, N): the logical input bits of ENCP (R143). -/
def bitsOf (bytes : List Byte) (n : Nat) : List Bool := (List.range n).map (packedBit bytes)

/-- sym(0), …, sym(n-1): the received sequence cut into n symbols of p bits from element 0 on (R68, R168). -/
def symbols (p : Nat) : Nat → List Bool → List Symbol
  | 0, _ => []
  | n + 1, r => r.take p :: symbols p n (r.drop p)

/-! ### A command with its operands -/

/-- A command and its operand sequence: the `Command` type of 30_encoding.md, a line of R106. -/
inductive Command where
  | rst
  | cfg (k : Nat) (g : List Word)
  | encb (bits : List Bool)
  | encp (n : Nat) (bytes : List Byte)
  | decf (bits : List Bool)
  | dect (bits : List Bool)
  deriving DecidableEq, Repr

/-- `ENCP <byte>,…` without N: N = 8 × (number of bytes) (R107). -/
def Command.encpWhole (bytes : List Byte) : Command := .encp (8 * bytes.length) bytes

/-- The instruction of a command; PF is the number of listed polynomials, N the number of bits (R106, R107). -/
def Command.instr : Command → Instr
  | .rst => .rst
  | .cfg k g => .cfg k g.length
  | .encb bits => .encb bits.length
  | .encp n _ => .encp n
  | .decf bits => .decf bits.length
  | .dect bits => .dect bits.length

/-- The DIN items of a command (R64). -/
def Command.items : Command → List DinItem
  | .rst => []
  | .cfg _ g => g.map .word
  | .encb bits => bits.map .bit
  | .encp _ bytes => bytes.map .byte
  | .decf bits => bits.map .bit
  | .dect bits => bits.map .bit

/-- The host offers headers on CMD and items on DIN (R36, R39). -/
def State.offer (s : State) (headers : List Word) (items : List DinItem) : State :=
  { s with cmd := s.cmd ++ headers, din := s.din ++ items }

/-- The host issues a command: its header on CMD, its operands on DIN (R36, R95). -/
def State.issue (s : State) (c : Command) : State := s.offer [encode c.instr] c.items

/-- The DIN items an instruction owns (R95), read from the bits of `w`, the first item lowest: what stands behind a
header when its operand words are given as one number. -/
def operandItems (w : Nat) : Instr → List DinItem
  | .rst => []
  | .cfg _ pf => (List.range pf).map fun j => .word (BitVec.ofNat 32 (w >>> (32 * j)))
  | .encb n => (List.range n).map fun j => .bit (w.testBit j)
  | .encp n => (List.range (byteCount n)).map fun j => .byte (BitVec.ofNat 8 (w >>> (8 * j)))
  | .decf n => (List.range n).map fun j => .bit (w.testBit j)
  | .dect n => (List.range n).map fun j => .bit (w.testBit j)

end Sys2Proof.Machine
end

