-- ==== Sys2Proof/Machine/Transition.lean ====
section
/-! DEFINITION. RST and CFG, and the transition model CFG builds (40_transition_model.md). -/

namespace Sys2Proof.Machine

/-! ### The transition table -/

/-- The composite index: the input bit on top of the (K-1)-bit state (R61, R100). -/
def idx (k s : Nat) (b : Bool) : Nat := s ||| (b.toNat <<< (k - 1))

/-- XOR of `f 0`, …, `f (n-1)`. -/
def xorOver (n : Nat) (f : Nat → Bool) : Bool := (List.range n).foldl (fun acc m => acc ^^ f m) false

/-- Bit reversal within K bits (R101, R122): the sum, over its bits m, of g[m] << (K-1-m). -/
def revK (k g : Nat) : Nat := (List.range k).foldl (fun acc m => acc + (((g >>> m) &&& 1) <<< (k - 1 - m))) 0

/-- Parity of an n-bit number: XOR of all its bits (R123). -/
def parity (n x : Nat) : Bool := xorOver n x.testBit

/-- row(i)[j] = parity(i AND rev_K(G[j])) (R125); `rev` is rev_K(G[j]), and the AND with it has K bits. -/
def rowBit (k i rev : Nat) : Bool := parity k (i &&& rev)

/-- build(K, P, G): the 2^K rows of P bits (R126). -/
def buildTable (k : Nat) (g : List Word) : List Symbol :=
  let revs := g.map fun gj => revK k gj.toNat
  (List.range (2 ^ k)).map fun i => revs.map (rowBit k i)

/-- The configuration a successful CFG leaves: K, P, G and the table built from them (R121). -/
def configured (k pf : Nat) (g : List Word) : Code :=
  { k := BitVec.ofNat 5 k, p := BitVec.ofNat 8 pf, g := g, tt := buildTable k g }

/-! ### The commands -/

/-- What RST changes (R120, R261): CFG_VALID cleared, TR emptied, COLCNT = 0; the configuration and all other working
state unspecified, free values (log 7). -/
def State.clear (s : State) : State :=
  { s with
    cfgValid := false
    code := Config.freeCode s.drawn
    work := { Config.freeWork s.drawn with tr := [], colcnt := 0 }
    drawn := s.drawn + 1 }

/-- RST (R120). -/
def execRst (s : State) : Host.Outcome State Fault Refusal := .next (s.clear.respond .ok)

/-- CFG (R121): check the parameters, then replace the whole configuration; a failed check leaves the VTC unconfigured. -/
def execCfg (kf pf : Nat) (s : State) : Host.Outcome State Fault Refusal :=
  s.withItems DinItem.asWord pf fun g s =>
    if paramsOk s.config kf pf g then
      { s with cfgValid := true, code := configured kf pf g }.respond .ok
    else s.raise .invalidParameter

end Sys2Proof.Machine
end

