-- ==== Sys2Proof/Machine/Encoder.lean ====
section
/-! DEFINITION. The convolutional encoder, ENCB and ENCP (41_encoder.md): two thin wrappers over one step function. -/

namespace Sys2Proof.Machine

/-- next(s, b) = idx(s, b) >> 1: the bit shifts in at the top (R140). -/
def nextState (k s : Nat) (b : Bool) : Nat := idx k s b >>> 1

/-- encstep(b): the row at the index formed with the state from before the shift, then the shift (R141). -/
def encStep (c : Code) (b : Bool) (w : Work) : Symbol × Work :=
  (c.readRow (idx c.kVal w.encState b), { w with encState := nextState c.kVal w.encState b })

/-- One encoder step for each input bit, the rows appended in order (R142). -/
def encodeBits (c : Code) : List Bool → Work → List Bool × Work
  | [], w => ([], w)
  | b :: xs, w =>
    match encStep c b w with
    | (row, w1) =>
      match encodeBits c xs w1 with
      | (out, w2) => (row ++ out, w2)

/-- "Every ENCB and ENCP begins with ENC_STATE <- 0" (R27, R262). -/
def Work.encodeStart (w : Work) : Work := { w with encState := 0 }

/-! ### Byte packing (R144) -/

/-- Byte m of pack(e): the sum over q = 0..7 of e[8m+q] << (7-q), zeros beyond the end (R144). -/
def packByte (e : List Bool) (m : Nat) : Byte :=
  BitVec.ofNat 8 ((List.range 8).foldl (fun acc q => acc + ((e.getD (8 * m + q) false).toNat <<< (7 - q))) 0)

/-- pack(e): ceil(L/8) bytes, most significant bit first, zero-padded in the low bits (R144). -/
def pack (e : List Bool) : List Byte := (List.range (byteCount e.length)).map (packByte e)

/-- The streaming form of packing, one emitted bit: shift it into PACK_ACC, put the byte when it is full (R28, R144). -/
def packBit (v : Bool) (w : Work) : List Byte × Work :=
  let acc := w.packAcc <<< 1 ||| BitVec.ofNat 8 v.toNat
  if w.packCnt = 7#3 then ([acc], { w with packAcc := 0#8, packCnt := 0#3 })
  else ([], { w with packAcc := acc, packCnt := w.packCnt + 1#3 })

/-- The streaming form over a bit sequence. -/
def packBits : List Bool → Work → List Byte × Work
  | [], w => ([], w)
  | v :: e, w =>
    match packBit v w with
    | (y, w1) =>
      match packBits e w1 with
      | (ys, w2) => (y ++ ys, w2)

/-- The end of the streaming form: a partly filled byte is left-shifted to align and put (R69, R144). -/
def packRest (w : Work) : List Byte :=
  if w.packCnt = 0#3 then [] else [w.packAcc <<< (8 - w.packCnt.toNat)]

/-- "PACK_ACC <- 0 ; PACK_CNT <- 0" at the start of ENCP (R145, R262). -/
def Work.packStart (w : Work) : Work := { w with packAcc := 0#8, packCnt := 0#3 }

/-- The body of ENCP: encode as ENCB, pack what is emitted (R145), by the streaming form (log 12). -/
def encodePacked (c : Code) (xs : List Bool) (w : Work) : List Byte × Work :=
  match encodeBits c xs w with
  | (e, w1) =>
    match packBits e w1 with
    | (ys, w2) => (ys ++ packRest w2, w2)

/-! ### The commands -/

/-- ENCB (R142). -/
def execEncb (n : Nat) (s : State) : Host.Outcome State Fault Refusal :=
  s.withItems DinItem.asBit n fun xs s =>
    if s.encodeOk then
      match encodeBits s.code xs s.work.encodeStart with
      | (out, w) => ({ s with work := w }.put (out.map .bit)).respond .ok
    else s.raise .invalidInput

/-- ENCP (R145). -/
def execEncp (n : Nat) (s : State) : Host.Outcome State Fault Refusal :=
  s.withItems DinItem.asByte (byteCount n) fun bytes s =>
    if s.encodeOk then
      match encodePacked s.code (bitsOf bytes n) s.work.encodeStart.packStart with
      | (out, w) => ({ s with work := w }.put (out.map .byte)).respond .ok
    else s.raise .invalidInput

end Sys2Proof.Machine
end

