-- ==== Sys2Proof/Machine/Decoder.lean ====
section
/-! DEFINITION. The parts of the decoder and DECF, full-sequence decode (42_decode_full.md). The decoder's parts work
on the working state alone, for a given configuration: they cannot change it. -/

namespace Sys2Proof.Machine

/-! ### Trellis geometry -/

/-- inbit(s): the top bit of the (K-1)-bit state (R160). -/
def inbit (k s : Nat) : Bool := (s >>> (k - 2)).testBit 0

/-- pred(s, x) = ((s << 1) AND SMASK) OR x (R161). -/
def pred (k s : Nat) (x : Bool) : Nat := ((s <<< 1) &&& stateMask k) ||| x.toNat

/-- The expected output of the edge p → s: TT[idx(p, inbit(s))] (R162). -/
def edgeOut (c : Code) (p s : Nat) : Symbol := c.readRow (idx c.kVal p (inbit c.kVal s))

/-! ### Metric arithmetic -/

/-- Branch metric: the number of positions in which the two symbols differ (R163). -/
def branchMetric : Symbol → Symbol → Nat
  | r :: rs, e :: es => (r ^^ e).toNat + branchMetric rs es
  | _, _ => 0

/-- Saturating add: at the sentinel nothing is added; otherwise the sum without wrap, limited to the sentinel (R164). -/
def satAdd (m : Metric) (d : Nat) : Metric :=
  if m = inf then inf else BitVec.ofNat 8 (min (m.toNat + d) inf.toNat)

/-- Add-compare-select of state s for symbol r, from the old vector; a tie goes to the lower-indexed predecessor (R165). -/
def acs (c : Code) (pm : List Metric) (r : Symbol) (s : Nat) : Metric × Nat :=
  let p0 := pred c.kVal s false
  let p1 := pred c.kVal s true
  let c0 := satAdd (readMetric pm p0) (branchMetric r (edgeOut c p0 s))
  let c1 := satAdd (readMetric pm p1) (branchMetric r (edgeOut c p1 s))
  if c0 ≤ c1 then (c0, p0) else (c1, p1)

/-! ### Column step, start, selection -/

/-- colstep(r): all S lanes from the old PM into PMN and COLBUF, then PM replaced whole and the column written to TR
(R62, R63, R166). -/
def colStep (c : Code) (r : Symbol) (w : Work) : Work :=
  let lanes := (List.range c.nStates).map (acs c w.pm r)
  let pmn := lanes.map Prod.fst
  let col := lanes.map Prod.snd
  { w with
    pm := pmn
    pmn := pmn
    colbuf := col
    tr := w.tr ++ [col]
    colcnt := w.colcnt + 1
    t := w.t + 1#24 }

/-- pminit(): PM[0] = 0, the others INF (R41, R167). -/
def startMetrics (c : Code) : List Metric := (List.range c.nStates).map fun s => if s = 0 then 0#8 else inf

/-- The start of a decode call (R172, R203, R262). -/
def Work.decodeStart (w : Work) (c : Code) (m : Mode) : Work :=
  { w with mode := m, t := 0#24, outOff := 0#24, tr := [], colcnt := 0, pm := startMetrics c }

/-- best(): the least state of least metric, by the strict scan (R169). -/
def bestState (c : Code) (pm : List Metric) : Nat :=
  (List.range c.nStates).foldl (fun b s => if readMetric pm s < readMetric pm b then s else b) 0

/-! ### Traceback -/

/-- tbstep(): the bit of the state stood on, then the move to its recorded predecessor; the newest column is consumed
(R63, R170). -/
def tbStep (c : Code) (w : Work) : Bool × Work :=
  let col := w.colcnt - 1
  (inbit c.kVal w.tbState,
    { w with tbState := readTrellis w.tr col w.tbState, tr := w.tr.take col, colcnt := col })

/-- `m` traceback steps, newest column first; `d` holds the bits already recovered, in time order (R171). -/
def tbRun (c : Code) : Nat → List Bool → Work → List Bool × Work
  | 0, d, w => (d, w)
  | m + 1, d, w =>
    match tbStep c w with
    | (bit, w1) => tbRun c m (bit :: d) w1

/-- The selection that begins a traceback: BEST by R169, TB_STATE <- BEST (R34, R171). -/
def selectBest (c : Code) (w : Work) : Work :=
  { w with best := bestState c w.pm, tbState := bestState c w.pm }

/-- traceback(): from the selected state through every stored column; the bits in time order (R171). -/
def traceback (c : Code) (w : Work) : List Bool × Work := tbRun c w.colcnt [] (selectBest c w)

/-- flush(): a traceback whose bits are delivered at OUT_OFF; the metrics stay (R202). -/
def flush (c : Code) (w : Work) : List Bool × Work :=
  match traceback c w with
  | (d, w1) => (d, { w1 with outOff := w1.outOff + BitVec.ofNat 24 w.colcnt })

/-! ### The decode loop -/

/-- The column steps of a decode call, symbol by symbol, with a flush wherever the trigger fires (R166, R201, R203). In
full-sequence mode the trigger is not armed. Answers the bits delivered on the way. -/
def decodeLoop (c : Code) : List Symbol → Work → List Bool × Work
  | [], w => ([], w)
  | r :: rs, w =>
    let w1 := colStep c r w
    match (if flushDue c w1 then flush c w1 else ([], w1)) with
    | (d, w2) =>
      match decodeLoop c rs w2 with
      | (ds, w3) => (d ++ ds, w3)

/-- The body of DECF: the loop, then one traceback over all columns (R172). -/
def decodeFull (c : Code) (rs : List Symbol) (w : Work) : List Bool × Work :=
  match decodeLoop c rs (w.decodeStart c .full) with
  | (d, w1) =>
    match traceback c w1 with
    | (ds, w2) => (d ++ ds, w2)

/-! ### The command -/

/-- DECF (R172). -/
def execDecf (n : Nat) (s : State) : Host.Outcome State Fault Refusal :=
  s.withItems DinItem.asBit n fun r s =>
    if s.decfOk n then
      match decodeFull s.code (symbols s.code.pVal (n / s.code.pVal) r) s.work with
      | (d, w) => ({ s with work := w }.releaseScratch.put (d.map .bit)).respond .ok
    else s.raise .invalidInput

end Sys2Proof.Machine
end

