-- ==== Sys2Proof/Machine/Truncated.lean ====
section
/-! DEFINITION. DECT, truncated (windowed) decode (43_decode_truncated.md), over the parts of the full decode. -/

namespace Sys2Proof.Machine

/-- After the final symbol, whatever partial window remains is flushed the same way: the test COLCNT > 0 (R201). -/
def flushRest (c : Code) (w : Work) : List Bool × Work :=
  if 0 < w.colcnt then flush c w else ([], w)

/-- The body of DECT: the loop with its flushes, then the final partial window (R203). -/
def decodeTruncated (c : Code) (rs : List Symbol) (w : Work) : List Bool × Work :=
  match decodeLoop c rs (w.decodeStart c .truncated) with
  | (d, w1) =>
    match flushRest c w1 with
    | (ds, w2) => (d ++ ds, w2)

/-- DECT (R203). -/
def execDect (n : Nat) (s : State) : Host.Outcome State Fault Refusal :=
  s.withItems DinItem.asBit n fun r s =>
    if s.dectOk n then
      match decodeTruncated s.code (symbols s.code.pVal (n / s.code.pVal) r) s.work with
      | (d, w) => ({ s with work := w }.releaseScratch.put (d.map .bit)).respond .ok
    else s.raise .invalidInput

end Sys2Proof.Machine
end

