-- ==== Sys2Proof/Machine/Dispatch.lean ====
section
/-! DEFINITION. One arm per command: the meaning of each row of the opcode table. -/

namespace Sys2Proof.Machine

/-- The meaning of an instruction whose header has been taken. -/
def exec (i : Instr) (s : State) : Host.Outcome State Fault Refusal :=
  match i with
  | .rst => Sys2Proof.Machine.execRst s
  | .cfg kf pf => Sys2Proof.Machine.execCfg kf pf s
  | .encb n => Sys2Proof.Machine.execEncb n s
  | .encp n => Sys2Proof.Machine.execEncp n s
  | .decf n => Sys2Proof.Machine.execDecf n s
  | .dect n => Sys2Proof.Machine.execDect n s

end Sys2Proof.Machine
end

