-- ==== Sys2Proof/Machine/Step.lean ====
section
/-! DEFINITION. One step of the VTC: one command (00_scope.md R6; 10_state.md R38; log 1). -/

namespace Sys2Proof.Machine

/-- PHASE CHECK: decode the header that has been taken; a legal one is executed, an illegal one takes the exception
InvalidCommand, with no DIN item taken (R98, R99, R223, R228). -/
def runHeader (s : State) : Host.Outcome State Fault Refusal :=
  match decode s.hdr with
  | .ok i => exec i s
  | .error _ => .next (s.raise .invalidCommand)

/-- IDLE → CHECK: the next header is taken from CMD (R38). -/
def State.accept (s : State) (h : Word) (rest : List Word) : State :=
  { s with cmd := rest, hdr := h, phase := .check }

/-- One step. In IDLE the next header is taken and its command run to completion; with no header the VTC waits, all
state kept (R38, R236). In CHECK, where a command waits for its operands, it is tried again (R232; log 3). In no other
phase does a step begin (R264). -/
def step (s : State) : Host.Outcome State Fault Refusal :=
  match s.phase with
  | .idle =>
    match s.cmd with
    | [] => .next s
    | h :: rest => runHeader (s.accept h rest)
  | .check => runHeader s
  | .build => .fault .insideCommand
  | .enc => .fault .insideCommand
  | .acs => .fault .insideCommand
  | .select => .fault .insideCommand
  | .trace => .fault .insideCommand
  | .respond => .fault .insideCommand

/-- The DIN items that go with an instruction of the opcode table whose bits are `w`: the bits above its header (log 15). -/
def wordOperands (nbits w : Nat) : List DinItem :=
  match decode (headerOf nbits w) with
  | .ok i => operandItems ((w % 2 ^ nbits) >>> 32) i
  | .error _ => []

/-- The instruction whose bits are `w` stands where the next step takes it: its header first on CMD, its operands first
on DIN, the VTC in IDLE (log 15). -/
def State.withFetchWord (s : State) (nbits w : Nat) : State :=
  { s with
    phase := .idle
    cmd := headerOf nbits w :: s.cmd
    din := wordOperands nbits w ++ s.din }

end Sys2Proof.Machine
end

