-- ==== Sys2Proof/Machine/Sequencer.lean ====
section
/-! DEFINITION. The sequencer inside one command, phase by phase, as the PHASE table of 10_state.md R38 has it: the
refined machine of which `exec` is one whole run ("one step per rule", 00_scope.md R6). `step` does not use it; the
statements of the certificates compare the two. Its own counters and buffers, which the spec does not name, are `Run`'s
(log 14). -/

namespace Sys2Proof.Machine

/-- The PHASE table of R38: the phases that may follow each phase. -/
def Phase.nexts : Phase → List Phase
  | .idle => [.check]
  | .check => [.respond, .build, .enc, .acs, .select]
  | .build => [.build, .respond]
  | .enc => [.enc, .respond]
  | .acs => [.select, .acs]
  | .select => [.trace]
  | .trace => [.trace, .acs, .respond]
  | .respond => [.idle]

/-- A command being executed: the VTC's state, and what the sequencer keeps of the command. -/
structure Run where
  /-- The VTC's state; its PHASE is the sequencer's. -/
  s : State
  /-- The command. -/
  instr : Instr
  /-- The polynomial words of CFG. -/
  polys : List Word
  /-- The input bits of an encode that are not used yet. -/
  bits : List Bool
  /-- The symbols of a decode that are not consumed yet. -/
  syms : List Symbol
  /-- n = N / P, the number of symbols of the decode. -/
  n : Nat
  /-- The bits the traceback in progress has recovered, in time order. -/
  trail : List Bool
  /-- The response code to put. -/
  rsp : Rsp
  deriving DecidableEq, Repr

/-- A run in CHECK, its operands taken. -/
def Run.init (i : Instr) (s : State) : Run where
  s := { s with phase := .check }
  instr := i
  polys := []
  bits := []
  syms := []
  n := 0
  trail := []
  rsp := .ok

/-- IDLE → CHECK with the operands the header owns (R38, R95); `none` while the command cannot begin. -/
def Run.start (i : Instr) (s : State) : Option Run :=
  match i with
  | .rst => some (Run.init i s)
  | .cfg _ pf =>
    match takeItems DinItem.asWord pf s.din with
    | .got g rest => some { Run.init i { s with din := rest } with polys := g }
    | _ => none
  | .encb n =>
    match takeItems DinItem.asBit n s.din with
    | .got xs rest => some { Run.init i { s with din := rest } with bits := xs }
    | _ => none
  | .encp n =>
    match takeItems DinItem.asByte (byteCount n) s.din with
    | .got bytes rest => some { Run.init i { s with din := rest } with bits := bitsOf bytes n }
    | _ => none
  | .decf n =>
    match takeItems DinItem.asBit n s.din with
    | .got xs rest => some { Run.init i { s with din := rest } with bits := xs }
    | _ => none
  | .dect n =>
    match takeItems DinItem.asBit n s.din with
    | .got xs rest => some { Run.init i { s with din := rest } with bits := xs }
    | _ => none

/-- CHECK → RESPOND on an error (R38), with what the exception writes (R226; in this tick: log 16). -/
def Run.fail (r : Run) (e : Exc) : Run :=
  { r with s := { r.s.excEffect e with phase := .respond }, rsp := e.rsp }

/-- CHECK → ENC (R38), with the start of the encode call (R262; in this tick: log 16). -/
def Run.enterEnc (r : Run) (w : Work) : Run := { r with s := { r.s with work := w, phase := .enc } }

/-- CHECK → ACS, or to `empty` when there is no symbol (R38), with the start of the decode call (R172, R203; in this tick:
log 16). -/
def Run.enterDecode (r : Run) (n : Nat) (m : Mode) (empty : Phase) : Run :=
  let count := n / r.s.code.pVal
  { r with
    s := { r.s with
      work := r.s.work.decodeStart r.s.code m
      phase := if count = 0 then empty else .acs }
    syms := symbols r.s.code.pVal count r.bits
    n := count }

/-- CHECK: test every precondition of the command (R38). DESIGN CHOICE (log 16): a command's own first writes are made in
this same tick, after its tests: RST's clearing (R120), CFG's write of K, P, G and the emptying of TT before it is built
(R121), the initialisation of an encode or decode call (R262), and the writes of an exception (R226). -/
def Run.check (r : Run) : Run :=
  match r.instr with
  | .rst => { r with s := { r.s.clear with phase := .respond } }
  | .cfg kf pf =>
    if paramsOk r.s.config kf pf r.polys then
      { r with s := { r.s with
          code := { k := BitVec.ofNat 5 kf, p := BitVec.ofNat 8 pf, g := r.polys, tt := [] }
          phase := .build } }
    else r.fail .invalidParameter
  | .encb _ => if r.s.encodeOk then r.enterEnc r.s.work.encodeStart else r.fail .invalidInput
  | .encp _ => if r.s.encodeOk then r.enterEnc r.s.work.encodeStart.packStart else r.fail .invalidInput
  | .decf n => if r.s.decfOk n then r.enterDecode n .full .select else r.fail .invalidInput
  | .dect n => if r.s.dectOk n then r.enterDecode n .truncated .respond else r.fail .invalidInput

/-- BUILD: the next row of TT; RESPOND after row 2^K - 1, CFG_VALID set in that tick (R38, R121, R126; log 16). -/
def Run.build (r : Run) : Run :=
  let c := r.s.code
  let row := (c.g.map fun gj => revK c.kVal gj.toNat).map (rowBit c.kVal c.tt.length)
  let done := c.tt.length + 1 == 2 ^ c.kVal
  { r with s := { r.s with
      code := { c with tt := c.tt ++ [row] }
      cfgValid := r.s.cfgValid || done
      phase := if done then .respond else .build } }

/-- Emit encoder output: as bits, or packed (R142, R145). -/
def Run.emit (r : Run) (row : Symbol) (w : Work) : State :=
  match r.instr with
  | .encp _ =>
    match packBits row w with
    | (ys, w1) => ({ r.s with work := w1 }).put (ys.map .byte)
  | _ => ({ r.s with work := w }).put (row.map .bit)

/-- ENC: one encoder step; RESPOND after the last bit, after the pad byte for ENCP (R38). -/
def Run.enc (r : Run) : Run :=
  match r.bits with
  | b :: bs =>
    match encStep r.s.code b r.s.work with
    | (row, w) => { r with s := r.emit row w, bits := bs }
  | [] =>
    match r.instr with
    | .encp _ => { r with s := { r.s.put ((packRest r.s.work).map .byte) with phase := .respond } }
    | _ => { r with s := { r.s with phase := .respond } }

/-- ACS: one column step; SELECT if (MODE = 1 and COLCNT = WIN) or T = n (R38). -/
def Run.acs (r : Run) : Run :=
  match r.syms with
  | [] => r
  | x :: xs =>
    let w := colStep r.s.code x r.s.work
    { r with
      s := { r.s with
        work := w
        phase := if flushDue r.s.code w || w.t.toNat == r.n then .select else .acs }
      syms := xs }

/-- SELECT: choose BEST (R38). -/
def Run.select (r : Run) : Run :=
  { r with s := { r.s with work := selectBest r.s.code r.s.work, phase := .trace } }

/-- The recovered bits go out; OUT_OFF counts them in truncated mode and stays 0 in full mode (R33, R202). -/
def Run.deliver (r : Run) : Run :=
  let w := r.s.work
  let off := if w.mode = .truncated then w.outOff + BitVec.ofNat 24 r.trail.length else w.outOff
  { r with
    s := { ({ r.s with work := { w with outOff := off } }).put (r.trail.map .bit) with
      phase := if w.t.toNat < r.n then .acs else .respond }
    trail := [] }

/-- TRACE: one traceback step per column, newest first; then ACS if T < n, RESPOND if T = n (R38). -/
def Run.trace (r : Run) : Run :=
  if r.s.work.colcnt = 0 then r.deliver
  else
    match tbStep r.s.code r.s.work with
    | (bit, w) => { r with s := { r.s with work := w }, trail := bit :: r.trail }

/-- RESPOND: the scratch of a completed decode is unspecified again (R30, R31, logs 8, 16); the code goes out (R38). -/
def Run.respond (r : Run) : Run :=
  match r.instr, r.rsp with
  | .decf _, .ok => { r with s := r.s.releaseScratch.respond .ok }
  | .dect _, .ok => { r with s := r.s.releaseScratch.respond .ok }
  | _, code => { r with s := r.s.respond code }

/-- One tick of the sequencer (R38). In IDLE nothing happens. -/
def Run.tick (r : Run) : Run :=
  match r.s.phase with
  | .idle => r
  | .check => r.check
  | .build => r.build
  | .enc => r.enc
  | .acs => r.acs
  | .select => r.select
  | .trace => r.trace
  | .respond => r.respond

/-- `m` ticks. -/
def Run.ticks : Nat → Run → Run
  | 0, r => r
  | m + 1, r => Run.ticks m r.tick

end Sys2Proof.Machine
end

