-- ==== Sys2Proof/Safety.lean ====
section
/-! DEFINITION. What counts as a good state and a safe step, and the vocabulary of the claims: the code as a
convolution, Hamming distance, the end state of an input, written from the rules and not from the machine. -/

namespace Sys2Proof.Machine

/-! ### Good states -/

/-- A configuration that a successful CFG can have left (R22, R23, R24, R40): the parameters pass the check of R124, G has
P live entries, and TT is the table of (K, G). -/
structure Code.Ok (config : Config) (c : Code) : Prop where
  params : paramsOk config c.kVal c.pVal c.g = true
  count : c.g.length = c.pVal
  table : c.tt = buildTable c.kVal c.g

/-- The invariant of the machine between steps: the instance parameters lie in the ranges of R8; CFG_VALID = 1 only
over a configuration a CFG has left (R21, R40); TR is empty and COLCNT = 0 (R32, R46, R275); PHASE is IDLE, or CHECK
while a command waits for items (R38, R232). -/
structure State.Inv (s : State) : Prop where
  config : s.config.wf = true
  code : s.cfgValid = true → s.code.Ok s.config
  trellis : s.work.tr = []
  columns : s.work.colcnt = 0
  phase : s.phase = .idle ∨ s.phase = .check

/-- A safe step: the machine neither faults nor refuses. -/
def State.StepSafe (s : State) : Prop := ∃ t, step s = .next t

/-- A safe run of `n` steps: each of them is safe. -/
def State.RunSafe : Nat → State → Prop
  | 0, _ => True
  | n + 1, s => ∃ t, step s = .next t ∧ State.RunSafe n t

/-! ### The code as mathematics -/

/-- Hamming distance: the count of positions in which two bit sequences differ (R12, R163). -/
def hamming (a b : List Bool) : Nat := (List.zipWith (· ^^ ·) a b).count true

/-- x[t - m], the input of m steps before step t; zero before the first input, since the encoder starts in state 0
(R125, R142). -/
def inputBefore (x : List Bool) (t m : Nat) : Bool := decide (m ≤ t) && x.getD (t - m) false

/-- The output bit of polynomial g at step t: bit m of g taps the input of m steps ago (R101, R125). -/
def tapSum (k g : Nat) (x : List Bool) (t : Nat) : Bool := xorOver k fun m => g.testBit m && inputBefore x t m

/-- The encoded sequence of x: for each step the P output bits in the order of the polynomials (R66, R142). -/
def codeword (k : Nat) (g : List Word) (x : List Bool) : List Bool :=
  (List.range x.length).flatMap fun t => g.map fun gj => tapSum k gj.toNat x t

/-- The encoder state after the input x: bit K-2 is the latest input, bit 0 the input of K-1 steps ago (R27, R142). -/
def endState (k : Nat) (x : List Bool) : Nat := x.foldl (nextState k) 0

/-- The column steps of a decode call without a flush (R172). -/
def columnSteps (c : Code) (rs : List Symbol) (w : Work) : Work := rs.foldl (fun w r => colStep c r w) w

/-- `d` are the bits a traceback over the columns `first`, … of TR recovers when PM and TR are those of `w`: the input bits
of the states, after the first, of a path that ends in the best state and follows the recorded predecessors (R170, R171). -/
def SurvivorBits (c : Code) (w : Work) (first : Nat) (d : List Bool) : Prop :=
  ∃ path : List Nat,
    path.length = d.length + 1 ∧ path[d.length]? = some (bestState c w.pm) ∧
    (∀ j s, j < d.length → path[j + 1]? = some s → path[j]? = some (readTrellis w.tr (first + j) s)) ∧
    d = (path.drop 1).map (inbit c.kVal)

/-! ### The PHASE table -/

/-- N, the number of input bits a data command announces (R94); 0 for RST and CFG. -/
def inputBits : Instr → Nat
  | .rst => 0
  | .cfg _ _ => 0
  | .encb n => n
  | .encp n => n
  | .decf n => n
  | .dect n => n

/-- CHECK's successor (R38): RESPOND on any error and for RST; BUILD for CFG; ENC for ENCB and ENCP; ACS for DECF and DECT
with n > 0; with n = 0 SELECT for DECF, RESPOND for DECT. The errors are those of R124 and R222. -/
def phaseAfterCheck (i : Instr) (s : State) (polys : List Word) : Phase :=
  let n := inputBits i / s.code.pVal
  match i with
  | .rst => .respond
  | .cfg kf pf => if paramsOk s.config kf pf polys then .build else .respond
  | .encb _ => if s.cfgValid then .enc else .respond
  | .encp _ => if s.cfgValid then .enc else .respond
  | .decf len =>
    if s.cfgValid ∧ len % s.code.pVal = 0 ∧ s.config.fits n then (if n = 0 then .select else .acs) else .respond
  | .dect len => if s.cfgValid ∧ len % s.code.pVal = 0 then (if n = 0 then .respond else .acs) else .respond

/-- The successor that the PHASE table of R38 gives, with its conditions, to the command `i` begun in `s`, for the tick
that leads from `q` to `q'`: after the last row of TT, after the last input bit, MODE = 1 and COLCNT = WIN or T = n, while
a column is left, T < n. -/
def phaseAfter (i : Instr) (s : State) (q q' : Run) : Phase :=
  let n := inputBits i / s.code.pVal
  match q.s.phase with
  | .idle => .idle
  | .check => phaseAfterCheck i s q.polys
  | .build => if q'.s.code.tt.length = 2 ^ q'.s.code.kVal then .respond else .build
  | .enc => if q.bits = [] then .respond else .enc
  | .acs =>
    if (q'.s.work.mode = .truncated ∧ q'.s.work.colcnt = 5 * q'.s.code.kVal) ∨ q'.s.work.t.toNat = n then .select
    else .acs
  | .select => .trace
  | .trace =>
    if q.s.work.colcnt ≠ 0 then .trace
    else if q'.s.work.t.toNat < n then .acs
    else .respond
  | .respond => .idle

end Sys2Proof.Machine
end

