-- ==== Sys2Proof/Certificates/Slice0/Obligations.lean ====
section
/-! DEFINITION. The statements for the provers, one `def Obligations.<Name> : Prop` each, in the order of
OBLIGATIONS.json. Operand sequences stand first on DIN (`s.din = xs.map … ++ rest`); what a statement's next state does
not list is unchanged. -/

open Sys2Proof Sys2Proof.Machine

/-! ### Headers -/

/-- R38, R99: a step of a VTC in IDLE takes the next header and runs the command it decodes to; a step of a VTC whose
command waits in CHECK runs that command (log 3: that it waits in CHECK); and a step of a VTC in IDLE with no header on
CMD is no move, all state kept (R38, R236). -/
def Obligations.StepRunsTheDecodedCommand : Prop :=
  ∀ (s : State),
    (∀ (i : Instr) h rest, s.phase = .idle → s.cmd = h :: rest → decode h = .ok i →
      step s = exec i { s with cmd := rest, hdr := h, phase := .check }) ∧
    (∀ (i : Instr), s.phase = .check → decode s.hdr = .ok i → step s = exec i s) ∧
    (s.phase = .idle → s.cmd = [] → step s = .next s)

/-- R98, R228: the illegal headers are those with OPC 6 or 7 or a must-be-zero field that is not zero; such a header is
taken and answers ERR_CMD; no item is taken, nothing delivered, no state element changes. (What the model's own record
of the header taken holds then is left open: log 2.) -/
def Obligations.IllegalHeadersTakeInvalidCommand : Prop :=
  ∀ (h : Word),
    let opc := h.toNat / 2 ^ 29
    let illegal := 6 ≤ opc ∨ (opc = 0 ∧ h.toNat % 2 ^ 29 ≠ 0) ∨ (opc = 1 ∧ h.toNat % 2 ^ 16 ≠ 0) ∨
      (2 ≤ opc ∧ opc ≤ 5 ∧ h.toNat / 2 ^ 24 % 2 ^ 5 ≠ 0)
    (¬ illegal → ∃ i, decode h = .ok i) ∧
    (illegal → ∀ (s : State) (rest : List Word), s.phase = .idle → s.cmd = h :: rest →
      ∃ hd, step s = .next { s with cmd := rest, hdr := hd, rsp := s.rsp ++ [.errCmd] })

/-- R92, R93, R94: a word decodes to a row's instruction exactly when it has the row's match under the row's mask in
spec/opcode_table.json, and the fields are the bits of their places. -/
def Obligations.DecodeMatchesTheOpcodeTable : Prop :=
  ∀ (h : Word),
    (decode h = .ok .rst ↔ h &&& 0xFFFFFFFF#32 = 0x00000000#32) ∧
    (∀ kf pf, decode h = .ok (.cfg kf pf) ↔
      h &&& 0xE000FFFF#32 = 0x20000000#32 ∧ kf = h.toNat / 2 ^ 24 % 2 ^ 5 ∧ pf = h.toNat / 2 ^ 16 % 2 ^ 8) ∧
    (∀ n, decode h = .ok (.encb n) ↔ h &&& 0xFF000000#32 = 0x40000000#32 ∧ n = h.toNat % 2 ^ 24) ∧
    (∀ n, decode h = .ok (.encp n) ↔ h &&& 0xFF000000#32 = 0x60000000#32 ∧ n = h.toNat % 2 ^ 24) ∧
    (∀ n, decode h = .ok (.decf n) ↔ h &&& 0xFF000000#32 = 0x80000000#32 ∧ n = h.toNat % 2 ^ 24) ∧
    (∀ n, decode h = .ok (.dect n) ↔ h &&& 0xFF000000#32 = 0xA0000000#32 ∧ n = h.toNat % 2 ^ 24)

/-- Every well-formed instruction, with every value of every field, is decoded from its encoding. -/
def Obligations.DecodeOfEncode : Prop :=
  ∀ (i : Instr), i.wellFormed = true → decode (encode i) = .ok i ∧ decodeTableWord 32 (encode i).toNat = some i

/-- A legal header is the encoding of the instruction it decodes to, and that instruction is well-formed: no bit of a
header is ignored. -/
def Obligations.EncodeOfDecode : Prop :=
  ∀ (h : Word) (i : Instr), decode h = .ok i → i.wellFormed = true ∧ encode i = h

/-- R92, R93, R94: the example headers of the spec decode to the commands they stand for. -/
def Obligations.ExampleHeadersDecode : Prop :=
  decode 0x00000000#32 = .ok .rst ∧
  decode 0x23020000#32 = .ok (.cfg 3 2) ∧
  decode 0x40000004#32 = .ok (.encb 4) ∧
  decode 0x60000010#32 = .ok (.encp 16) ∧
  decode 0x80000008#32 = .ok (.decf 8) ∧
  decode 0xA0000016#32 = .ok (.dect 22)

/-! ### The transition model -/

/-- R122: bit K-1-k of rev_K(g) is bit k of g; rev_K has K bits, is its own inverse, maps 0 to 0 and nonzero to nonzero;
the worked values. -/
def Obligations.BitReversalWithinK : Prop :=
  (∀ (k g : Nat), g < 2 ^ k →
    revK k g < 2 ^ k ∧ (∀ m, m < k → (revK k g).testBit (k - 1 - m) = g.testBit m) ∧
    revK k (revK k g) = g ∧ revK k 0 = 0 ∧ (g ≠ 0 → revK k g ≠ 0)) ∧
  revK 3 0b110 = 0b011 ∧ revK 4 0b1011 = 0b1101 ∧ revK 7 0x79 = 0x4F ∧ revK 7 0x5B = 0x6D ∧ revK 2 0b01 = 0b10

/-- R123: the parity of an n-bit number is the number of its 1 bits modulo 2, and parity(0) = 0. -/
def Obligations.ParityCountsOneBits : Prop :=
  ∀ (n x : Nat), x < 2 ^ n →
    parity n x = decide ((List.range n).countP (x.testBit ·) % 2 = 1) ∧ parity n 0 = false

/-- R140: next(s, b) = (s >> 1) OR (b << (K-2)), a state, with the new bit on top; for K = 2 it is the bit. -/
def Obligations.NextStateShiftsTheBitIn : Prop :=
  ∀ (k s : Nat) (b : Bool), 2 ≤ k → s < 2 ^ (k - 1) →
    nextState k s b = idx k s b >>> 1 ∧ nextState k s b = (s >>> 1) ||| (b.toNat <<< (k - 2)) ∧
    nextState k s b < 2 ^ (k - 1) ∧ (nextState k s b).testBit (k - 2) = b ∧ (k = 2 → nextState k s b = b.toNat)

/-- R40: over a configuration, TT[i][j] = parity(i AND rev_K(G[j])) for all i and j; and no command but CFG and RST
changes TT, or any other part of the configuration. -/
def Obligations.TableIsThatOfTheParameters : Prop :=
  ∀ (s : State), s.Inv → s.cfgValid = true →
    s.code.tt.length = 2 ^ s.code.kVal ∧
    (∀ (i j : Nat) (gj : Word), i < 2 ^ s.code.kVal → s.code.g[j]? = some gj →
      (s.code.readRow i)[j]? = some (parity s.code.kVal (i &&& revK s.code.kVal gj.toNat)) ∧
      (s.code.readRow i).length = s.code.pVal) ∧
    (∀ n t, exec (.encb n) s = .next t ∨ exec (.encp n) s = .next t ∨ exec (.decf n) s = .next t ∨
      exec (.dect n) s = .next t → t.code = s.code ∧ t.cfgValid = true)

/-- R127: the four properties of the table of a configuration; (3) and (4) are the spec's own inferences, marked
`[derived: …]`. -/
def Obligations.TableProperties : Prop :=
  ∀ (config : Config) (c : Code), c.Ok config →
    c.readRow 0 = List.replicate c.pVal false ∧
    (∀ (config' : Config) (c' : Code), c'.Ok config' → c'.kVal = c.kVal → c'.g = c.g → c'.tt = c.tt) ∧
    (∀ (s j : Nat) (gj : Word), s < 2 ^ (c.kVal - 1) → c.g[j]? = some gj →
      (c.readRow (idx c.kVal s true))[j]? =
        ((c.readRow (idx c.kVal s false))[j]?).map fun v => v ^^ gj.toNat.testBit 0) ∧
    (∀ (i j : Nat) (gj : Word), i < 2 ^ c.kVal → c.g[j]? = some gj →
      (c.readRow (2 ^ c.kVal - 1 - i))[j]? =
        ((c.readRow i)[j]?).map fun v => v ^^ decide ((List.range c.kVal).countP (gj.toNat.testBit ·) % 2 = 1))

/-- R121, R124, R126: CFG with parameters that meet conditions (a) to (f) replaces the configuration: K, P, G are the
operands and TT[i][j] the XOR of the tapped bits of i; nothing else changes. -/
def Obligations.CfgBuildsTheConfiguration : Prop :=
  ∀ (s : State) (k : Nat) (g : List Word) (rest : List DinItem),
    s.din = g.map .word ++ rest → 2 ≤ k → k ≤ s.config.kMax.val → 1 ≤ g.length → g.length ≤ s.config.pMax.val →
    (∀ x ∈ g, x.toNat ≠ 0 ∧ x.toNat < 2 ^ k) →
    ∃ c : Code,
      exec (.cfg k g.length) s = .next
        { s with din := rest, cfgValid := true, code := c, rsp := s.rsp ++ [.ok], phase := .idle } ∧
      c.kVal = k ∧ c.pVal = g.length ∧ c.g = g ∧ c.tt.length = 2 ^ k ∧
      ∀ (i j : Nat) (gj : Word), i < 2 ^ k → g[j]? = some gj →
        (c.readRow i).length = g.length ∧
        (c.readRow i)[j]? = some (xorOver k fun m => i.testBit m && gj.toNat.testBit (k - 1 - m))

/-- R121, R221, R226: CFG with parameters that fail one of the conditions answers ERR_PARAM, its words taken: CFG_VALID
is 0, the configuration is some unspecified one, and nothing else changes (the counter of free values apart). -/
def Obligations.CfgWithBadParametersUnconfigures : Prop :=
  ∀ (s : State) (k : Nat) (g : List Word) (rest : List DinItem), s.din = g.map .word ++ rest →
    (k < 2 ∨ s.config.kMax.val < k ∨ g.length = 0 ∨ s.config.pMax.val < g.length ∨
      (∃ x ∈ g, x.toNat = 0 ∨ 2 ^ k ≤ x.toNat)) →
    ∃ (c : Code) (m : Nat),
      exec (.cfg k g.length) s = .next
        { s with din := rest, cfgValid := false, code := c, drawn := m, rsp := s.rsp ++ [.errParam], phase := .idle }

/-- R120, R261: RST answers OK and leaves the VTC unconfigured with an empty trellis, in IDLE; it takes and delivers
nothing. The configuration registers and the other working state are some unspecified values. -/
def Obligations.RstUnconfigures : Prop :=
  ∀ (s : State), ∃ (c : Code) (w : Work) (m : Nat),
    exec .rst s = .next
      { s with cfgValid := false, code := c, work := w, drawn := m, rsp := s.rsp ++ [.ok], phase := .idle } ∧
    w.tr = [] ∧ w.colcnt = 0

/-! ### The encoder -/

/-- R142: ENCB of a configured VTC delivers the convolution of its input with the polynomials, from state 0 whatever
ENC_STATE was, P bits for each input bit, and leaves ENC_STATE at the last K-1 inputs, the latest on top; nothing else
changes. -/
def Obligations.EncbDeliversTheConvolution : Prop :=
  ∀ (s : State) (xs : List Bool) (rest : List DinItem), s.Inv → s.cfgValid = true → s.din = xs.map .bit ++ rest →
    ∃ e : Nat,
      exec (.encb xs.length) s = .next
        { s with
          din := rest
          dout := s.dout ++ (codeword s.code.kVal s.code.g xs).map .bit
          rsp := s.rsp ++ [.ok]
          phase := .idle
          work := { s.work with encState := e } } ∧
      (codeword s.code.kVal s.code.g xs).length = xs.length * s.code.pVal ∧
      e < 2 ^ (s.code.kVal - 1) ∧
      ∀ m, m < s.code.kVal - 1 → e.testBit (s.code.kVal - 2 - m) = inputBefore xs xs.length (m + 1)

/-- R142, its own inference (`[derived: …]`): encoding is linear over XOR for inputs of equal length. -/
def Obligations.EncodingIsLinear : Prop :=
  ∀ (config : Config) (c : Code) (w : Work) (x y : List Bool), c.Ok config → x.length = y.length →
    (encodeBits c (List.zipWith (· ^^ ·) x y) w.encodeStart).1 =
      List.zipWith (· ^^ ·) (encodeBits c x w.encodeStart).1 (encodeBits c y w.encodeStart).1

/-- R65, R105: bit q of a packed sequence is bit 7 - (q mod 8) of byte q >> 3, the bytes are just enough, and the bits
after the payload are zeros. -/
def Obligations.PackedBytesAreMsbFirst : Prop :=
  ∀ (e : List Bool),
    (pack e).length = byteCount e.length ∧
    (∀ q, q < e.length → ((pack e)[q / 8]?).map (·.getLsbD (7 - q % 8)) = e[q]?) ∧
    (∀ q, e.length ≤ q → q < 8 * byteCount e.length →
      ((pack e)[q / 8]?).map (·.getLsbD (7 - q % 8)) = some false)

/-- R144: the streaming form of packing, from PACK_ACC = 0 and PACK_CNT = 0, gives the same bytes as pack. -/
def Obligations.StreamingPackingIsPack : Prop :=
  ∀ (e : List Bool) (w : Work),
    (packBits e w.packStart).1 ++ packRest (packBits e w.packStart).2 = pack e

/-- R145: ENCP of a configured VTC delivers the packed convolution of the first N bits of its bytes; only ENC_STATE,
PACK_ACC and PACK_CNT change beside. -/
def Obligations.EncpDeliversPackedBytes : Prop :=
  ∀ (s : State) (n : Nat) (bytes : List Byte) (rest : List DinItem), s.Inv → s.cfgValid = true →
    bytes.length = byteCount n → s.din = bytes.map .byte ++ rest →
    ∃ (e : Nat) (acc : Byte) (cnt : BitVec 3),
      exec (.encp n) s = .next
        { s with
          din := rest
          dout := s.dout ++ (pack (codeword s.code.kVal s.code.g (bitsOf bytes n))).map .byte
          rsp := s.rsp ++ [.ok]
          phase := .idle
          work := { s.work with encState := e, packAcc := acc, packCnt := cnt } } ∧
      (pack (codeword s.code.kVal s.code.g (bitsOf bytes n))).length = byteCount (n * s.code.pVal)

/-- R146, the spec's own inference (`[derived: …]`): ENCP of N bits in bytes is the packed form of ENCB of those bits,
and unpacking its first N × P bits gives the output of ENCB. -/
def Obligations.EncpIsPackedEncb : Prop :=
  ∀ (s : State) (n : Nat) (bytes : List Byte), s.Inv → s.cfgValid = true → bytes.length = byteCount n →
    ∃ (e : List Bool) (t u : State),
      exec (.encb n) { s with din := (bitsOf bytes n).map .bit } = .next t ∧ t.dout = s.dout ++ e.map .bit ∧
      exec (.encp n) { s with din := bytes.map .byte } = .next u ∧ u.dout = s.dout ++ (pack e).map .byte ∧
      bitsOf (pack e) (n * s.code.pVal) = e

/-! ### The decoder's parts -/

/-- R161: pred(s, x) = ((s << 1) AND SMASK) OR x; the two are exactly the states p with next(p, b) = s for some b, and
then b is inbit(s); they differ in bit 0 alone, so pred(s,0) < pred(s,1); for K = 2 they are 0 and 1; the table for K
= 3; s and s XOR (S >> 1) have the same two (this last the spec's own inference, `[derived]`). -/
def Obligations.PredecessorsInvertNext : Prop :=
  (∀ (k s : Nat), 2 ≤ k → s < 2 ^ (k - 1) →
    (∀ x, pred k s x = ((s <<< 1) &&& (2 ^ (k - 1) - 1)) ||| x.toNat) ∧
    (∀ p b, p < 2 ^ (k - 1) →
      (nextState k p b = s ↔ b = inbit k s ∧ (p = pred k s false ∨ p = pred k s true))) ∧
    pred k s true < 2 ^ (k - 1) ∧ pred k s true = pred k s false + 1 ∧ pred k s false % 2 = 0 ∧
    (∀ x, pred k (s ^^^ (2 ^ (k - 1) >>> 1)) x = pred k s x)) ∧
  (∀ s x, s < 2 → pred 2 s x = x.toNat) ∧
  (pred 3 0 false = 0 ∧ pred 3 0 true = 1 ∧ pred 3 1 false = 2 ∧ pred 3 1 true = 3 ∧
    pred 3 2 false = 0 ∧ pred 3 2 true = 1 ∧ pred 3 3 false = 2 ∧ pred 3 3 true = 3)

/-- R163: the branch metric of two symbols of P bits is their Hamming distance, at most P. -/
def Obligations.BranchMetricIsHammingDistance : Prop :=
  ∀ (p : Nat) (r e : Symbol), r.length = p → e.length = p → branchMetric r e = hamming r e ∧ branchMetric r e ≤ p

/-- R164: at the sentinel nothing is added, otherwise the sum is limited to 255; the corner cases. -/
def Obligations.SaturatingAddStopsAtTheSentinel : Prop :=
  (∀ (m : Metric) (d : Nat),
    (m = 255#8 → satAdd m d = 255#8) ∧ (m ≠ 255#8 → (satAdd m d).toNat = min (m.toNat + d) 255)) ∧
  satAdd 254#8 0 = 254#8 ∧ satAdd 254#8 1 = 255#8 ∧ satAdd 254#8 2 = 255#8 ∧ satAdd 255#8 0 = 255#8 ∧
  satAdd 0#8 0 = 0#8

/-- R41: at the moment T = 0 of every decode call PM[0] = 0 and every other entry is 255: in the working state every
call starts from, and at every moment of a run of the sequencer at which T = 0 and a column step or a selection is
due. -/
def Obligations.DecodeStartsInStateZero : Prop :=
  (∀ (c : Code) (w : Work) (m : Mode),
    (w.decodeStart c m).t = 0#24 ∧ (w.decodeStart c m).pm.length = 2 ^ (c.kVal - 1) ∧
    (w.decodeStart c m).pm[0]? = some 0#8 ∧
    ∀ s, 0 < s → s < 2 ^ (c.kVal - 1) → (w.decodeStart c m).pm[s]? = some 255#8) ∧
  (∀ (s : State) (n m : Nat) (r : Run), n < 2 ^ 24 →
    Run.start (.decf n) s = some r ∨ Run.start (.dect n) s = some r →
    let q := (Run.ticks m r).s
    (q.phase = .acs ∨ q.phase = .select) → q.work.t = 0#24 →
      q.work.pm.length = 2 ^ (q.code.kVal - 1) ∧ q.work.pm[0]? = some 0#8 ∧
      ∀ st, 0 < st → st < 2 ^ (q.code.kVal - 1) → q.work.pm[st]? = some 255#8)

/-- R42: every target state has exactly two predecessors, pred(s,0) below pred(s,1) (0 and 1 for K = 2); a column step
records the one of least accumulated metric, the lower-indexed on a tie, and that metric, all from the old vector (R165,
R166). The rest of the working state other than PM, PMN, COLBUF, TR, COLCNT and T is unchanged. -/
def Obligations.ColumnStepSelectsTheBestPredecessor : Prop :=
  ∀ (config : Config) (c : Code) (r : Symbol) (w : Work), c.Ok config →
    let cost := fun (p s : Nat) =>
      satAdd (readMetric w.pm p) (hamming r (c.readRow (idx c.kVal p (inbit c.kVal s))))
    r.length = c.pVal →
    ∃ (pm : List Metric) (col : List Nat),
      colStep c r w =
        { w with pm := pm, pmn := pm, colbuf := col, tr := w.tr ++ [col], colcnt := w.colcnt + 1, t := w.t + 1#24 } ∧
        pm.length = 2 ^ (c.kVal - 1) ∧ col.length = 2 ^ (c.kVal - 1) ∧
        ∀ s, s < 2 ^ (c.kVal - 1) →
          (∀ q, q < 2 ^ (c.kVal - 1) →
            ((∃ b, nextState c.kVal q b = s) ↔ q = pred c.kVal s false ∨ q = pred c.kVal s true)) ∧
          pred c.kVal s false < pred c.kVal s true ∧
          (c.kVal = 2 → pred c.kVal s false = 0 ∧ pred c.kVal s true = 1) ∧
          ∃ x, col[s]? = some (pred c.kVal s x) ∧ pm[s]? = some (cost (pred c.kVal s x) s) ∧
            (∀ y, cost (pred c.kVal s x) s ≤ cost (pred c.kVal s y) s) ∧
            (x = true → cost (pred c.kVal s true) s < cost (pred c.kVal s false) s)

/-- R169: the selected state has the least metric and is the least such state; it is 0 before any column step and when
every entry is 255. -/
def Obligations.BestStateIsTheLeastMinimum : Prop :=
  (∀ (c : Code) (pm : List Metric), pm.length = 2 ^ (c.kVal - 1) →
    bestState c pm < 2 ^ (c.kVal - 1) ∧
    (∀ s, s < 2 ^ (c.kVal - 1) → readMetric pm (bestState c pm) ≤ readMetric pm s) ∧
    (∀ s, s < bestState c pm → readMetric pm (bestState c pm) < readMetric pm s)) ∧
  (∀ c : Code, bestState c (startMetrics c) = 0 ∧ bestState c (List.replicate (2 ^ (c.kVal - 1)) 255#8) = 0)

/-- R170, R171: a traceback walks from the best state through every stored column, newest first; bit c of its result is
the input bit of the state reached after column c; the trellis is consumed and everything but BEST, TB_STATE, TR and
COLCNT is unchanged. -/
def Obligations.TracebackFollowsTheRecordedPath : Prop :=
  ∀ (c : Code) (w : Work), w.colcnt = w.tr.length →
    ∃ path : List Nat,
      path.length = w.colcnt + 1 ∧ path[w.colcnt]? = some (bestState c w.pm) ∧
      (∀ col s, col < w.colcnt → path[col + 1]? = some s → path[col]? = some (readTrellis w.tr col s)) ∧
      (traceback c w).1 = (path.drop 1).map (inbit c.kVal) ∧
      (traceback c w).2 =
        { w with best := bestState c w.pm, tbState := path.headD 0, tr := [], colcnt := 0 }

/-- R45, R173, the spec's own inference (`[derived: …]`): after the column steps of a call an entry of PM below 255 is
the exact least Hamming distance, to the received symbols, of the encodings of the inputs that end in that state; and
no such input is closer than the entry. -/
def Obligations.PathMetricIsTheLeastDistance : Prop :=
  ∀ (config : Config) (c : Code) (rs : List Symbol) (w : Work) (m : Mode), c.Ok config →
    (∀ r ∈ rs, r.length = c.pVal) →
    ∀ s, s < 2 ^ (c.kVal - 1) →
      let entry := (readMetric (columnSteps c rs (w.decodeStart c m)).pm s).toNat
      (entry < 255 → ∃ x : List Bool, x.length = rs.length ∧ endState c.kVal x = s ∧
        hamming (codeword c.kVal c.g x) rs.flatten = entry) ∧
      (∀ x : List Bool, x.length = rs.length → endState c.kVal x = s →
        entry ≤ hamming (codeword c.kVal c.g x) rs.flatten)

/-- R268, the spec's own inference (`[derived: …]`): once every entry of PM is 255, a column step leaves every entry
255 and records pred(s, 0) for every state, whatever the symbol, and the best state is 0. -/
def Obligations.SaturatedMetricsForgetTheInput : Prop :=
  ∀ (c : Code) (r : Symbol) (w : Work), w.pm = List.replicate (2 ^ (c.kVal - 1)) 255#8 →
    (colStep c r w).pm = List.replicate (2 ^ (c.kVal - 1)) 255#8 ∧
    (colStep c r w).tr = w.tr ++ [(List.range (2 ^ (c.kVal - 1))).map fun s => pred c.kVal s false] ∧
    bestState c (colStep c r w).pm = 0

/-! ### DECF and DECT -/

/-- R172, and R173, the spec's own inference (`[derived: …]`): DECF of a configured VTC, the length a multiple of P
within D_MAX, delivers one bit per symbol; and if any input encodes within distance 254 of the received sequence, the
delivered bits are an input whose encoding is closest to it. TR is empty and COLCNT = 0 again; the encoder's registers
and everything else but the working state are unchanged (the counter of free values apart). -/
def Obligations.DecfReturnsAClosestInput : Prop :=
  ∀ (s : State) (r : List Bool) (rest : List DinItem), s.Inv → s.cfgValid = true → s.din = r.map .bit ++ rest →
    r.length % s.code.pVal = 0 → s.config.fits (r.length / s.code.pVal) = true →
    ∃ (d : List Bool) (w : Work) (m : Nat),
      exec (.decf r.length) s = .next
        { s with
          din := rest, dout := s.dout ++ d.map .bit, rsp := s.rsp ++ [.ok], phase := .idle, work := w, drawn := m } ∧
      d.length = r.length / s.code.pVal ∧
      w.tr = [] ∧ w.colcnt = 0 ∧
      w.encState = s.work.encState ∧ w.packAcc = s.work.packAcc ∧ w.packCnt = s.work.packCnt ∧
      ((∃ x : List Bool, x.length = d.length ∧ hamming (codeword s.code.kVal s.code.g x) r < 255) →
        ∀ x : List Bool, x.length = d.length →
          hamming (codeword s.code.kVal s.code.g d) r ≤ hamming (codeword s.code.kVal s.code.g x) r)

/-- R202, R203, R204, R206: DECT of a configured VTC, the length any multiple of P, delivers one bit per symbol; and for
every window f, whole or the last partial one, the bits of its columns are those of a traceback over these columns alone,
from the best state of the metrics after the symbols up to the window's end. The metrics and the recorded predecessors are
those of column steps from the one start of the call, which no flush has touched: PM persists across the windows. The rest
as for DECF. -/
def Obligations.DectDeliversOneBitPerSymbol : Prop :=
  ∀ (s : State) (r : List Bool) (rest : List DinItem), s.Inv → s.cfgValid = true → s.din = r.map .bit ++ rest →
    r.length % s.code.pVal = 0 →
    let n := r.length / s.code.pVal
    let win := 5 * s.code.kVal
    ∃ (d : List Bool) (w : Work) (m : Nat),
      exec (.dect r.length) s = .next
        { s with
          din := rest, dout := s.dout ++ d.map .bit, rsp := s.rsp ++ [.ok], phase := .idle, work := w, drawn := m } ∧
      d.length = n ∧
      (∀ f, f * win < n →
        let upTo := min ((f + 1) * win) n
        SurvivorBits s.code
          (columnSteps s.code ((symbols s.code.pVal n r).take upTo) (s.work.decodeStart s.code .truncated))
          (f * win) ((d.take upTo).drop (f * win))) ∧
      w.tr = [] ∧ w.colcnt = 0 ∧
      w.encState = s.work.encState ∧ w.packAcc = s.work.packAcc ∧ w.packCnt = s.work.packCnt

/-- R174, the if, the spec's own inference (`[derived: …]`): when some polynomial has bit 0 set, decoding an encoded
sequence over a noiseless channel returns it, by DECF (within D_MAX) and by DECT. -/
def Obligations.NoiselessRoundTrip : Prop :=
  ∀ (s : State) (x : List Bool) (rest : List DinItem), s.Inv → s.cfgValid = true →
    (∃ g ∈ s.code.g, g.toNat.testBit 0 = true) →
    s.din = (codeword s.code.kVal s.code.g x).map .bit ++ rest →
    (s.config.fits x.length = true → ∃ t, exec (.decf (x.length * s.code.pVal)) s = .next t ∧
      t.dout = s.dout ++ x.map .bit) ∧
    (∃ t, exec (.dect (x.length * s.code.pVal)) s = .next t ∧ t.dout = s.dout ++ x.map .bit)

/-- R174, the only if, the spec's own inference (`[derived: …]`): when every polynomial is even, the last decoded bit
of an encoded sequence is 0, whatever the last input bit was. -/
def Obligations.EvenCodesLoseTheLastBit : Prop :=
  ∀ (s : State) (x : List Bool) (b : Bool) (rest : List DinItem), s.Inv → s.cfgValid = true →
    (∀ g ∈ s.code.g, g.toNat.testBit 0 = false) →
    s.din = (codeword s.code.kVal s.code.g (x ++ [b])).map .bit ++ rest →
    (s.config.fits (x.length + 1) = true → ∃ (y : List Bool) (t : State),
      exec (.decf ((x.length + 1) * s.code.pVal)) s = .next t ∧
      y.length = x.length ∧ t.dout = s.dout ++ (y ++ [false]).map .bit) ∧
    (∃ (y : List Bool) (t : State), exec (.dect ((x.length + 1) * s.code.pVal)) s = .next t ∧
      y.length = x.length ∧ t.dout = s.dout ++ (y ++ [false]).map .bit)

/-- R205, for n = WIN the spec's own inference (`[derived: …]`): DECT delivers what DECF delivers for every n ≤ WIN;
beyond one window they may differ. -/
def Obligations.DectAgreesWithDecfWithinOneWindow : Prop :=
  (∀ (s : State) (r : List Bool) (rest : List DinItem), s.Inv → s.cfgValid = true → s.din = r.map .bit ++ rest →
    r.length % s.code.pVal = 0 → r.length / s.code.pVal ≤ 5 * s.code.kVal →
    ∃ (d : List Bool) (t u : State),
      exec (.decf r.length) s = .next t ∧ exec (.dect r.length) s = .next u ∧
      t.dout = s.dout ++ d.map .bit ∧ u.dout = s.dout ++ d.map .bit) ∧
  (∃ (s : State) (r : List Bool) (t u : State), s.Inv ∧ s.cfgValid = true ∧ s.din = r.map .bit ∧
    5 * s.code.kVal < r.length / s.code.pVal ∧
    exec (.decf r.length) s = .next t ∧ exec (.dect r.length) s = .next u ∧ t.dout ≠ u.dout)

/-- R206, the spec's own inference (`[derived: …]`): the bits DECT delivers for whole windows depend on the symbols of
those windows alone: what follows changes nothing of them. -/
def Obligations.DectWindowsAreFinal : Prop :=
  ∀ (s : State) (a b : List Bool), s.Inv → s.cfgValid = true →
    a.length % (5 * s.code.kVal * s.code.pVal) = 0 → b.length % s.code.pVal = 0 →
    ∃ (d e : List Bool) (t u : State),
      exec (.dect a.length) { s with din := a.map .bit } = .next t ∧ t.dout = s.dout ++ d.map .bit ∧
      exec (.dect (a ++ b).length) { s with din := (a ++ b).map .bit } = .next u ∧
      u.dout = s.dout ++ (d ++ e).map .bit

/-! ### Exceptions, waiting, stops -/

/-- R222, R227 (ERR_INPUT = 0b10): a data command on an unconfigured VTC, a decode whose length P does not divide, and
a DECF of more columns than D_MAX, answer ERR_INPUT: their items are taken, and nothing else changes. -/
def Obligations.InvalidInputChangesNothing : Prop :=
  ∀ (s : State) (rest : List DinItem),
    let failed : Host.Outcome State Fault Refusal :=
      .next { s with din := rest, rsp := s.rsp ++ [.errInput], phase := .idle }
    (∀ xs : List Bool, s.din = xs.map .bit ++ rest →
      (s.cfgValid = false → exec (.encb xs.length) s = failed) ∧
      (s.cfgValid = false ∨ xs.length % s.code.pVal ≠ 0 ∨
        (∃ d, s.config.dMax = some d ∧ d < xs.length / s.code.pVal) → exec (.decf xs.length) s = failed) ∧
      (s.cfgValid = false ∨ xs.length % s.code.pVal ≠ 0 → exec (.dect xs.length) s = failed)) ∧
    (∀ (n : Nat) (bytes : List Byte), s.din = bytes.map .byte ++ rest → bytes.length = byteCount n →
      s.cfgValid = false → exec (.encp n) s = failed) ∧
    Rsp.errInput.code = 0b10#2

/-- R232: a command whose items have not all arrived does not complete: it waits in CHECK with all state kept, and a
step of the waiting VTC is no move. -/
def Obligations.StarvedCommandsWait : Prop :=
  ∀ (s : State) (i : Instr),
    (match i with
      | .rst => False
      | .cfg _ pf => ∃ xs : List Word, s.din = xs.map .word ∧ xs.length < pf
      | .encb n => ∃ xs : List Bool, s.din = xs.map .bit ∧ xs.length < n
      | .encp n => ∃ xs : List Byte, s.din = xs.map .byte ∧ xs.length < byteCount n
      | .decf n => ∃ xs : List Bool, s.din = xs.map .bit ∧ xs.length < n
      | .dect n => ∃ xs : List Bool, s.din = xs.map .bit ∧ xs.length < n) →
    exec i s = .next { s with phase := .check } ∧
    (s.phase = .check → decode s.hdr = .ok i → ∀ n, Host.Core.run core n s = .next s)

/-- 93 U9 (log 4, the model's choice of a refusal): a command one of whose operands is an item of another size is
refused by name. -/
def Obligations.WrongItemSizesAreRefused : Prop :=
  ∀ (s : State) (x : DinItem) (rest : List DinItem),
    (∀ (k pf : Nat) (pre : List Word), s.din = pre.map .word ++ x :: rest → pre.length < pf → x.asWord = none →
      exec (.cfg k pf) s = .refused .dinItemSize) ∧
    (∀ (n : Nat) (pre : List Bool), s.din = pre.map .bit ++ x :: rest → pre.length < n → x.asBit = none →
      exec (.encb n) s = .refused .dinItemSize ∧ exec (.decf n) s = .refused .dinItemSize ∧
      exec (.dect n) s = .refused .dinItemSize) ∧
    (∀ (n : Nat) (pre : List Byte), s.din = pre.map .byte ++ x :: rest → pre.length < byteCount n →
      x.asByte = none → exec (.encp n) s = .refused .dinItemSize)

/-- R74, R97, R224: a command that answers either waits or puts exactly one response code, one its row of R224's table
allows, and is in IDLE; with a code other than OK it delivers nothing. -/
def Obligations.OneResponsePerCommand : Prop :=
  ∀ (i : Instr) (s t : State), exec i s = .next t →
    t = { s with phase := .check } ∨
    ∃ code, t.rsp = s.rsp ++ [code] ∧ t.phase = .idle ∧ (code ≠ .ok → t.dout = s.dout) ∧
      (match i with
        | .rst => code = .ok
        | .cfg _ _ => code = .ok ∨ code = .errParam
        | .encb _ => code = .ok ∨ code = .errInput
        | .encp _ => code = .ok ∨ code = .errInput
        | .decf _ => code = .ok ∨ code = .errInput
        | .dect _ => code = .ok ∨ code = .errInput)

/-! ### The whole machine -/

/-- R260, R46: what power-on leaves, of the values the spec gives. The last clause, that any number of steps leaves
State.reset as it is, is no part of R260: it rests on the waiting of R46 and R236 and on the model's choices that the
ports are empty at reset (log 2) and that no program stands in the machine then (log 15). -/
def Obligations.PowerOnIsUnconfigured : Prop :=
  State.reset.cfgValid = false ∧ State.reset.work.colcnt = 0 ∧ State.reset.work.tr = [] ∧
  State.reset.phase = .idle ∧ ∀ n, Host.Core.run core n State.reset = .next State.reset

/-- The invariant holds at power-on. -/
def Obligations.InvHoldsAtReset : Prop := State.reset.Inv

/-- R21 to R24, R40, R275: every step keeps the invariant. -/
def Obligations.StepKeepsInv : Prop := ∀ (s t : State), s.Inv → step s = .next t → t.Inv

/-- R220, R229, R233: in a state of the invariant a step never faults, and the one refusal is that of an item of the
wrong size. -/
def Obligations.NothingStopsButWrongItems : Prop :=
  ∀ (s : State), s.Inv → (∃ t, step s = .next t) ∨ step s = .refused .dinItemSize

/-- R36, R71, R264: a step takes at most one header and a first part of DIN, revises nothing on DOUT and RSP, puts at
most one code, and leaves the instance parameters alone. -/
def Obligations.StepRevisesNothingDelivered : Prop :=
  ∀ (s t : State), step s = .next t →
    t.config = s.config ∧
    (∃ taken, s.cmd = taken ++ t.cmd ∧ taken.length ≤ 1) ∧
    (∃ taken, s.din = taken ++ t.din) ∧
    (∃ out, t.dout = s.dout ++ out) ∧
    (∃ codes, t.rsp = s.rsp ++ codes ∧ codes.length ≤ 1)

/-- R262, R275, 93 U1 to U3: what a command delivers, its response and the configuration it leaves are a function of the
old configuration, the command and its items alone: not of the working state, of the free values drawn, or of what an
unconfigured VTC's registers hold. -/
def Obligations.ResultsDoNotDependOnHistory : Prop :=
  ∀ (i : Instr) (s s' t : State), s'.config = s.config → s'.cfgValid = s.cfgValid →
    (s.cfgValid = true → s'.code = s.code) → s'.din = s.din → exec i s = .next t →
    ∃ t', exec i s' = .next t' ∧ t'.phase = t.phase ∧ t'.din = t.din ∧ t'.cfgValid = t.cfgValid ∧
      (t.cfgValid = true → t'.code = t.code) ∧
      (∃ out, t.dout = s.dout ++ out ∧ t'.dout = s'.dout ++ out) ∧
      (∃ codes, t.rsp = s.rsp ++ codes ∧ t'.rsp = s'.rsp ++ codes)

/-! ### The sequencer -/

/-- R6, R38: a whole run of the sequencer through the PHASE table ends where the command's meaning ends. -/
def Obligations.SequencerRunsTheMeaning : Prop :=
  ∀ (i : Instr) (s : State) (r : Run), i.wellFormed = true → Run.start i s = some r →
    ∃ m, exec i s = .next (Run.ticks m r).s ∧ (Run.ticks m r).s.phase = .idle

/-- R38: every tick of a run goes where the PHASE table says, with the table's conditions (`phaseAfter`), and only to a
phase the table names; each tick of ENC before its last uses one input bit. -/
def Obligations.TicksFollowThePhaseTable : Prop :=
  ∀ (i : Instr) (s : State) (r : Run) (m : Nat), i.wellFormed = true → Run.start i s = some r →
    let q := Run.ticks m r
    let q' := Run.ticks (m + 1) r
    q.s.phase ≠ .idle →
      q'.s.phase = phaseAfter i s q q' ∧ q'.s.phase ∈ q.s.phase.nexts ∧
      (q.s.phase = .enc → q'.bits = q.bits.tail)

/-- R43, and R207, the spec's own inference (`[derived: …]`): at every moment of a decode COLCNT is the number of
columns held; when a column step or a selection is due, it is the number of symbols consumed since the last flush, T -
OUT_OFF (T in a DECF, where OUT_OFF stays 0); and in a DECT it never exceeds WIN. -/
def Obligations.ColumnCountIsStepsSinceTheFlush : Prop :=
  ∀ (s : State) (n m : Nat) (r : Run), s.Inv → n < 2 ^ 24 →
    let w := (Run.ticks m r).s.work
    let ph := (Run.ticks m r).s.phase
    (Run.start (.decf n) s = some r →
      w.colcnt = w.tr.length ∧ (ph = .acs ∨ ph = .select → w.colcnt = w.t.toNat ∧ w.outOff = 0#24)) ∧
    (Run.start (.dect n) s = some r →
      w.colcnt = w.tr.length ∧ (ph = .acs ∨ ph = .select → w.colcnt + w.outOff.toNat = w.t.toNat) ∧
      (s.cfgValid = true → w.colcnt ≤ 5 * s.code.kVal))

/-- R44, the spec's own inference (`[derived: …]`): at every moment of a command, every stored trellis entry TR[c][s]
is one of the two predecessors of s, and is recoverable from s and its bit 0. -/
def Obligations.TrellisEntriesArePredecessors : Prop :=
  ∀ (i : Instr) (s : State) (r : Run) (m : Nat), s.Inv → Run.start i s = some r →
    let q := (Run.ticks m r).s
    ∀ (j st p : Nat) (col : List Nat), q.work.tr[j]? = some col → col[st]? = some p →
      (p = pred q.code.kVal st false ∨ p = pred q.code.kVal st true) ∧
      p = ((st <<< 1) &&& stateMask q.code.kVal) ||| (p.testBit 0).toNat ∧
      p >>> 1 = st &&& (stateMask q.code.kVal >>> 1)

/-- R171, R172: the bits DECF delivers are those of one traceback over all columns, from the best state of the final
metrics: this fixes them on a noisy input and on ties as well. -/
def Obligations.DecfDeliversTheSurvivorPath : Prop :=
  ∀ (s : State) (r : List Bool) (rest : List DinItem), s.Inv → s.cfgValid = true → s.din = r.map .bit ++ rest →
    r.length % s.code.pVal = 0 → s.config.fits (r.length / s.code.pVal) = true →
    let n := r.length / s.code.pVal
    ∃ (d : List Bool) (t : State),
      exec (.decf r.length) s = .next t ∧ t.dout = s.dout ++ d.map .bit ∧ d.length = n ∧
      SurvivorBits s.code (columnSteps s.code (symbols s.code.pVal n r) (s.work.decodeStart s.code .full)) 0 d
end

