-- ==== Sys2Proof/Laws/Decode.lean ====
section
/-! SUPPORT. The header's fields and the decoder in numbers. -/

namespace Sys2Proof

theorem opcOf_eq (h : Word) : opcOf h = h.toNat / 2 ^ 29 := by
  have := h.isLt
  simp [opcOf, BitVec.extractLsb'_toNat, Nat.shiftRight_eq_div_pow]; omega

theorem kfOf_eq (h : Word) : kfOf h = h.toNat / 2 ^ 24 % 2 ^ 5 := by
  simp [kfOf, BitVec.extractLsb'_toNat, Nat.shiftRight_eq_div_pow]

theorem pfOf_eq (h : Word) : pfOf h = h.toNat / 2 ^ 16 % 2 ^ 8 := by
  simp [pfOf, BitVec.extractLsb'_toNat, Nat.shiftRight_eq_div_pow]

theorem lenOf_eq (h : Word) : lenOf h = h.toNat % 2 ^ 24 := by simp [lenOf, BitVec.extractLsb'_toNat]

theorem decodeData_eq (mk : Nat → Instr) (h : Word) :
    decodeData mk h =
      if h.toNat / 2 ^ 24 % 2 ^ 5 = 0 then .ok (mk (h.toNat % 2 ^ 24)) else .error .dataBits := by
  rw [decodeData, kfOf_eq, lenOf_eq]

/-- The decoder in numbers, one case for each value of OPC (R99). -/
theorem decode_eq (h : Word) :
    decode h =
      if h.toNat / 2 ^ 29 = 0 then
        (if h.toNat % 2 ^ 29 = 0 then .ok .rst else .error .rstBits)
      else if h.toNat / 2 ^ 29 = 1 then
        (if h.toNat % 2 ^ 16 = 0
          then .ok (.cfg (h.toNat / 2 ^ 24 % 2 ^ 5) (h.toNat / 2 ^ 16 % 2 ^ 8)) else .error .cfgBits)
      else if h.toNat / 2 ^ 29 = 2 then decodeData .encb h
      else if h.toNat / 2 ^ 29 = 3 then decodeData .encp h
      else if h.toNat / 2 ^ 29 = 4 then decodeData .decf h
      else if h.toNat / 2 ^ 29 = 5 then decodeData .dect h
      else .error .reservedOpc := by
  have hlt := h.isLt
  have l29 : (h.extractLsb' 0 29).toNat = h.toNat % 2 ^ 29 := by simp
  have l16 : (h.extractLsb' 0 16).toNat = h.toNat % 2 ^ 16 := by simp
  unfold decode
  rw [opcOf_eq, l29, l16, kfOf_eq, pfOf_eq]
  have : h.toNat / 2 ^ 29 < 8 := by omega
  generalize h.toNat / 2 ^ 29 = o at *
  have : o = 0 ∨ o = 1 ∨ o = 2 ∨ o = 3 ∨ o = 4 ∨ o = 5 ∨ o = 6 ∨ o = 7 := by omega
  rcases this with rfl | rfl | rfl | rfl | rfl | rfl | rfl | rfl <;> simp

/-- A header whose fields fit is the number its fields spell. -/
theorem header_toNat {opc kf len : Nat} (ho : opc < 2 ^ 3) (hk : kf < 2 ^ 5) (hl : len < 2 ^ 24) :
    (header opc kf len).toNat = opc * 2 ^ 29 + kf * 2 ^ 24 + len := by
  rw [header, BitVec.toNat_ofNat]; omega

end Sys2Proof
end

