-- ==== Sys2Proof/Laws/State.lean ====
section
/-! SUPPORT. One lemma per field per update of State and of the working state, each true by `rfl`, so that no later proof
unfolds a record update. -/

namespace Sys2Proof.Machine

/-! ### The port and sequencer operations, field by field -/

@[simp] theorem put_config (s : State) (items : List DoutItem) : (s.put items).config = s.config := rfl
@[simp] theorem put_cfgValid (s : State) (items : List DoutItem) : (s.put items).cfgValid = s.cfgValid := rfl
@[simp] theorem put_code (s : State) (items : List DoutItem) : (s.put items).code = s.code := rfl
@[simp] theorem put_work (s : State) (items : List DoutItem) : (s.put items).work = s.work := rfl
@[simp] theorem put_phase (s : State) (items : List DoutItem) : (s.put items).phase = s.phase := rfl
@[simp] theorem put_cmd (s : State) (items : List DoutItem) : (s.put items).cmd = s.cmd := rfl
@[simp] theorem put_hdr (s : State) (items : List DoutItem) : (s.put items).hdr = s.hdr := rfl
@[simp] theorem put_din (s : State) (items : List DoutItem) : (s.put items).din = s.din := rfl
@[simp] theorem put_dout (s : State) (items : List DoutItem) : (s.put items).dout = s.dout ++ items := rfl
@[simp] theorem put_rsp (s : State) (items : List DoutItem) : (s.put items).rsp = s.rsp := rfl
@[simp] theorem put_drawn (s : State) (items : List DoutItem) : (s.put items).drawn = s.drawn := rfl

@[simp] theorem respond_config (s : State) (r : Rsp) : (s.respond r).config = s.config := rfl
@[simp] theorem respond_cfgValid (s : State) (r : Rsp) : (s.respond r).cfgValid = s.cfgValid := rfl
@[simp] theorem respond_code (s : State) (r : Rsp) : (s.respond r).code = s.code := rfl
@[simp] theorem respond_work (s : State) (r : Rsp) : (s.respond r).work = s.work := rfl
@[simp] theorem respond_phase (s : State) (r : Rsp) : (s.respond r).phase = .idle := rfl
@[simp] theorem respond_cmd (s : State) (r : Rsp) : (s.respond r).cmd = s.cmd := rfl
@[simp] theorem respond_hdr (s : State) (r : Rsp) : (s.respond r).hdr = s.hdr := rfl
@[simp] theorem respond_din (s : State) (r : Rsp) : (s.respond r).din = s.din := rfl
@[simp] theorem respond_dout (s : State) (r : Rsp) : (s.respond r).dout = s.dout := rfl
@[simp] theorem respond_rsp (s : State) (r : Rsp) : (s.respond r).rsp = s.rsp ++ [r] := rfl
@[simp] theorem respond_drawn (s : State) (r : Rsp) : (s.respond r).drawn = s.drawn := rfl

@[simp] theorem wait_config (s : State) : (s.wait).config = s.config := rfl
@[simp] theorem wait_cfgValid (s : State) : (s.wait).cfgValid = s.cfgValid := rfl
@[simp] theorem wait_code (s : State) : (s.wait).code = s.code := rfl
@[simp] theorem wait_work (s : State) : (s.wait).work = s.work := rfl
@[simp] theorem wait_phase (s : State) : (s.wait).phase = .check := rfl
@[simp] theorem wait_cmd (s : State) : (s.wait).cmd = s.cmd := rfl
@[simp] theorem wait_hdr (s : State) : (s.wait).hdr = s.hdr := rfl
@[simp] theorem wait_din (s : State) : (s.wait).din = s.din := rfl
@[simp] theorem wait_dout (s : State) : (s.wait).dout = s.dout := rfl
@[simp] theorem wait_rsp (s : State) : (s.wait).rsp = s.rsp := rfl
@[simp] theorem wait_drawn (s : State) : (s.wait).drawn = s.drawn := rfl

@[simp] theorem releaseScratch_config (s : State) : (s.releaseScratch).config = s.config := rfl
@[simp] theorem releaseScratch_cfgValid (s : State) : (s.releaseScratch).cfgValid = s.cfgValid := rfl
@[simp] theorem releaseScratch_code (s : State) : (s.releaseScratch).code = s.code := rfl
@[simp] theorem releaseScratch_phase (s : State) : (s.releaseScratch).phase = s.phase := rfl
@[simp] theorem releaseScratch_cmd (s : State) : (s.releaseScratch).cmd = s.cmd := rfl
@[simp] theorem releaseScratch_hdr (s : State) : (s.releaseScratch).hdr = s.hdr := rfl
@[simp] theorem releaseScratch_din (s : State) : (s.releaseScratch).din = s.din := rfl
@[simp] theorem releaseScratch_dout (s : State) : (s.releaseScratch).dout = s.dout := rfl
@[simp] theorem releaseScratch_rsp (s : State) : (s.releaseScratch).rsp = s.rsp := rfl
@[simp] theorem releaseScratch_drawn (s : State) : (s.releaseScratch).drawn = s.drawn + 1 := rfl

@[simp] theorem clear_config (s : State) : (s.clear).config = s.config := rfl
@[simp] theorem clear_cfgValid (s : State) : (s.clear).cfgValid = false := rfl
@[simp] theorem clear_code (s : State) : (s.clear).code = Config.freeCode s.drawn := rfl
@[simp] theorem clear_phase (s : State) : (s.clear).phase = s.phase := rfl
@[simp] theorem clear_cmd (s : State) : (s.clear).cmd = s.cmd := rfl
@[simp] theorem clear_hdr (s : State) : (s.clear).hdr = s.hdr := rfl
@[simp] theorem clear_din (s : State) : (s.clear).din = s.din := rfl
@[simp] theorem clear_dout (s : State) : (s.clear).dout = s.dout := rfl
@[simp] theorem clear_rsp (s : State) : (s.clear).rsp = s.rsp := rfl
@[simp] theorem clear_drawn (s : State) : (s.clear).drawn = s.drawn + 1 := rfl

@[simp] theorem accept_config (s : State) (h : Word) (rest : List Word) : (s.accept h rest).config = s.config := rfl
@[simp] theorem accept_cfgValid (s : State) (h : Word) (rest : List Word) : (s.accept h rest).cfgValid = s.cfgValid := rfl
@[simp] theorem accept_code (s : State) (h : Word) (rest : List Word) : (s.accept h rest).code = s.code := rfl
@[simp] theorem accept_work (s : State) (h : Word) (rest : List Word) : (s.accept h rest).work = s.work := rfl
@[simp] theorem accept_phase (s : State) (h : Word) (rest : List Word) : (s.accept h rest).phase = .check := rfl
@[simp] theorem accept_cmd (s : State) (h : Word) (rest : List Word) : (s.accept h rest).cmd = rest := rfl
@[simp] theorem accept_hdr (s : State) (h : Word) (rest : List Word) : (s.accept h rest).hdr = h := rfl
@[simp] theorem accept_din (s : State) (h : Word) (rest : List Word) : (s.accept h rest).din = s.din := rfl
@[simp] theorem accept_dout (s : State) (h : Word) (rest : List Word) : (s.accept h rest).dout = s.dout := rfl
@[simp] theorem accept_rsp (s : State) (h : Word) (rest : List Word) : (s.accept h rest).rsp = s.rsp := rfl
@[simp] theorem accept_drawn (s : State) (h : Word) (rest : List Word) : (s.accept h rest).drawn = s.drawn := rfl

@[simp] theorem offer_config (s : State) (hs : List Word) (xs : List DinItem) : (s.offer hs xs).config = s.config := rfl
@[simp] theorem offer_cfgValid (s : State) (hs : List Word) (xs : List DinItem) : (s.offer hs xs).cfgValid = s.cfgValid := rfl
@[simp] theorem offer_code (s : State) (hs : List Word) (xs : List DinItem) : (s.offer hs xs).code = s.code := rfl
@[simp] theorem offer_work (s : State) (hs : List Word) (xs : List DinItem) : (s.offer hs xs).work = s.work := rfl
@[simp] theorem offer_phase (s : State) (hs : List Word) (xs : List DinItem) : (s.offer hs xs).phase = s.phase := rfl
@[simp] theorem offer_cmd (s : State) (hs : List Word) (xs : List DinItem) : (s.offer hs xs).cmd = s.cmd ++ hs := rfl
@[simp] theorem offer_hdr (s : State) (hs : List Word) (xs : List DinItem) : (s.offer hs xs).hdr = s.hdr := rfl
@[simp] theorem offer_din (s : State) (hs : List Word) (xs : List DinItem) : (s.offer hs xs).din = s.din ++ xs := rfl
@[simp] theorem offer_dout (s : State) (hs : List Word) (xs : List DinItem) : (s.offer hs xs).dout = s.dout := rfl
@[simp] theorem offer_rsp (s : State) (hs : List Word) (xs : List DinItem) : (s.offer hs xs).rsp = s.rsp := rfl
@[simp] theorem offer_drawn (s : State) (hs : List Word) (xs : List DinItem) : (s.offer hs xs).drawn = s.drawn := rfl

@[simp] theorem clear_tr (s : State) : s.clear.work.tr = [] := rfl
@[simp] theorem clear_colcnt (s : State) : s.clear.work.colcnt = 0 := rfl

@[simp] theorem releaseScratch_encState (s : State) : s.releaseScratch.work.encState = s.work.encState := rfl
@[simp] theorem releaseScratch_packAcc (s : State) : s.releaseScratch.work.packAcc = s.work.packAcc := rfl
@[simp] theorem releaseScratch_packCnt (s : State) : s.releaseScratch.work.packCnt = s.work.packCnt := rfl
@[simp] theorem releaseScratch_pm (s : State) : s.releaseScratch.work.pm = s.work.pm := rfl
@[simp] theorem releaseScratch_tr (s : State) : s.releaseScratch.work.tr = s.work.tr := rfl
@[simp] theorem releaseScratch_colcnt (s : State) : s.releaseScratch.work.colcnt = s.work.colcnt := rfl
@[simp] theorem releaseScratch_t (s : State) : s.releaseScratch.work.t = s.work.t := rfl
@[simp] theorem releaseScratch_outOff (s : State) : s.releaseScratch.work.outOff = s.work.outOff := rfl
@[simp] theorem releaseScratch_best (s : State) : s.releaseScratch.work.best = s.work.best := rfl
@[simp] theorem releaseScratch_tbState (s : State) : s.releaseScratch.work.tbState = s.work.tbState := rfl
@[simp] theorem releaseScratch_mode (s : State) : s.releaseScratch.work.mode = s.work.mode := rfl

/-! ### The starts of the calls, field by field -/

@[simp] theorem encodeStart_encState (w : Work) : (w.encodeStart).encState = 0 := rfl
@[simp] theorem encodeStart_packAcc (w : Work) : (w.encodeStart).packAcc = w.packAcc := rfl
@[simp] theorem encodeStart_packCnt (w : Work) : (w.encodeStart).packCnt = w.packCnt := rfl
@[simp] theorem encodeStart_pm (w : Work) : (w.encodeStart).pm = w.pm := rfl
@[simp] theorem encodeStart_pmn (w : Work) : (w.encodeStart).pmn = w.pmn := rfl
@[simp] theorem encodeStart_colbuf (w : Work) : (w.encodeStart).colbuf = w.colbuf := rfl
@[simp] theorem encodeStart_tr (w : Work) : (w.encodeStart).tr = w.tr := rfl
@[simp] theorem encodeStart_colcnt (w : Work) : (w.encodeStart).colcnt = w.colcnt := rfl
@[simp] theorem encodeStart_t (w : Work) : (w.encodeStart).t = w.t := rfl
@[simp] theorem encodeStart_outOff (w : Work) : (w.encodeStart).outOff = w.outOff := rfl
@[simp] theorem encodeStart_best (w : Work) : (w.encodeStart).best = w.best := rfl
@[simp] theorem encodeStart_tbState (w : Work) : (w.encodeStart).tbState = w.tbState := rfl
@[simp] theorem encodeStart_mode (w : Work) : (w.encodeStart).mode = w.mode := rfl

@[simp] theorem packStart_encState (w : Work) : (w.packStart).encState = w.encState := rfl
@[simp] theorem packStart_packAcc (w : Work) : (w.packStart).packAcc = 0#8 := rfl
@[simp] theorem packStart_packCnt (w : Work) : (w.packStart).packCnt = 0#3 := rfl
@[simp] theorem packStart_pm (w : Work) : (w.packStart).pm = w.pm := rfl
@[simp] theorem packStart_pmn (w : Work) : (w.packStart).pmn = w.pmn := rfl
@[simp] theorem packStart_colbuf (w : Work) : (w.packStart).colbuf = w.colbuf := rfl
@[simp] theorem packStart_tr (w : Work) : (w.packStart).tr = w.tr := rfl
@[simp] theorem packStart_colcnt (w : Work) : (w.packStart).colcnt = w.colcnt := rfl
@[simp] theorem packStart_t (w : Work) : (w.packStart).t = w.t := rfl
@[simp] theorem packStart_outOff (w : Work) : (w.packStart).outOff = w.outOff := rfl
@[simp] theorem packStart_best (w : Work) : (w.packStart).best = w.best := rfl
@[simp] theorem packStart_tbState (w : Work) : (w.packStart).tbState = w.tbState := rfl
@[simp] theorem packStart_mode (w : Work) : (w.packStart).mode = w.mode := rfl

@[simp] theorem decodeStart_encState (w : Work) (c : Code) (m : Mode) : (w.decodeStart c m).encState = w.encState := rfl
@[simp] theorem decodeStart_packAcc (w : Work) (c : Code) (m : Mode) : (w.decodeStart c m).packAcc = w.packAcc := rfl
@[simp] theorem decodeStart_packCnt (w : Work) (c : Code) (m : Mode) : (w.decodeStart c m).packCnt = w.packCnt := rfl
@[simp] theorem decodeStart_pm (w : Work) (c : Code) (m : Mode) : (w.decodeStart c m).pm = startMetrics c := rfl
@[simp] theorem decodeStart_pmn (w : Work) (c : Code) (m : Mode) : (w.decodeStart c m).pmn = w.pmn := rfl
@[simp] theorem decodeStart_colbuf (w : Work) (c : Code) (m : Mode) : (w.decodeStart c m).colbuf = w.colbuf := rfl
@[simp] theorem decodeStart_tr (w : Work) (c : Code) (m : Mode) : (w.decodeStart c m).tr = [] := rfl
@[simp] theorem decodeStart_colcnt (w : Work) (c : Code) (m : Mode) : (w.decodeStart c m).colcnt = 0 := rfl
@[simp] theorem decodeStart_t (w : Work) (c : Code) (m : Mode) : (w.decodeStart c m).t = 0#24 := rfl
@[simp] theorem decodeStart_outOff (w : Work) (c : Code) (m : Mode) : (w.decodeStart c m).outOff = 0#24 := rfl
@[simp] theorem decodeStart_best (w : Work) (c : Code) (m : Mode) : (w.decodeStart c m).best = w.best := rfl
@[simp] theorem decodeStart_tbState (w : Work) (c : Code) (m : Mode) : (w.decodeStart c m).tbState = w.tbState := rfl
@[simp] theorem decodeStart_mode (w : Work) (c : Code) (m : Mode) : (w.decodeStart c m).mode = m := rfl

@[simp] theorem selectBest_encState (w : Work) (c : Code) : (selectBest c w).encState = w.encState := rfl
@[simp] theorem selectBest_packAcc (w : Work) (c : Code) : (selectBest c w).packAcc = w.packAcc := rfl
@[simp] theorem selectBest_packCnt (w : Work) (c : Code) : (selectBest c w).packCnt = w.packCnt := rfl
@[simp] theorem selectBest_pm (w : Work) (c : Code) : (selectBest c w).pm = w.pm := rfl
@[simp] theorem selectBest_pmn (w : Work) (c : Code) : (selectBest c w).pmn = w.pmn := rfl
@[simp] theorem selectBest_colbuf (w : Work) (c : Code) : (selectBest c w).colbuf = w.colbuf := rfl
@[simp] theorem selectBest_tr (w : Work) (c : Code) : (selectBest c w).tr = w.tr := rfl
@[simp] theorem selectBest_colcnt (w : Work) (c : Code) : (selectBest c w).colcnt = w.colcnt := rfl
@[simp] theorem selectBest_t (w : Work) (c : Code) : (selectBest c w).t = w.t := rfl
@[simp] theorem selectBest_outOff (w : Work) (c : Code) : (selectBest c w).outOff = w.outOff := rfl
@[simp] theorem selectBest_best (w : Work) (c : Code) : (selectBest c w).best = bestState c w.pm := rfl
@[simp] theorem selectBest_tbState (w : Work) (c : Code) : (selectBest c w).tbState = bestState c w.pm := rfl
@[simp] theorem selectBest_mode (w : Work) (c : Code) : (selectBest c w).mode = w.mode := rfl

/-! ### The column step and the traceback step, field by field -/

@[simp] theorem colStep_encState (c : Code) (r : Symbol) (w : Work) : (colStep c r w).encState = w.encState := rfl
@[simp] theorem colStep_packAcc (c : Code) (r : Symbol) (w : Work) : (colStep c r w).packAcc = w.packAcc := rfl
@[simp] theorem colStep_packCnt (c : Code) (r : Symbol) (w : Work) : (colStep c r w).packCnt = w.packCnt := rfl
@[simp] theorem colStep_outOff (c : Code) (r : Symbol) (w : Work) : (colStep c r w).outOff = w.outOff := rfl
@[simp] theorem colStep_best (c : Code) (r : Symbol) (w : Work) : (colStep c r w).best = w.best := rfl
@[simp] theorem colStep_tbState (c : Code) (r : Symbol) (w : Work) : (colStep c r w).tbState = w.tbState := rfl
@[simp] theorem colStep_mode (c : Code) (r : Symbol) (w : Work) : (colStep c r w).mode = w.mode := rfl
@[simp] theorem colStep_colcnt (c : Code) (r : Symbol) (w : Work) : (colStep c r w).colcnt = w.colcnt + 1 := rfl
@[simp] theorem colStep_t (c : Code) (r : Symbol) (w : Work) : (colStep c r w).t = w.t + 1#24 := rfl
@[simp] theorem colStep_pm (c : Code) (r : Symbol) (w : Work) : (colStep c r w).pm = ((List.range c.nStates).map (acs c w.pm r)).map Prod.fst := rfl
@[simp] theorem colStep_tr (c : Code) (r : Symbol) (w : Work) : (colStep c r w).tr = w.tr ++ [((List.range c.nStates).map (acs c w.pm r)).map Prod.snd] := rfl

@[simp] theorem tbStep_encState (c : Code) (w : Work) : (tbStep c w).2.encState = w.encState := rfl
@[simp] theorem tbStep_packAcc (c : Code) (w : Work) : (tbStep c w).2.packAcc = w.packAcc := rfl
@[simp] theorem tbStep_packCnt (c : Code) (w : Work) : (tbStep c w).2.packCnt = w.packCnt := rfl
@[simp] theorem tbStep_pm (c : Code) (w : Work) : (tbStep c w).2.pm = w.pm := rfl
@[simp] theorem tbStep_pmn (c : Code) (w : Work) : (tbStep c w).2.pmn = w.pmn := rfl
@[simp] theorem tbStep_colbuf (c : Code) (w : Work) : (tbStep c w).2.colbuf = w.colbuf := rfl
@[simp] theorem tbStep_tr (c : Code) (w : Work) : (tbStep c w).2.tr = w.tr.take (w.colcnt - 1) := rfl
@[simp] theorem tbStep_colcnt (c : Code) (w : Work) : (tbStep c w).2.colcnt = w.colcnt - 1 := rfl
@[simp] theorem tbStep_t (c : Code) (w : Work) : (tbStep c w).2.t = w.t := rfl
@[simp] theorem tbStep_outOff (c : Code) (w : Work) : (tbStep c w).2.outOff = w.outOff := rfl
@[simp] theorem tbStep_best (c : Code) (w : Work) : (tbStep c w).2.best = w.best := rfl
@[simp] theorem tbStep_tbState (c : Code) (w : Work) : (tbStep c w).2.tbState = readTrellis w.tr (w.colcnt - 1) w.tbState := rfl
@[simp] theorem tbStep_mode (c : Code) (w : Work) : (tbStep c w).2.mode = w.mode := rfl
@[simp] theorem tbStep_bit (c : Code) (w : Work) : (tbStep c w).1 = inbit c.kVal w.tbState := rfl

end Sys2Proof.Machine
end

