-- ==== Sys2Proof/Laws/Ops.lean ====
section
/-! SUPPORT. The shared operations, each said once: taking DIN items, running a command over them, the exceptions. -/

namespace Sys2Proof.Machine

/-! ### Taking DIN items (R95) -/

section
variable {α : Type} {view : DinItem → Option α} {mk : α → DinItem}

/-- Items of the right size, all supplied: they are taken, in order. -/
theorem takeItems_supplied (hv : ∀ a, view (mk a) = some a) (xs : List α) (rest : List DinItem) :
    takeItems view xs.length (xs.map mk ++ rest) = .got xs rest := by
  induction xs with
  | nil => rfl
  | cons a xs ih => simp [takeItems, hv, ih]

/-- Items of the right size, too few of them: starved. -/
theorem takeItems_starved (hv : ∀ a, view (mk a) = some a) (xs : List α) (n : Nat) (h : xs.length < n) :
    takeItems view n (xs.map mk) = .starved := by
  induction xs generalizing n with
  | nil => cases n with
    | zero => simp at h
    | succ n => rfl
  | cons a xs ih => cases n with
    | zero => simp at h
    | succ n => simp [takeItems, hv, ih n (by simpa using h)]

/-- An item of another size among those a command owns: no meaning. -/
theorem takeItems_mismatch (hv : ∀ a, view (mk a) = some a) (xs : List α) (n : Nat) (x : DinItem)
    (rest : List DinItem) (h : xs.length < n) (hx : view x = none) :
    takeItems view n (xs.map mk ++ x :: rest) = .mismatch := by
  induction xs generalizing n with
  | nil => cases n with
    | zero => simp at h
    | succ n => simp [takeItems, hx]
  | cons a xs ih => cases n with
    | zero => simp at h
    | succ n => simp [takeItems, hv, ih n (by simpa using h)]

/-- What was taken stood first on DIN, `n` items of the right size; the rest is left. -/
theorem takeItems_got {n : Nat} {din : List DinItem} {xs : List α} {rest : List DinItem}
    (h : takeItems view n din = .got xs rest) :
    xs.length = n ∧ ∃ taken, din = taken ++ rest ∧ taken.map view = xs.map some := by
  induction n generalizing din xs with
  | zero => simp only [takeItems, Taken.got.injEq] at h; exact ⟨by simp [← h.1], [], by simp [h.2], by simp [← h.1]⟩
  | succ n ih =>
    cases din with
    | nil => simp [takeItems] at h
    | cons y din =>
      simp only [takeItems] at h
      split at h
      · simp at h
      · rename_i a hy
        split at h
        · rename_i ys r hr
          simp only [Taken.got.injEq] at h
          obtain ⟨rfl, rfl⟩ := h
          obtain ⟨h1, pre, h2, h3⟩ := ih hr
          exact ⟨by simp [h1], y :: pre, by simp [h2], by simp [hy, h3]⟩
        · simp at h
        · simp at h

/-- Everything a command over DIN items can do: complete over the items taken, wait, or be refused. -/
theorem withItems_cases {s : State} {n : Nat} {go : List α → State → State} :
    (∃ xs rest, takeItems view n s.din = .got xs rest ∧ s.withItems view n go = .next (go xs { s with din := rest })) ∨
    (takeItems view n s.din = .starved ∧ s.withItems view n go = .next s.wait) ∨
    (takeItems view n s.din = .mismatch ∧ s.withItems view n go = .refused .dinItemSize) := by
  unfold State.withItems
  cases h : takeItems view n s.din with
  | got xs rest => exact .inl ⟨xs, rest, rfl, rfl⟩
  | starved => exact .inr (.inl ⟨rfl, rfl⟩)
  | mismatch => exact .inr (.inr ⟨rfl, rfl⟩)

/-- A command whose items are supplied completes. -/
theorem withItems_supplied (hv : ∀ a, view (mk a) = some a) {s : State} {xs : List α} {rest : List DinItem}
    {n : Nat} (hn : xs.length = n) (hd : s.din = xs.map mk ++ rest) (go : List α → State → State) :
    s.withItems view n go = .next (go xs { s with din := rest }) := by
  subst hn; unfold State.withItems; rw [hd, takeItems_supplied hv]

/-- A command whose items have not all arrived waits. -/
theorem withItems_starved (hv : ∀ a, view (mk a) = some a) {s : State} {xs : List α} {n : Nat} (h : xs.length < n)
    (hd : s.din = xs.map mk) (go : List α → State → State) : s.withItems view n go = .next s.wait := by
  unfold State.withItems; rw [hd, takeItems_starved hv xs n h]

/-- A command one of whose items has another size is refused. -/
theorem withItems_mismatch (hv : ∀ a, view (mk a) = some a) {s : State} {xs : List α} {n : Nat} {x : DinItem}
    {rest : List DinItem} (h : xs.length < n) (hd : s.din = xs.map mk ++ x :: rest) (hx : view x = none)
    (go : List α → State → State) : s.withItems view n go = .refused .dinItemSize := by
  unfold State.withItems; rw [hd, takeItems_mismatch hv xs n x rest h hx]

/-- A command that answers a next state either completed or waits. -/
theorem withItems_next {s t : State} {n : Nat} {go : List α → State → State}
    (h : s.withItems view n go = .next t) :
    (∃ xs rest, takeItems view n s.din = .got xs rest ∧ t = go xs { s with din := rest }) ∨
    (takeItems view n s.din = .starved ∧ t = s.wait) := by
  rcases withItems_cases (s := s) (n := n) (go := go) (view := view) with ⟨xs, rest, h1, h2⟩ | ⟨h1, h2⟩ | ⟨h1, h2⟩
  · rw [h2] at h; exact .inl ⟨xs, rest, h1, (Host.Outcome.next.inj h).symm⟩
  · rw [h2] at h; exact .inr ⟨h1, (Host.Outcome.next.inj h).symm⟩
  · rw [h2] at h; cases h

end

@[simp] theorem asWord_word (w : Word) : (DinItem.word w).asWord = some w := rfl
@[simp] theorem asBit_bit (b : Bool) : (DinItem.bit b).asBit = some b := rfl
@[simp] theorem asByte_byte (b : Byte) : (DinItem.byte b).asByte = some b := rfl

/-! ### Exceptions (R226 to R228) -/

@[simp] theorem raise_invalidInput (s : State) : s.raise .invalidInput = s.respond .errInput := rfl
@[simp] theorem raise_invalidCommand (s : State) : s.raise .invalidCommand = s.respond .errCmd := rfl
theorem raise_invalidParameter (s : State) :
    s.raise .invalidParameter =
      { s with
        cfgValid := false, code := Config.freeCode s.drawn, drawn := s.drawn + 1,
        rsp := s.rsp ++ [.errParam], phase := .idle } := rfl

/-! ### Constants and reads -/

@[simp] theorem numStates_eq (k : Nat) : numStates k = 2 ^ (k - 1) := by simp [numStates, Nat.shiftLeft_eq]
theorem stateMask_eq (k : Nat) : stateMask k = 2 ^ (k - 1) - 1 := by simp [stateMask]
@[simp] theorem nStates_eq (c : Code) : c.nStates = 2 ^ (c.kVal - 1) := by simp [Code.nStates]
theorem kVal_lt (c : Code) : c.kVal < 32 := c.k.isLt
theorem pVal_lt (c : Code) : c.pVal < 256 := c.p.isLt

theorem configured_kVal {k : Nat} (h : k < 32) (pf : Nat) (g : List Word) : (configured k pf g).kVal = k := by
  simp [configured, Code.kVal, Nat.mod_eq_of_lt h]
theorem configured_pVal {pf : Nat} (h : pf < 256) (k : Nat) (g : List Word) : (configured k pf g).pVal = pf := by
  simp [configured, Code.pVal, Nat.mod_eq_of_lt h]

/-- The parameter check says conditions (a) to (f) of R124. -/
theorem paramsOk_iff {config : Config} {k pf : Nat} {g : List Word} :
    paramsOk config k pf g = true ↔
      2 ≤ k ∧ k ≤ config.kMax.val ∧ 1 ≤ pf ∧ pf ≤ config.pMax.val ∧ ∀ x ∈ g, x.toNat ≠ 0 ∧ x.toNat < 2 ^ k := by
  simp [paramsOk, polyOk, and_assoc]

/-- The configuration a successful CFG leaves is one of the invariant's. -/
theorem configured_ok {config : Config} {k : Nat} {g : List Word} (h : paramsOk config k g.length g = true) :
    (configured k g.length g).Ok config := by
  obtain ⟨h1, h2, h3, h4, h5⟩ := paramsOk_iff.mp h
  have hk : (configured k g.length g).kVal = k := configured_kVal (by omega) _ _
  have hp : (configured k g.length g).pVal = g.length := configured_pVal (by omega) _ _
  exact ⟨by rw [hk, hp]; exact h, hp.symm, by rw [hk]; rfl⟩

namespace Code.Ok

variable {config : Config} {c : Code}

theorem two_le (h : c.Ok config) : 2 ≤ c.kVal := (paramsOk_iff.mp h.params).1
theorem le_kMax (h : c.Ok config) : c.kVal ≤ config.kMax.val := (paramsOk_iff.mp h.params).2.1
theorem one_le (h : c.Ok config) : 1 ≤ c.pVal := (paramsOk_iff.mp h.params).2.2.1
theorem poly (h : c.Ok config) : ∀ x ∈ c.g, x.toNat ≠ 0 ∧ x.toNat < 2 ^ c.kVal := (paramsOk_iff.mp h.params).2.2.2.2

end Code.Ok

/-- A decode of n symbols that fits one window fits D_MAX (R203). -/
theorem fits_of_le {config : Config} {m n : Nat} (h : config.fits n = true) (hmn : m ≤ n) : config.fits m = true := by
  unfold Config.fits at *
  split at h <;> simp_all
  omega

end Sys2Proof.Machine
end

