-- ==== Sys2Proof/Laws/Operands.lean ====
section
/-! SUPPORT. How symbols and bytes are cut from the operands of a command. -/

namespace Sys2Proof.Machine

theorem byteCount_add_eight (n : Nat) : byteCount (8 + n) = byteCount n + 1 := by unfold byteCount; omega

@[simp] theorem bitsOf_length (bytes : List Byte) (n : Nat) : (bitsOf bytes n).length = n := by simp [bitsOf]

/-! ### Symbols (R68) -/

@[simp] theorem symbols_length (p n : Nat) (r : List Bool) : (symbols p n r).length = n := by
  induction n generalizing r with
  | zero => rfl
  | succ n ih => simp [symbols, ih]

/-- Every symbol of a long enough sequence has p bits. -/
theorem symbols_width {p n : Nat} {r : List Bool} (h : n * p ≤ r.length) : ∀ x ∈ symbols p n r, x.length = p := by
  induction n generalizing r with
  | zero => simp [symbols]
  | succ n ih =>
    rw [Nat.add_mul, Nat.one_mul] at h
    intro x hx
    rcases List.mem_cons.mp hx with rfl | hx
    · rw [List.length_take]; omega
    · exact ih (r := r.drop p) (by rw [List.length_drop]; omega) x hx

/-- The symbols of a sequence, put together, are the sequence. -/
theorem symbols_flatten {p n : Nat} {r : List Bool} (h : n * p = r.length) : (symbols p n r).flatten = r := by
  induction n generalizing r with
  | zero => simp at h; simp [symbols, List.length_eq_zero_iff.mp h.symm]
  | succ n ih =>
    rw [Nat.add_mul, Nat.one_mul] at h
    rw [symbols, List.flatten_cons, ih (by rw [List.length_drop]; omega), List.take_append_drop]

/-- A sequence cut where a symbol ends. -/
theorem symbols_append {p a : Nat} (b : Nat) {r : List Bool} (q : List Bool) (h : a * p = r.length) :
    symbols p (a + b) (r ++ q) = symbols p a r ++ symbols p b q := by
  induction a generalizing r with
  | zero => simp at h; simp [symbols, List.length_eq_zero_iff.mp h.symm]
  | succ a ih =>
    rw [Nat.add_mul, Nat.one_mul] at h
    rw [Nat.add_right_comm, symbols, symbols, List.take_append_of_le_length (by omega),
      List.drop_append_of_le_length (by omega), ih (by rw [List.length_drop]; omega), List.cons_append]

end Sys2Proof.Machine
end

