-- ==== Sys2Proof/Laws/Table.lean ====
section
/-! SUPPORT. The trellis' arithmetic and the transition table: composite index, next state, predecessors, bit reversal,
rows. -/

namespace Sys2Proof.Machine

/-! ### XOR over a range -/

@[simp] theorem xorOver_zero (f : Nat → Bool) : xorOver 0 f = false := rfl

theorem xorOver_succ (n : Nat) (f : Nat → Bool) : xorOver (n + 1) f = (xorOver n f ^^ f n) := by
  simp [xorOver, List.range_succ]

theorem xorOver_congr {n : Nat} {f g : Nat → Bool} (h : ∀ m, m < n → f m = g m) : xorOver n f = xorOver n g := by
  induction n with
  | zero => rfl
  | succ n ih => rw [xorOver_succ, xorOver_succ, ih fun m hm => h m (by omega), h n (by omega)]

theorem xorOver_false (n : Nat) : xorOver n (fun _ => false) = false := by
  induction n with
  | zero => rfl
  | succ n ih => rw [xorOver_succ, ih]; rfl

theorem xorOver_xor (n : Nat) (f g : Nat → Bool) :
    xorOver n (fun m => f m ^^ g m) = (xorOver n f ^^ xorOver n g) := by
  induction n with
  | zero => rfl
  | succ n ih => simp only [xorOver_succ, ih]; cases xorOver n f <;> cases xorOver n g <;> cases f n <;> cases g n <;> rfl

/-- The first term taken out. -/
theorem xorOver_succ' (n : Nat) (f : Nat → Bool) : xorOver (n + 1) f = (f 0 ^^ xorOver n fun m => f (m + 1)) := by
  induction n with
  | zero => simp [xorOver_succ]
  | succ n ih => rw [xorOver_succ, ih, xorOver_succ n, Bool.xor_assoc]

/-- The order of the terms is free. -/
theorem xorOver_reverse (n : Nat) (f : Nat → Bool) : xorOver n f = xorOver n fun m => f (n - 1 - m) := by
  induction n generalizing f with
  | zero => rfl
  | succ n ih =>
    rw [xorOver_succ, xorOver_succ' n fun m => f (n + 1 - 1 - m), ih f, Bool.xor_comm]
    congr 1
    exact xorOver_congr fun m hm => by congr 1; omega

/-- XOR over a range is the parity of the number of true terms (R123). -/
theorem xorOver_eq_countP (n : Nat) (f : Nat → Bool) :
    xorOver n f = decide ((List.range n).countP f % 2 = 1) := by
  induction n with
  | zero => rfl
  | succ n ih =>
    rw [xorOver_succ, ih, List.range_succ, List.countP_append]
    rcases Nat.mod_two_eq_zero_or_one ((List.range n).countP f) with h | h <;>
      cases hf : f n <;> simp [hf, h, Nat.add_mod]

/-! ### Bit reversal (R101, R122) -/

/-- After the bits below n of g have been placed, bit j of the sum is bit k-1-j of g, for the places filled so far. -/
theorem revSum_testBit (k g n : Nat) (hn : n ≤ k) :
    let a := (List.range n).foldl (fun acc m => acc + (((g >>> m) &&& 1) <<< (k - 1 - m))) 0
    2 ^ (k - n) ∣ a ∧ ∀ j, a.testBit j = (decide (k - n ≤ j) && decide (j < k) && g.testBit (k - 1 - j)) := by
  induction n with
  | zero =>
    refine ⟨by simp, fun j => ?_⟩
    by_cases h : j < k <;> simp [h]
  | succ n ih =>
    obtain ⟨⟨q, hq⟩, hb⟩ := ih (by omega)
    simp only [List.range_succ, List.foldl_append, List.foldl_cons, List.foldl_nil] at hq hb ⊢
    generalize ha : (List.range n).foldl (fun acc m => acc + (((g >>> m) &&& 1) <<< (k - 1 - m))) 0 = a at hq hb ⊢
    have hv : ((g >>> n) &&& 1) = (g.testBit n).toNat := by
      simp only [Nat.testBit]; rw [Nat.and_comm]
      rcases Nat.mod_two_eq_zero_or_one (g >>> n) with h | h <;> simp [Nat.one_and_eq_mod_two, h]
    have hp : 2 ^ (k - n) = 2 * 2 ^ (k - 1 - n) := by
      rw [show k - n = (k - 1 - n) + 1 by omega, Nat.pow_succ]; ring
    have hlt : (g.testBit n).toNat <<< (k - 1 - n) < 2 ^ (k - n) := by
      rw [Nat.shiftLeft_eq, hp]; have := Nat.two_pow_pos (k - 1 - n); cases g.testBit n <;> simp
    have hor : a + (g.testBit n).toNat <<< (k - 1 - n) = a ||| (g.testBit n).toNat <<< (k - 1 - n) := by
      rw [hq]; exact Nat.two_pow_add_eq_or_of_lt hlt q
    rw [hv]
    refine ⟨?_, fun j => ?_⟩
    · rw [hq, hp, Nat.shiftLeft_eq, show k - (n + 1) = k - 1 - n by omega]
      exact Dvd.intro (2 * q + (g.testBit n).toNat) (by ring)
    · rw [hor, Nat.testBit_or, hb, Nat.testBit_shiftLeft]
      by_cases hj : j = k - 1 - n
      · subst hj
        have e1 : k - 1 - (k - 1 - n) = n := by omega
        have e2 : ¬ k - n ≤ k - 1 - n := by omega
        have e3 : k - (n + 1) ≤ k - 1 - n := by omega
        have e4 : k - 1 - n < k := by omega
        simp [e1, e2, e3, e4]
        cases g.testBit n <;> simp
      · have e1 : (g.testBit n).toNat.testBit (j - (k - 1 - n)) = false ∨ ¬ k - 1 - n ≤ j := by
          by_cases hle : k - 1 - n ≤ j
          · left
            obtain ⟨d, hd⟩ : ∃ d, j - (k - 1 - n) = d + 1 := ⟨j - (k - 1 - n) - 1, by omega⟩
            rw [hd]; cases g.testBit n <;> simp [Nat.testBit_succ]
          · exact .inr hle
        have e2 : decide (k - (n + 1) ≤ j) = decide (k - n ≤ j) := by
          simp only [decide_eq_decide]; omega
        rw [e2]
        rcases e1 with e1 | e1 <;> simp [e1]

/-- Bit j of rev_K(g) is bit K-1-j of g (R101). -/
theorem testBit_revK (k g j : Nat) : (revK k g).testBit j = (decide (j < k) && g.testBit (k - 1 - j)) := by
  have h := (revSum_testBit k g k (Nat.le_refl k)).2 j
  simpa [revK] using h

theorem revK_lt (k g : Nat) : revK k g < 2 ^ k :=
  Nat.lt_pow_two_of_testBit _ fun j hj => by simp [testBit_revK, Nat.not_lt.mpr hj]

/-! ### Index, next state, predecessors -/

theorem testBit_toNat (b : Bool) (j : Nat) : b.toNat.testBit j = (decide (j = 0) && b) := by
  cases b <;> cases j <;> simp [Nat.testBit_succ]

theorem testBit_idx {k : Nat} (hk : 1 ≤ k) {s : Nat} (hs : s < 2 ^ (k - 1)) (b : Bool) (j : Nat) :
    (idx k s b).testBit j = if j = k - 1 then b else s.testBit j := by
  rw [idx, Nat.testBit_or, Nat.testBit_shiftLeft, testBit_toNat]
  by_cases hj : j = k - 1
  · subst hj; simp [Nat.testBit_lt_two_pow hs]
  · by_cases hlt : k - 1 ≤ j
    · have : ¬ j - (k - 1) = 0 := by omega
      simp [hj, this]
    · simp [hj, hlt]

/-- The composite index as a number: the input bit weighs 2^(K-1) (R61). -/
theorem idx_eq {k s : Nat} (hs : s < 2 ^ (k - 1)) (b : Bool) : idx k s b = s + b.toNat * 2 ^ (k - 1) := by
  have := Nat.two_pow_add_eq_or_of_lt hs b.toNat
  rw [idx, Nat.shiftLeft_eq, Nat.or_comm, Nat.mul_comm b.toNat, ← this]; ring

theorem idx_lt {k s : Nat} (hk : 1 ≤ k) (hs : s < 2 ^ (k - 1)) (b : Bool) : idx k s b < 2 ^ k := by
  have : 2 ^ k = 2 * 2 ^ (k - 1) := by rw [show k = (k - 1) + 1 by omega, Nat.pow_succ]; simp; ring
  rw [idx_eq hs]; cases b <;> simp; all_goals omega

/-- The inverse of the composite index: the bit on top (R100). -/
theorem idx_shiftRight {k s : Nat} (hs : s < 2 ^ (k - 1)) (b : Bool) : idx k s b >>> (k - 1) = b.toNat := by
  rw [idx_eq hs, Nat.shiftRight_eq_div_pow, Nat.add_mul_div_right _ _ (Nat.two_pow_pos _), Nat.div_eq_of_lt hs,
    Nat.zero_add]

/-- The inverse of the composite index: the state below (R100). -/
theorem idx_and_mask {k s : Nat} (hs : s < 2 ^ (k - 1)) (b : Bool) : idx k s b &&& stateMask k = s := by
  rw [idx_eq hs, stateMask_eq, Nat.and_two_pow_sub_one_eq_mod, Nat.add_mul_mod_self_right, Nat.mod_eq_of_lt hs]

theorem pow_pred {k : Nat} (hk : 2 ≤ k) : 2 ^ (k - 1) = 2 * 2 ^ (k - 2) := by
  rw [show k - 1 = (k - 2) + 1 by omega, Nat.pow_succ]; ring

/-- The next state as a number: the oldest bit falls off, the new bit weighs 2^(K-2) (R140). -/
theorem nextState_eq {k s : Nat} (hk : 2 ≤ k) (hs : s < 2 ^ (k - 1)) (b : Bool) :
    nextState k s b = s / 2 + b.toNat * 2 ^ (k - 2) := by
  rw [nextState, idx_eq hs, Nat.shiftRight_eq_div_pow, pow_pred hk]
  cases b <;> simp
  omega

theorem nextState_lt {k s : Nat} (hk : 2 ≤ k) (hs : s < 2 ^ (k - 1)) (b : Bool) : nextState k s b < 2 ^ (k - 1) := by
  rw [nextState_eq hk hs]; rw [pow_pred hk] at *; cases b <;> simp <;> omega

theorem inbit_eq_testBit (k s : Nat) : inbit k s = s.testBit (k - 2) := by
  simp [inbit]

/-- The input bit of a state: whether it lies in the upper half (R160). -/
theorem inbit_eq {k s : Nat} (hk : 2 ≤ k) (hs : s < 2 ^ (k - 1)) : inbit k s = decide (2 ^ (k - 2) ≤ s) := by
  rw [pow_pred hk] at hs
  rw [inbit, Nat.shiftRight_eq_div_pow, Nat.testBit_zero]
  have hp := Nat.two_pow_pos (k - 2)
  have h2 : s / 2 ^ (k - 2) < 2 := (Nat.div_lt_iff_lt_mul hp).mpr hs
  by_cases h : 2 ^ (k - 2) ≤ s
  · have : 1 ≤ s / 2 ^ (k - 2) := (Nat.one_le_div_iff hp).mpr h
    simp [h]; omega
  · have : s / 2 ^ (k - 2) = 0 := Nat.div_eq_of_lt (by omega)
    simp [h, this]

/-- The predecessors as numbers (R161). -/
theorem pred_eq (k s : Nat) (x : Bool) (hk : 2 ≤ k) : pred k s x = 2 * s % 2 ^ (k - 1) + x.toNat := by
  have h1 : (s <<< 1) &&& stateMask k = 2 * s % 2 ^ (k - 1) := by
    rw [stateMask_eq, Nat.and_two_pow_sub_one_eq_mod, Nat.shiftLeft_eq]; congr 1; ring
  have h2 : 2 * s % 2 ^ (k - 1) = 2 ^ 1 * (s % 2 ^ (k - 2)) := by
    rw [pow_pred hk, Nat.mul_mod_mul_left]; ring
  rw [pred, h1, h2]
  exact (Nat.two_pow_add_eq_or_of_lt (by cases x <;> simp) _).symm

theorem pred_lt {k s : Nat} (x : Bool) (hk : 2 ≤ k) : pred k s x < 2 ^ (k - 1) := by
  have h := Nat.mod_lt s (Nat.two_pow_pos (k - 2))
  rw [pred_eq _ _ _ hk, pow_pred hk, Nat.mul_mod_mul_left]
  cases x <;> simp <;> omega

/-- The states p with next(p, b) = s are the two predecessors of s, and b is the input bit of s (R160, R161). -/
theorem nextState_eq_iff {k s p : Nat} (hk : 2 ≤ k) (hs : s < 2 ^ (k - 1)) (hp : p < 2 ^ (k - 1)) (b : Bool) :
    nextState k p b = s ↔ b = inbit k s ∧ (p = pred k s false ∨ p = pred k s true) := by
  rw [nextState_eq hk hp, inbit_eq hk hs, pred_eq _ _ _ hk, pred_eq _ _ _ hk]
  rw [pow_pred hk] at *
  have hm : 2 * s % (2 * 2 ^ (k - 2)) = 2 * (if 2 ^ (k - 2) ≤ s then s - 2 ^ (k - 2) else s) := by
    rw [Nat.mul_mod_mul_left]
    split
    · rw [Nat.mod_eq_sub_mod (by assumption), Nat.mod_eq_of_lt (by omega)]
    · rw [Nat.mod_eq_of_lt (by omega)]
  rw [hm]
  by_cases h : 2 ^ (k - 2) ≤ s <;> cases b <;> simp [h] <;> omega

/-- From a predecessor, the input bit of s leads to s. -/
theorem nextState_pred {k s : Nat} (hk : 2 ≤ k) (hs : s < 2 ^ (k - 1)) (x : Bool) :
    nextState k (pred k s x) (inbit k s) = s :=
  (nextState_eq_iff hk hs (pred_lt x hk) _).mpr ⟨rfl, by cases x <;> simp⟩

/-! ### The table (R125, R126) -/

/-- row(i)[j] as the XOR of the tapped bits of the index (R125). -/
theorem rowBit_revK (k i g : Nat) :
    rowBit k i (revK k g) = xorOver k fun m => i.testBit m && g.testBit (k - 1 - m) := by
  rw [rowBit, parity]
  exact xorOver_congr fun m hm => by simp [Nat.testBit_and, testBit_revK, hm]

/-- The same with the bits of the polynomial in ascending order: bit m of g taps the input of m steps ago (R101). -/
theorem rowBit_revK' (k i g : Nat) :
    rowBit k i (revK k g) = xorOver k fun m => g.testBit m && i.testBit (k - 1 - m) := by
  rw [rowBit_revK, xorOver_reverse]
  exact xorOver_congr fun m hm => by rw [Bool.and_comm]; congr 2; omega

theorem buildTable_length (k : Nat) (g : List Word) : (buildTable k g).length = 2 ^ k := by simp [buildTable]

/-- Row i of a configuration's table (R40). -/
theorem Code.Ok.readRow_eq {config : Config} {c : Code} (h : c.Ok config) {i : Nat} (hi : i < 2 ^ c.kVal) :
    c.readRow i = c.g.map fun gj => rowBit c.kVal i (revK c.kVal gj.toNat) := by
  simp [Code.readRow, h.table, buildTable, List.getD, hi]

theorem Code.Ok.readRow_length {config : Config} {c : Code} (h : c.Ok config) {i : Nat} (hi : i < 2 ^ c.kVal) :
    (c.readRow i).length = c.pVal := by
  rw [h.readRow_eq hi, List.length_map, h.count]

end Sys2Proof.Machine
end

