-- ==== Sys2Proof/Laws/Encoder.lean ====
section
/-! SUPPORT. The encoder's loop: its output is the convolution of the input, its end state the last inputs. -/

namespace Sys2Proof.Machine

@[simp] theorem encodeBits_nil (c : Code) (w : Work) : encodeBits c [] w = ([], w) := rfl

theorem encodeBits_cons (c : Code) (b : Bool) (xs : List Bool) (w : Work) :
    encodeBits c (b :: xs) w =
      (c.readRow (idx c.kVal w.encState b) ++
          (encodeBits c xs { w with encState := nextState c.kVal w.encState b }).1,
        (encodeBits c xs { w with encState := nextState c.kVal w.encState b }).2) := rfl

/-- The encoder changes ENC_STATE alone, and shifts the input through it (R141). -/
theorem encodeBits_work (c : Code) (xs : List Bool) (w : Work) :
    (encodeBits c xs w).2 = { w with encState := xs.foldl (nextState c.kVal) w.encState } := by
  induction xs generalizing w with
  | nil => rfl
  | cons b xs ih => rw [encodeBits_cons, ih]; rfl

/-- The output depends on the working state through ENC_STATE alone (R262). -/
theorem encodeBits_out_congr (c : Code) (xs : List Bool) {w w' : Work} (h : w.encState = w'.encState) :
    (encodeBits c xs w).1 = (encodeBits c xs w').1 := by
  induction xs generalizing w w' with
  | nil => rfl
  | cons b xs ih =>
    rw [encodeBits_cons, encodeBits_cons, h]
    exact congrArg (c.readRow (idx c.kVal w'.encState b) ++ ·) (ih rfl)

/-! ### The state as the last inputs (R27) -/

@[simp] theorem endState_nil (k : Nat) : endState k [] = 0 := rfl

theorem endState_append_singleton (k : Nat) (x : List Bool) (b : Bool) :
    endState k (x ++ [b]) = nextState k (endState k x) b := by simp [endState]

theorem endState_lt {k : Nat} (hk : 2 ≤ k) (x : List Bool) : endState k x < 2 ^ (k - 1) := by
  induction x using List.reverseRecOn with
  | nil => exact Nat.two_pow_pos _
  | append_singleton x b ih => rw [endState_append_singleton]; exact nextState_lt hk ih b

theorem testBit_nextState {k s : Nat} (hk : 2 ≤ k) (hs : s < 2 ^ (k - 1)) (b : Bool) (j : Nat) :
    (nextState k s b).testBit j = if j = k - 2 then b else s.testBit (j + 1) := by
  rw [nextState, Nat.testBit_shiftRight, testBit_idx (by omega) hs, Nat.add_comm 1 j]
  have : j + 1 = k - 1 ↔ j = k - 2 := by omega
  simp [this]

theorem inputBefore_append_left (x y : List Bool) {t : Nat} (m : Nat) (ht : t < x.length) :
    inputBefore (x ++ y) t m = inputBefore x t m := by
  have h : t - m < x.length := by omega
  simp [inputBefore, List.getD, List.getElem?_append_left h]

theorem inputBefore_append_succ (x : List Bool) (b : Bool) (y : List Bool) (m : Nat) :
    inputBefore (x ++ b :: y) x.length (m + 1) = inputBefore x x.length (m + 1) := by
  unfold inputBefore
  by_cases h : m + 1 ≤ x.length
  · have h' : x.length - (m + 1) < x.length := by omega
    simp [h, List.getD, List.getElem?_append_left h']
  · simp [h]

theorem inputBefore_here (x : List Bool) (b : Bool) (y : List Bool) : inputBefore (x ++ b :: y) x.length 0 = b := by
  simp [inputBefore, List.getD]

theorem inputBefore_snoc (x : List Bool) (b : Bool) (m : Nat) :
    inputBefore (x ++ [b]) (x.length + 1) (m + 1) = inputBefore (x ++ [b]) x.length m := by
  simp [inputBefore]

/-- Bit K-2-m of the end state is the input of m+1 steps before (R27, R142). -/
theorem testBit_endState {k : Nat} (hk : 2 ≤ k) (x : List Bool) (m : Nat) (hm : m < k - 1) :
    (endState k x).testBit (k - 2 - m) = inputBefore x x.length (m + 1) := by
  induction x using List.reverseRecOn generalizing m with
  | nil => simp [inputBefore]
  | append_singleton x b ih =>
    rw [endState_append_singleton, testBit_nextState hk (endState_lt hk x), List.length_append,
      List.length_singleton, inputBefore_snoc]
    cases m with
    | zero => simp [inputBefore_here]
    | succ m =>
      have h1 : ¬ k - 2 - (m + 1) = k - 2 := by omega
      have h2 : k - 2 - (m + 1) + 1 = k - 2 - m := by omega
      rw [if_neg h1, h2, ih m (by omega), inputBefore_append_succ]

/-! ### Rows as taps of the input (R125) -/

/-- The row read in the state after x with input b is the convolution at that step. -/
theorem Code.Ok.readRow_idx {config : Config} {c : Code} (h : c.Ok config) (x : List Bool) (b : Bool)
    (y : List Bool) :
    c.readRow (idx c.kVal (endState c.kVal x) b) =
      c.g.map fun gj => tapSum c.kVal gj.toNat (x ++ b :: y) x.length := by
  have hk := h.two_le
  have hs := endState_lt hk x
  rw [h.readRow_eq (idx_lt (by omega) hs b)]
  refine List.map_congr_left fun gj _ => ?_
  rw [rowBit_revK', tapSum]
  refine xorOver_congr fun m hm => ?_
  rw [testBit_idx (by omega) hs]
  cases m with
  | zero => simp [inputBefore_here]
  | succ m =>
    have h1 : ¬ c.kVal - 1 - (m + 1) = c.kVal - 1 := by omega
    have h2 : c.kVal - 1 - (m + 1) = c.kVal - 2 - m := by omega
    rw [if_neg h1, h2, testBit_endState hk x m (by omega), inputBefore_append_succ]

theorem tapSum_append_left (k g : Nat) (x y : List Bool) {t : Nat} (ht : t < x.length) :
    tapSum k g (x ++ y) t = tapSum k g x t :=
  xorOver_congr fun m _ => by rw [inputBefore_append_left x y m ht]

@[simp] theorem codeword_nil (k : Nat) (g : List Word) : codeword k g [] = [] := rfl

/-- One more input bit appends one symbol (R142). -/
theorem codeword_append_singleton (k : Nat) (g : List Word) (x : List Bool) (b : Bool) :
    codeword k g (x ++ [b]) = codeword k g x ++ g.map fun gj => tapSum k gj.toNat (x ++ [b]) x.length := by
  simp only [codeword, List.length_append, List.length_singleton, List.range_succ, List.flatMap_append,
    List.flatMap_cons, List.flatMap_nil, List.append_nil]
  congr 1
  rw [List.flatMap_def, List.flatMap_def]
  congr 1
  refine List.map_congr_left fun t ht => List.map_congr_left fun gj _ => ?_
  exact tapSum_append_left _ _ _ _ (List.mem_range.mp ht)

theorem codeword_length (k : Nat) (g : List Word) (x : List Bool) :
    (codeword k g x).length = x.length * g.length := by
  induction x using List.reverseRecOn with
  | nil => simp
  | append_singleton x b ih => simp [codeword_append_singleton, ih, Nat.add_mul]

/-- From the state after x, encoding y emits what follows the encoding of x in that of x ++ y (R141, R142). -/
theorem Code.Ok.encodeBits_from {config : Config} {c : Code} (h : c.Ok config) (x y : List Bool) (w : Work)
    (hw : w.encState = endState c.kVal x) :
    codeword c.kVal c.g (x ++ y) = codeword c.kVal c.g x ++ (encodeBits c y w).1 := by
  induction y generalizing x w with
  | nil => simp
  | cons b y ih =>
    have := ih (x ++ [b]) { w with encState := nextState c.kVal w.encState b }
      (by simp [hw, endState_append_singleton])
    rw [List.append_assoc, List.singleton_append] at this
    rw [this, codeword_append_singleton, encodeBits_cons, hw, h.readRow_idx x b [], List.append_assoc]

/-- From state 0 the output is the convolution (R142). -/
theorem Code.Ok.encodeBits_out {config : Config} {c : Code} (h : c.Ok config) (x : List Bool) (w : Work)
    (hw : w.encState = 0) : (encodeBits c x w).1 = codeword c.kVal c.g x := by
  simpa using (h.encodeBits_from [] x w hw).symm

/-- One more input bit that leads to state s appends the expected output of its edge (R162). -/
theorem Code.Ok.codeword_append_edge {config : Config} {c : Code} (h : c.Ok config) {x : List Bool} {s : Nat} {y : Bool}
    (hp : endState c.kVal x = pred c.kVal s y) :
    codeword c.kVal c.g (x ++ [inbit c.kVal s]) = codeword c.kVal c.g x ++ edgeOut c (pred c.kVal s y) s := by
  rw [codeword_append_singleton, ← h.readRow_idx x _ [], hp]; rfl

/-! ### Packing (R144, R145) -/

@[simp] theorem pack_length (e : List Bool) : (pack e).length = byteCount e.length := by simp [pack]

theorem packBits_cons (v : Bool) (e : List Bool) (w : Work) :
    packBits (v :: e) w =
      ((packBit v w).1 ++ (packBits e (packBit v w).2).1, (packBits e (packBit v w).2).2) := rfl

/-- Packing changes PACK_ACC and PACK_CNT alone. -/
theorem packBits_work (e : List Bool) (w : Work) :
    ∃ acc cnt, (packBits e w).2 = { w with packAcc := acc, packCnt := cnt } := by
  induction e generalizing w with
  | nil => exact ⟨_, _, rfl⟩
  | cons v e ih =>
    obtain ⟨acc, cnt, h⟩ := ih (packBit v w).2
    refine ⟨acc, cnt, ?_⟩
    rw [packBits_cons, h]
    unfold packBit
    dsimp only
    split <;> rfl

theorem encodePacked_eq (c : Code) (xs : List Bool) (w : Work) :
    encodePacked c xs w =
      ((packBits (encodeBits c xs w).1 (encodeBits c xs w).2).1 ++
          packRest (packBits (encodeBits c xs w).1 (encodeBits c xs w).2).2,
        (packBits (encodeBits c xs w).1 (encodeBits c xs w).2).2) := rfl

end Sys2Proof.Machine
end

