-- ==== Sys2Proof/Laws/Decoder.lean ====
section
/-! SUPPORT. The decoder's parts, each said once: the metric arithmetic, a lane, a column step, the traceback, the decode
loop in either mode, and what none of them touches. -/

namespace Sys2Proof.Machine

/-! ### Metric arithmetic (R163, R164) -/

theorem inf_toNat : inf.toNat = 255 := rfl

theorem metric_le (m : Metric) : m.toNat ≤ 255 := by have := m.isLt; omega

theorem metric_lt_of_lt_of_le {a b c : Metric} (h : a < b) (h' : b ≤ c) : a < c :=
  BitVec.lt_def.mpr (Nat.lt_of_lt_of_le (BitVec.lt_def.mp h) (BitVec.le_def.mp h'))

/-- The two branches of the saturating add agree (R164). -/
theorem satAdd_toNat (m : Metric) (d : Nat) : (satAdd m d).toNat = min (m.toNat + d) 255 := by
  unfold satAdd
  split
  · rename_i h; rw [h, inf_toNat]; omega
  · rw [inf_toNat, BitVec.toNat_ofNat]; omega

@[simp] theorem satAdd_inf (d : Nat) : satAdd inf d = inf := by simp [satAdd]

@[simp] theorem hamming_nil (b : List Bool) : hamming [] b = 0 := by simp [hamming]

theorem hamming_cons (x y : Bool) (a b : List Bool) :
    hamming (x :: a) (y :: b) = (x ^^ y).toNat + hamming a b := by
  cases x <;> cases y <;> simp [hamming, Nat.add_comm]

theorem branchMetric_eq_hamming (r e : Symbol) : branchMetric r e = hamming r e := by
  induction r generalizing e with
  | nil => simp [branchMetric]
  | cons x r ih =>
    cases e with
    | nil => simp [branchMetric, hamming]
    | cons y e => rw [branchMetric, hamming_cons, ih]

theorem hamming_append {a a' : List Bool} (b b' : List Bool) (h : a.length = a'.length) :
    hamming (a ++ b) (a' ++ b') = hamming a a' + hamming b b' := by
  simp [hamming, List.zipWith_append h]

theorem hamming_comm (a b : List Bool) : hamming a b = hamming b a := by
  unfold hamming
  rw [List.zipWith_comm]
  simp [Bool.xor_comm]

theorem hamming_self (a : List Bool) : hamming a a = 0 := by
  induction a with
  | nil => rfl
  | cons x a ih => simp [hamming_cons, ih]

theorem eq_of_hamming_eq_zero {a b : List Bool} (h : a.length = b.length) (h0 : hamming a b = 0) : a = b := by
  induction a generalizing b with
  | nil => exact (List.length_eq_zero_iff.mp h.symm).symm
  | cons x a ih =>
    cases b with
    | nil => simp at h
    | cons y b =>
      rw [hamming_cons] at h0
      have hx : x = y := by cases x <;> cases y <;> simp_all
      rw [hx, ih (by simpa using h) (by omega)]

/-! ### One lane (R165) -/

/-- The cost of reaching s through p: the candidate metric of R165. -/
def candidate (c : Code) (pm : List Metric) (r : Symbol) (p s : Nat) : Metric :=
  satAdd (readMetric pm p) (branchMetric r (edgeOut c p s))

/-- A lane selects the cheaper predecessor, the lower-indexed on a tie (R165). -/
theorem acs_eq (c : Code) (pm : List Metric) (r : Symbol) (s : Nat) :
    acs c pm r s =
      if candidate c pm r (pred c.kVal s false) s ≤ candidate c pm r (pred c.kVal s true) s
      then (candidate c pm r (pred c.kVal s false) s, pred c.kVal s false)
      else (candidate c pm r (pred c.kVal s true) s, pred c.kVal s true) := rfl

/-- What a lane answers is the candidate through the predecessor it names, one of the two (R44, R165). -/
theorem acs_cases (c : Code) (pm : List Metric) (r : Symbol) (s : Nat) :
    ∃ x, acs c pm r s = (candidate c pm r (pred c.kVal s x) s, pred c.kVal s x) ∧
      (∀ y, candidate c pm r (pred c.kVal s x) s ≤ candidate c pm r (pred c.kVal s y) s) ∧
      (x = true → candidate c pm r (pred c.kVal s true) s < candidate c pm r (pred c.kVal s false) s) := by
  rw [acs_eq]
  split
  · rename_i h
    exact ⟨false, rfl, fun y => by cases y; exacts [BitVec.le_refl _, h], by simp⟩
  · rename_i h
    have h := BitVec.not_le.mp h
    exact ⟨true, rfl, fun y => by cases y; exacts [BitVec.le_of_lt h, BitVec.le_refl _], fun _ => h⟩

/-! ### The column step (R166) -/

theorem colStep_pm_length (c : Code) (r : Symbol) (w : Work) :
    (colStep c r w).pm.length = 2 ^ (c.kVal - 1) := by simp

theorem readMetric_colStep (c : Code) (r : Symbol) (w : Work) {s : Nat} (hs : s < 2 ^ (c.kVal - 1)) :
    readMetric (colStep c r w).pm s = (acs c w.pm r s).1 := by
  simp [readMetric, List.getD, hs]

/-- The new column holds each lane's choice; the older ones stay. -/
theorem readTrellis_colStep_new (c : Code) (r : Symbol) (w : Work) {s : Nat} (hs : s < 2 ^ (c.kVal - 1)) :
    readTrellis (colStep c r w).tr w.tr.length s = (acs c w.pm r s).2 := by
  simp [readTrellis, List.getD, hs]

theorem readTrellis_append_old (tr rest : List (List Nat)) {j : Nat} (hj : j < tr.length) (s : Nat) :
    readTrellis (tr ++ rest) j s = readTrellis tr j s := by
  simp [readTrellis, List.getD, List.getElem?_append_left hj]

theorem candidate_toNat (c : Code) (pm : List Metric) (r : Symbol) (p s : Nat) :
    (candidate c pm r p s).toNat = min ((readMetric pm p).toNat + branchMetric r (edgeOut c p s)) 255 :=
  satAdd_toNat _ _

/-! ### Column steps without a flush -/

@[simp] theorem columnSteps_nil (c : Code) (w : Work) : columnSteps c [] w = w := rfl

theorem columnSteps_cons (c : Code) (r : Symbol) (rs : List Symbol) (w : Work) :
    columnSteps c (r :: rs) w = columnSteps c rs (colStep c r w) := rfl

theorem columnSteps_append (c : Code) (rs qs : List Symbol) (w : Work) :
    columnSteps c (rs ++ qs) w = columnSteps c qs (columnSteps c rs w) := by simp [columnSteps]

theorem columnSteps_frame (c : Code) (rs : List Symbol) (w : Work) :
    (columnSteps c rs w).mode = w.mode ∧ (columnSteps c rs w).outOff = w.outOff ∧
    (columnSteps c rs w).encState = w.encState ∧ (columnSteps c rs w).packAcc = w.packAcc ∧
    (columnSteps c rs w).packCnt = w.packCnt ∧ (columnSteps c rs w).colcnt = w.colcnt + rs.length ∧
    (columnSteps c rs w).tr.length = w.tr.length + rs.length ∧
    (columnSteps c rs w).t = w.t + BitVec.ofNat 24 rs.length := by
  induction rs generalizing w with
  | nil => simp
  | cons r rs ih =>
    obtain ⟨h1, h2, h3, h4, h5, h6, h7, h8⟩ := ih (colStep c r w)
    rw [columnSteps_cons]
    refine ⟨h1, h2, h3, h4, h5, ?_, ?_, ?_⟩
    · rw [h6]; simp; omega
    · rw [h7]; simp; omega
    · rw [h8, colStep_t, BitVec.add_assoc, List.length_cons, Nat.add_comm rs.length 1, BitVec.ofNat_add]

/-! ### The traceback (R170, R171) -/

@[simp] theorem tbRun_zero (c : Code) (d : List Bool) (w : Work) : tbRun c 0 d w = (d, w) := rfl

theorem tbRun_succ (c : Code) (m : Nat) (d : List Bool) (w : Work) :
    tbRun c (m + 1) d w = tbRun c m (inbit c.kVal w.tbState :: d) (tbStep c w).2 := rfl

/-- The bits already recovered stay behind those still to come. -/
theorem tbRun_bits (c : Code) (m : Nat) (d : List Bool) (w : Work) :
    (tbRun c m d w).1 = (tbRun c m [] w).1 ++ d := by
  induction m generalizing d w with
  | zero => rfl
  | succ m ih =>
    rw [tbRun_succ, ih, tbRun_succ, ih [inbit c.kVal w.tbState]]
    simp

theorem tbRun_length (c : Code) (m : Nat) (d : List Bool) (w : Work) :
    (tbRun c m d w).1.length = m + d.length := by
  induction m generalizing d w with
  | zero => simp
  | succ m ih => rw [tbRun_succ, ih]; simp; omega

/-- A traceback run changes TB_STATE, TR and COLCNT alone, and consumes the columns it walks (R63, R170). -/
theorem tbRun_work (c : Code) (m : Nat) (d : List Bool) (w : Work) :
    (tbRun c m d w).2 =
      { w with
        tbState := (tbRun c m d w).2.tbState, tr := (tbRun c m d w).2.tr, colcnt := w.colcnt - m } := by
  induction m generalizing d w with
  | zero => rfl
  | succ m ih =>
    rw [tbRun_succ]
    generalize inbit c.kVal w.tbState :: d = d'
    have := ih d' (tbStep c w).2
    rw [this]
    simp [Nat.sub_sub, Nat.add_comm]

/-- The trellis left is the columns below those walked. -/
theorem tbRun_tr (c : Code) (m : Nat) (d : List Bool) (w : Work) (h : w.colcnt = w.tr.length) (hm : m ≤ w.colcnt) :
    (tbRun c m d w).2.tr = w.tr.take (w.colcnt - m) := by
  induction m generalizing d w with
  | zero => simp [h]
  | succ m ih =>
    have e : min (w.colcnt - 1) w.tr.length = w.colcnt - 1 := by omega
    rw [tbRun_succ, ih _ _ (by simp [e]) (by simp; omega)]
    simp only [tbStep_tr, tbStep_colcnt, List.take_take]
    congr 1; omega

/-- The bits depend on the trellis, COLCNT and TB_STATE alone. -/
theorem tbRun_bits_congr (c : Code) (m : Nat) (d : List Bool) {w w' : Work} (h1 : w.tr = w'.tr)
    (h2 : w.colcnt = w'.colcnt) (h3 : w.tbState = w'.tbState) : (tbRun c m d w).1 = (tbRun c m d w').1 := by
  induction m generalizing d w w' with
  | zero => rfl
  | succ m ih =>
    rw [tbRun_succ, tbRun_succ, h3]
    exact ih _ (by simp [h1, h2]) (by simp [h2]) (by simp [h1, h2, h3])

theorem traceback_length (c : Code) (w : Work) : (traceback c w).1.length = w.colcnt := by
  simp [traceback, tbRun_length]

/-- A traceback over all columns empties the trellis; it changes BEST and TB_STATE beside (R171). -/
theorem traceback_work (c : Code) (w : Work) (h : w.colcnt = w.tr.length) :
    ∃ b, (traceback c w).2 = { w with best := bestState c w.pm, tbState := b, tr := [], colcnt := 0 } := by
  refine ⟨(traceback c w).2.tbState, ?_⟩
  have ht : (traceback c w).2.tr = [] := by
    rw [traceback, tbRun_tr _ _ _ _ (by simpa using h) (by simp)]; simp
  have := tbRun_work c w.colcnt [] (selectBest c w)
  rw [traceback] at *
  rw [this, ht]
  simp [selectBest]

/-- The bits of a traceback depend on the metrics, the trellis and COLCNT alone. -/
theorem traceback_bits_congr (c : Code) {w w' : Work} (h1 : w.pm = w'.pm) (h2 : w.tr = w'.tr)
    (h3 : w.colcnt = w'.colcnt) : (traceback c w).1 = (traceback c w').1 := by
  rw [traceback, traceback, h3]
  exact tbRun_bits_congr c _ _ (by simpa using h2) (by simpa using h3) (by simp [h1])

/-! ### The flush (R202) -/

@[simp] theorem flush_bits (c : Code) (w : Work) : (flush c w).1 = (traceback c w).1 := rfl

theorem flush_work (c : Code) (w : Work) (h : w.colcnt = w.tr.length) :
    ∃ b, (flush c w).2 =
      { w with
        best := bestState c w.pm, tbState := b, tr := [], colcnt := 0
        outOff := w.outOff + BitVec.ofNat 24 w.colcnt } := by
  obtain ⟨b, hb⟩ := traceback_work c w h
  refine ⟨b, ?_⟩
  have : (flush c w).2 = { (traceback c w).2 with
      outOff := (traceback c w).2.outOff + BitVec.ofNat 24 w.colcnt } := rfl
  rw [this, hb]

/-! ### The decode loop (R172, R203) -/

@[simp] theorem decodeLoop_nil (c : Code) (w : Work) : decodeLoop c [] w = ([], w) := rfl

/-- One symbol of the loop, when no flush is due after it. -/
theorem decodeLoop_cons_of_not_due (c : Code) (r : Symbol) (rs : List Symbol) (w : Work)
    (h : flushDue c (colStep c r w) = false) : decodeLoop c (r :: rs) w = decodeLoop c rs (colStep c r w) := by
  simp [decodeLoop, h]

/-- One symbol of the loop, when a flush is due after it. -/
theorem decodeLoop_cons_of_due (c : Code) (r : Symbol) (rs : List Symbol) (w : Work)
    (h : flushDue c (colStep c r w) = true) :
    decodeLoop c (r :: rs) w =
      ((flush c (colStep c r w)).1 ++ (decodeLoop c rs (flush c (colStep c r w)).2).1,
        (decodeLoop c rs (flush c (colStep c r w)).2).2) := by
  simp [decodeLoop, h]

/-- In full-sequence mode the trigger is not armed: the loop is the column steps (R35, R201). -/
theorem decodeLoop_full (c : Code) (rs : List Symbol) (w : Work) (h : w.mode = .full) :
    decodeLoop c rs w = ([], columnSteps c rs w) := by
  induction rs generalizing w with
  | nil => rfl
  | cons r rs ih =>
    rw [decodeLoop_cons_of_not_due _ _ _ _ (by simp [flushDue, h]), ih _ (by simpa using h), columnSteps_cons]

/-- Below the window nothing is flushed. -/
theorem decodeLoop_below_window (c : Code) (rs : List Symbol) (w : Work) (h : w.colcnt + rs.length < c.win) :
    decodeLoop c rs w = ([], columnSteps c rs w) := by
  induction rs generalizing w with
  | nil => rfl
  | cons r rs ih =>
    simp only [List.length_cons] at h
    have hd : flushDue c (colStep c r w) = false := by
      have : ¬ w.colcnt + 1 = c.win := by omega
      simp [flushDue, this]
    rw [decodeLoop_cons_of_not_due _ _ _ _ hd, ih _ (by simp; omega), columnSteps_cons]

/-- The loop over a concatenation is the loop over its parts. -/
theorem decodeLoop_append (c : Code) (rs qs : List Symbol) (w : Work) :
    decodeLoop c (rs ++ qs) w =
      ((decodeLoop c rs w).1 ++ (decodeLoop c qs (decodeLoop c rs w).2).1,
        (decodeLoop c qs (decodeLoop c rs w).2).2) := by
  induction rs generalizing w with
  | nil => simp
  | cons r rs ih =>
    cases h : flushDue c (colStep c r w) with
    | false =>
      rw [List.cons_append, decodeLoop_cons_of_not_due _ _ _ _ h, decodeLoop_cons_of_not_due _ _ _ _ h, ih]
    | true =>
      rw [List.cons_append, decodeLoop_cons_of_due _ _ _ _ h, decodeLoop_cons_of_due _ _ _ _ h, ih]
      simp

/-- What a decode call keeps of the working state: the encoder's registers and MODE; and while it runs COLCNT is the
number of columns (R43), every symbol either still in a column or delivered as a bit. -/
theorem decodeLoop_frame (c : Code) (rs : List Symbol) (w : Work) (h : w.colcnt = w.tr.length) :
    (decodeLoop c rs w).2.mode = w.mode ∧ (decodeLoop c rs w).2.encState = w.encState ∧
    (decodeLoop c rs w).2.packAcc = w.packAcc ∧ (decodeLoop c rs w).2.packCnt = w.packCnt ∧
    (decodeLoop c rs w).2.colcnt = (decodeLoop c rs w).2.tr.length ∧
    (decodeLoop c rs w).1.length + (decodeLoop c rs w).2.colcnt = w.colcnt + rs.length := by
  induction rs generalizing w with
  | nil => simp [h]
  | cons r rs ih =>
    have h1 : (colStep c r w).colcnt = (colStep c r w).tr.length := by simp [h]
    cases hd : flushDue c (colStep c r w) with
    | false =>
      rw [decodeLoop_cons_of_not_due _ _ _ _ hd]
      obtain ⟨a1, a2, a3, a4, a5, a6⟩ := ih _ h1
      exact ⟨a1, a2, a3, a4, a5, by rw [a6]; simp; omega⟩
    | true =>
      rw [decodeLoop_cons_of_due _ _ _ _ hd]
      obtain ⟨b, hb⟩ := flush_work c _ h1
      obtain ⟨a1, a2, a3, a4, a5, a6⟩ := ih (flush c (colStep c r w)).2 (by rw [hb]; rfl)
      have hl : (flush c (colStep c r w)).1.length = (colStep c r w).colcnt := by
        rw [flush_bits, traceback_length]
      have h0 : (flush c (colStep c r w)).2.colcnt = 0 := by rw [hb]
      refine ⟨by rw [a1, hb]; rfl, by rw [a2, hb]; rfl, by rw [a3, hb]; rfl, by rw [a4, hb]; rfl, a5, ?_⟩
      simp only [List.length_append, List.length_cons, hl]
      rw [h0] at a6
      simp only [colStep_colcnt] at *
      omega

/-- Two working states that agree on the metrics, the trellis, COLCNT and MODE: all that a decode reads (R262). -/
def Work.SameTrellis (w w' : Work) : Prop :=
  w.pm = w'.pm ∧ w.tr = w'.tr ∧ w.colcnt = w'.colcnt ∧ w.mode = w'.mode

theorem colStep_sameTrellis (c : Code) (r : Symbol) {w w' : Work} (h : w.SameTrellis w') :
    (colStep c r w).SameTrellis (colStep c r w') := by
  obtain ⟨h1, h2, h3, h4⟩ := h
  exact ⟨by simp [h1], by simp [h1, h2], by simp [h3], by simp [h4]⟩

theorem flush_sameTrellis (c : Code) {w w' : Work} (hc : w.colcnt = w.tr.length) (h : w.SameTrellis w') :
    (flush c w).1 = (flush c w').1 ∧ (flush c w).2.SameTrellis (flush c w').2 := by
  obtain ⟨h1, h2, h3, h4⟩ := h
  obtain ⟨b, hb⟩ := flush_work c w hc
  obtain ⟨b', hb'⟩ := flush_work c w' (by rw [← h3, hc, h2])
  exact ⟨traceback_bits_congr c h1 h2 h3, by rw [hb, hb']; exact ⟨h1, rfl, rfl, h4⟩⟩

theorem decodeLoop_sameTrellis (c : Code) (rs : List Symbol) {w w' : Work} (hc : w.colcnt = w.tr.length)
    (h : w.SameTrellis w') :
    (decodeLoop c rs w).1 = (decodeLoop c rs w').1 ∧ (decodeLoop c rs w).2.SameTrellis (decodeLoop c rs w').2 := by
  induction rs generalizing w w' with
  | nil => exact ⟨rfl, h⟩
  | cons r rs ih =>
    have hs := colStep_sameTrellis c r h
    have hc1 : (colStep c r w).colcnt = (colStep c r w).tr.length := by simp [hc]
    have hd : flushDue c (colStep c r w) = flushDue c (colStep c r w') := by
      simp only [flushDue, hs.2.2.1, hs.2.2.2]
    cases hf : flushDue c (colStep c r w) with
    | false =>
      rw [decodeLoop_cons_of_not_due _ _ _ _ hf, decodeLoop_cons_of_not_due _ _ _ _ (hd ▸ hf)]
      exact ih hc1 hs
    | true =>
      rw [decodeLoop_cons_of_due _ _ _ _ hf, decodeLoop_cons_of_due _ _ _ _ (hd ▸ hf)]
      obtain ⟨e1, e2⟩ := flush_sameTrellis c hc1 hs
      obtain ⟨b, hb⟩ := flush_work c _ hc1
      obtain ⟨e3, e4⟩ := ih (w := (flush c (colStep c r w)).2) (by rw [hb]; rfl) e2
      exact ⟨by rw [e1, e3], e4⟩

/-! ### The bodies of DECF and DECT -/

theorem decodeFull_eq (c : Code) (rs : List Symbol) (w : Work) :
    decodeFull c rs w = traceback c (columnSteps c rs (w.decodeStart c .full)) := by
  simp [decodeFull, decodeLoop_full c rs (w.decodeStart c .full) rfl]

theorem decodeTruncated_eq (c : Code) (rs : List Symbol) (w : Work) :
    decodeTruncated c rs w =
      ((decodeLoop c rs (w.decodeStart c .truncated)).1 ++
          (flushRest c (decodeLoop c rs (w.decodeStart c .truncated)).2).1,
        (flushRest c (decodeLoop c rs (w.decodeStart c .truncated)).2).2) := rfl

/-- A flush does not touch the metrics: after the loop they are those of the column steps alone (R202). -/
theorem decodeLoop_pm (c : Code) (rs : List Symbol) {w w' : Work} (hp : w.pm = w'.pm) (h : w.colcnt = w.tr.length) :
    (decodeLoop c rs w).2.pm = (columnSteps c rs w').pm := by
  induction rs generalizing w w' with
  | nil => exact hp
  | cons r rs ih =>
    cases hd : flushDue c (colStep c r w) with
    | false =>
      rw [decodeLoop_cons_of_not_due _ _ _ _ hd, columnSteps_cons]
      exact ih (by simp [hp]) (by simp [h])
    | true =>
      rw [decodeLoop_cons_of_due _ _ _ _ hd, columnSteps_cons]
      obtain ⟨b, hb⟩ := flush_work c (colStep c r w) (by simp [h])
      exact ih (by rw [hb]; simp [hp]) (by rw [hb]; rfl)

/-! ### Best-state select (R169) -/

/-- The strict scan over the first n states keeps the least state of least metric seen so far. -/
theorem bestScan (pm : List Metric) (n : Nat) :
    let b := (List.range n).foldl (fun b s => if readMetric pm s < readMetric pm b then s else b) 0
    (b < n ∨ b = 0) ∧ (∀ s, s < n → readMetric pm b ≤ readMetric pm s) ∧
      (∀ s, s < b → readMetric pm b < readMetric pm s) := by
  induction n with
  | zero => simp
  | succ n ih =>
    obtain ⟨h1, h2, h3⟩ := ih
    simp only [List.range_succ, List.foldl_append, List.foldl_cons, List.foldl_nil]
    generalize (List.range n).foldl (fun b s => if readMetric pm s < readMetric pm b then s else b) 0 = b at *
    split
    · rename_i h
      refine ⟨.inl (by omega), fun s hs => ?_, fun s hs => ?_⟩
      · rcases Nat.lt_or_eq_of_le (Nat.lt_succ_iff.mp hs) with h' | h'
        · exact BitVec.le_of_lt (metric_lt_of_lt_of_le h (h2 s h'))
        · rw [h']; exact BitVec.le_refl _
      · exact metric_lt_of_lt_of_le h (h2 s hs)
    · rename_i h
      refine ⟨by omega, fun s hs => ?_, h3⟩
      rcases Nat.lt_or_eq_of_le (Nat.lt_succ_iff.mp hs) with h' | h'
      · exact h2 s h'
      · rw [h']; exact BitVec.not_lt.mp h

end Sys2Proof.Machine
end

