-- ==== Sys2Proof/Laws/Step.lean ====
section
/-! SUPPORT. One inversion lemma per command and one for the step: what each can answer, said once. -/

namespace Sys2Proof.Machine

/-! ### The commands -/

theorem execCfg_next {kf pf : Nat} {s t : State} (h : execCfg kf pf s = .next t) :
    (∃ g rest, takeItems DinItem.asWord pf s.din = .got g rest ∧
      ((paramsOk s.config kf pf g = true ∧
          t = { s with
            din := rest, cfgValid := true, code := configured kf pf g, rsp := s.rsp ++ [.ok], phase := .idle }) ∨
        (paramsOk s.config kf pf g = false ∧ t = ({ s with din := rest } : State).raise .invalidParameter))) ∨
    (takeItems DinItem.asWord pf s.din = .starved ∧ t = s.wait) := by
  rcases withItems_next h with ⟨g, rest, h1, rfl⟩ | h
  · refine .inl ⟨g, rest, h1, ?_⟩
    dsimp only
    cases hp : paramsOk s.config kf pf g with
    | true => exact .inl ⟨rfl, by simp [State.respond]⟩
    | false => exact .inr ⟨rfl, by simp⟩
  · exact .inr h

theorem execEncb_next {n : Nat} {s t : State} (h : execEncb n s = .next t) :
    (∃ xs rest, takeItems DinItem.asBit n s.din = .got xs rest ∧
      ((s.cfgValid = true ∧
          t = { s with
            din := rest, dout := s.dout ++ (encodeBits s.code xs s.work.encodeStart).1.map .bit,
            work := (encodeBits s.code xs s.work.encodeStart).2, rsp := s.rsp ++ [.ok], phase := .idle }) ∨
        (s.cfgValid = false ∧ t = { s with din := rest, rsp := s.rsp ++ [.errInput], phase := .idle }))) ∨
    (takeItems DinItem.asBit n s.din = .starved ∧ t = s.wait) := by
  rcases withItems_next h with ⟨xs, rest, h1, rfl⟩ | h
  · refine .inl ⟨xs, rest, h1, ?_⟩
    cases hv : s.cfgValid with
    | true => exact .inl ⟨rfl, by simp [State.encodeOk, State.respond, State.put]⟩
    | false => exact .inr ⟨rfl, by simp [State.encodeOk, State.respond]⟩
  · exact .inr h

theorem execEncp_next {n : Nat} {s t : State} (h : execEncp n s = .next t) :
    (∃ bytes rest, takeItems DinItem.asByte (byteCount n) s.din = .got bytes rest ∧
      ((s.cfgValid = true ∧
          t = { s with
            din := rest
            dout := s.dout ++ (encodePacked s.code (bitsOf bytes n) s.work.encodeStart.packStart).1.map .byte
            work := (encodePacked s.code (bitsOf bytes n) s.work.encodeStart.packStart).2
            rsp := s.rsp ++ [.ok], phase := .idle }) ∨
        (s.cfgValid = false ∧ t = { s with din := rest, rsp := s.rsp ++ [.errInput], phase := .idle }))) ∨
    (takeItems DinItem.asByte (byteCount n) s.din = .starved ∧ t = s.wait) := by
  rcases withItems_next h with ⟨xs, rest, h1, rfl⟩ | h
  · refine .inl ⟨xs, rest, h1, ?_⟩
    cases hv : s.cfgValid with
    | true => exact .inl ⟨rfl, by simp [State.encodeOk, State.respond, State.put]⟩
    | false => exact .inr ⟨rfl, by simp [State.encodeOk, State.respond]⟩
  · exact .inr h

/-- The state a decode leaves when it has delivered `d` and the working state is `w`. -/
def State.decoded (s : State) (rest : List DinItem) (d : List Bool) (w : Work) : State :=
  { s with
    din := rest
    dout := s.dout ++ d.map .bit
    work := { w with pmn := Config.freeMetrics s.drawn, colbuf := Config.freeColumn s.drawn }
    rsp := s.rsp ++ [.ok]
    phase := .idle
    drawn := s.drawn + 1 }

/-- The symbols a decode cuts from its received bits. -/
def State.received (s : State) (n : Nat) (r : List Bool) : List Symbol :=
  symbols s.code.pVal (n / s.code.pVal) r

theorem execDecf_next {n : Nat} {s t : State} (h : execDecf n s = .next t) :
    (∃ r rest, takeItems DinItem.asBit n s.din = .got r rest ∧
      ((s.decfOk n = true ∧
          t = s.decoded rest (decodeFull s.code (s.received n r) s.work).1
            (decodeFull s.code (s.received n r) s.work).2) ∨
        (s.decfOk n = false ∧ t = { s with din := rest, rsp := s.rsp ++ [.errInput], phase := .idle }))) ∨
    (takeItems DinItem.asBit n s.din = .starved ∧ t = s.wait) := by
  rcases withItems_next h with ⟨xs, rest, h1, rfl⟩ | h
  · refine .inl ⟨xs, rest, h1, ?_⟩
    have e : ({ s with din := rest } : State).decfOk n = s.decfOk n := rfl
    cases hv : s.decfOk n with
    | true =>
      refine .inl ⟨rfl, ?_⟩
      simp only [e, hv]
      rfl
    | false => exact .inr ⟨rfl, by simp [e, hv, State.respond]⟩
  · exact .inr h

theorem execDect_next {n : Nat} {s t : State} (h : execDect n s = .next t) :
    (∃ r rest, takeItems DinItem.asBit n s.din = .got r rest ∧
      ((s.dectOk n = true ∧
          t = s.decoded rest (decodeTruncated s.code (s.received n r) s.work).1
            (decodeTruncated s.code (s.received n r) s.work).2) ∨
        (s.dectOk n = false ∧ t = { s with din := rest, rsp := s.rsp ++ [.errInput], phase := .idle }))) ∨
    (takeItems DinItem.asBit n s.din = .starved ∧ t = s.wait) := by
  rcases withItems_next h with ⟨xs, rest, h1, rfl⟩ | h
  · refine .inl ⟨xs, rest, h1, ?_⟩
    have e : ({ s with din := rest } : State).dectOk n = s.dectOk n := rfl
    cases hv : s.dectOk n with
    | true =>
      refine .inl ⟨rfl, ?_⟩
      simp only [e, hv]
      rfl
    | false => exact .inr ⟨rfl, by simp [e, hv, State.respond]⟩
  · exact .inr h

/-- DECF of a good length over supplied bits completes. -/
theorem execDecf_supplied {s : State} {r : List Bool} {rest : List DinItem} (hd : s.din = r.map .bit ++ rest)
    (hok : s.decfOk r.length = true) :
    execDecf r.length s = .next (s.decoded rest (decodeFull s.code (s.received r.length r) s.work).1
      (decodeFull s.code (s.received r.length r) s.work).2) := by
  rw [execDecf, withItems_supplied asBit_bit rfl hd]
  have e : ({ s with din := rest } : State).decfOk r.length = true := hok
  simp only [e]
  rfl

/-- DECT of a good length over supplied bits completes. -/
theorem execDect_supplied {s : State} {r : List Bool} {rest : List DinItem} (hd : s.din = r.map .bit ++ rest)
    (hok : s.dectOk r.length = true) :
    execDect r.length s = .next (s.decoded rest (decodeTruncated s.code (s.received r.length r) s.work).1
      (decodeTruncated s.code (s.received r.length r) s.work).2) := by
  rw [execDect, withItems_supplied asBit_bit rfl hd]
  have e : ({ s with din := rest } : State).dectOk r.length = true := hok
  simp only [e]
  rfl

/-! ### What the bodies keep (R32, R275) -/

theorem decodeFull_frame (c : Code) (rs : List Symbol) (w : Work) :
    (decodeFull c rs w).1.length = rs.length ∧ (decodeFull c rs w).2.tr = [] ∧
    (decodeFull c rs w).2.colcnt = 0 ∧ (decodeFull c rs w).2.encState = w.encState ∧
    (decodeFull c rs w).2.packAcc = w.packAcc ∧ (decodeFull c rs w).2.packCnt = w.packCnt := by
  obtain ⟨h1, h2, h3, h4, h5, h6, h7, h8⟩ := columnSteps_frame c rs (w.decodeStart c .full)
  rw [decodeFull_eq]
  obtain ⟨b, hb⟩ := traceback_work c (columnSteps c rs (w.decodeStart c .full)) (by rw [h6, h7]; rfl)
  exact ⟨by rw [traceback_length, h6]; simp, by rw [hb], by rw [hb], by rw [hb]; exact h3, by rw [hb]; exact h4,
    by rw [hb]; exact h5⟩

theorem decodeTruncated_frame (c : Code) (rs : List Symbol) (w : Work) :
    (decodeTruncated c rs w).1.length = rs.length ∧ (decodeTruncated c rs w).2.tr = [] ∧
    (decodeTruncated c rs w).2.colcnt = 0 ∧ (decodeTruncated c rs w).2.encState = w.encState ∧
    (decodeTruncated c rs w).2.packAcc = w.packAcc ∧ (decodeTruncated c rs w).2.packCnt = w.packCnt := by
  obtain ⟨h1, h2, h3, h4, h5, h6⟩ := decodeLoop_frame c rs (w.decodeStart c .truncated) rfl
  rw [decodeTruncated_eq]
  generalize decodeLoop c rs (w.decodeStart c .truncated) = p at *
  unfold flushRest
  split
  · obtain ⟨b, hb⟩ := flush_work c p.2 h5
    rw [hb]
    refine ⟨?_, rfl, rfl, h2, h3, h4⟩
    simp only [List.length_append, flush_bits, traceback_length]
    simpa using h6
  · rename_i h0
    have h0 : p.2.colcnt = 0 := by omega
    refine ⟨?_, ?_, h0, h2, h3, h4⟩
    · simp only [List.append_nil]; simpa [h0] using h6
    · exact List.length_eq_zero_iff.mp (by rw [← h5, h0])

/-! ### The step -/

/-- What a step can do: wait in IDLE for a header; take the next header, or try again the one taken, and run it. -/
theorem step_cases {s t : State} (h : step s = .next t) :
    (s.phase = .idle ∧ s.cmd = [] ∧ t = s) ∨
    (∃ hd rest, s.phase = .idle ∧ s.cmd = hd :: rest ∧ runHeader (s.accept hd rest) = .next t) ∨
    (s.phase = .check ∧ runHeader s = .next t) := by
  unfold step at h
  split at h
  · rename_i hp
    split at h
    · rename_i hc; exact .inl ⟨hp, hc, (Host.Outcome.next.inj h).symm⟩
    · rename_i hd rest hc; exact .inr (.inl ⟨hd, rest, hp, hc, h⟩)
  · rename_i hp; exact .inr (.inr ⟨hp, h⟩)
  all_goals cases h

/-- A header that has been taken is run when it is legal, and answered ERR_CMD when it is not. -/
theorem runHeader_cases {s t : State} (h : runHeader s = .next t) :
    (∃ i, decode s.hdr = .ok i ∧ exec i s = .next t) ∨
    (∃ e, decode s.hdr = .error e ∧ t = s.respond .errCmd) := by
  unfold runHeader at h
  split at h
  · rename_i i hi; exact .inl ⟨i, hi, h⟩
  · rename_i e he; exact .inr ⟨e, he, (Host.Outcome.next.inj h).symm⟩

end Sys2Proof.Machine
end

