-- ==== Sys2Proof/Laws/PerInstr.lean ====
section
/-! SUPPORT. Statements made instruction by instruction: the encoder writes the row of spec/opcode_table.json. -/

namespace Sys2Proof.Laws

/-- The row's mask (spec/opcode_table.json). -/
def rowMask : Instr → Word
  | .rst => 0xFFFFFFFF#32
  | .cfg _ _ => 0xE000FFFF#32
  | .encb _ => 0xFF000000#32
  | .encp _ => 0xFF000000#32
  | .decf _ => 0xFF000000#32
  | .dect _ => 0xFF000000#32

/-- The row's match (spec/opcode_table.json). -/
def rowMatch : Instr → Word
  | .rst => 0x00000000#32
  | .cfg _ _ => 0x20000000#32
  | .encb _ => 0x40000000#32
  | .encp _ => 0x60000000#32
  | .decf _ => 0x80000000#32
  | .dect _ => 0xA0000000#32

/-- A header under the mask of the data commands is its top byte in place. -/
theorem and_dataMask (h : Word) : h &&& 0xFF000000#32 = BitVec.ofNat 32 (h.toNat / 2 ^ 24) <<< 24 := by
  apply BitVec.eq_of_getLsbD_eq
  intro i hi
  have hm : (0xFF000000#32).getLsbD i = decide (24 ≤ i) := by revert i; decide
  rw [BitVec.getLsbD_and, hm, BitVec.getLsbD_shiftLeft, BitVec.getLsbD_ofNat, ← Nat.shiftRight_eq_div_pow,
    Nat.testBit_shiftRight]
  by_cases h24 : i < 24
  · simp [h24, Nat.not_le.mpr h24]
  · have e1 : i - 24 < 32 := by omega
    have e2 : 24 + (i - 24) = i := by omega
    simp [h24, e1, e2, hi, BitVec.getLsbD, Nat.not_lt.mp h24]

/-- A data header has its row's match under its row's mask (R94). -/
theorem dataHeader_row {n : Nat} (opc : Nat) (h : lengthFits n = true) (ho : opc < 8) :
    header opc 0 n &&& 0xFF000000#32 = BitVec.ofNat 32 (opc * 2 ^ 5) <<< 24 := by
  have hn : n < 2 ^ 24 := by simpa [lengthFits] using h
  rw [and_dataMask]
  congr 2
  rw [header, BitVec.toNat_ofNat]
  omega

/-- The header a well-formed instruction encodes to has its row's match under its row's mask (R92, R93, R94). -/
def EncodesItsRow.Statement (i : Instr) : Prop := i.wellFormed = true → encode i &&& rowMask i = rowMatch i

namespace EncodesItsRow

theorem rst : Statement .rst := by unfold Statement; decide

theorem cfg (kf pf : Nat) : Statement (.cfg kf pf) := by
  intro hw
  have hw : kf < 2 ^ 5 ∧ pf < 2 ^ 8 := by simpa [Instr.wellFormed] using hw
  show header 1 kf (pf * 2 ^ 16) &&& 0xE000FFFF#32 = 0x20000000#32
  have e1 : (header 1 kf (pf * 2 ^ 16)).toNat / 2 ^ 29 = 1 := by rw [header, BitVec.toNat_ofNat]; omega
  have e2 : (header 1 kf (pf * 2 ^ 16)).toNat % 2 ^ 16 = 0 := by rw [header, BitVec.toNat_ofNat]; omega
  generalize header 1 kf (pf * 2 ^ 16) = h at *
  apply BitVec.eq_of_getLsbD_eq
  intro i hi
  have hm : (0xE000FFFF#32).getLsbD i = (decide (i < 16) || decide (29 ≤ i)) := by revert i; decide
  have hr : (0x20000000#32).getLsbD i = decide (i = 29) := by revert i; decide
  have b1 : i < 16 → h.getLsbD i = false := fun hlt => by
    have : (h.toNat % 2 ^ 16).testBit i = Nat.testBit 0 i := by rw [e2]
    rw [Nat.testBit_mod_two_pow] at this
    simpa [hlt, BitVec.getLsbD] using this
  have b2 : 29 ≤ i → h.getLsbD i = decide (i = 29) := fun hle => by
    have : (h.toNat / 2 ^ 29).testBit (i - 29) = Nat.testBit 1 (i - 29) := by rw [e1]
    rw [← Nat.shiftRight_eq_div_pow, Nat.testBit_shiftRight, show 29 + (i - 29) = i by omega] at this
    rw [BitVec.getLsbD, this]
    have : i = 29 ∨ i = 30 ∨ i = 31 := by omega
    rcases this with rfl | rfl | rfl <;> decide
  rw [BitVec.getLsbD_and, hm, hr]
  by_cases h16 : i < 16
  · have : ¬ i = 29 := by omega
    simp [b1 h16, this]
  · by_cases h29 : 29 ≤ i
    · simp [b2 h29, h29]
    · have : ¬ i = 29 := by omega
      simp [h16, h29, this]

theorem encb (n : Nat) : Statement (.encb n) := fun h => dataHeader_row 2 h (by decide)

theorem encp (n : Nat) : Statement (.encp n) := fun h => dataHeader_row 3 h (by decide)

theorem decf (n : Nat) : Statement (.decf n) := fun h => dataHeader_row 4 h (by decide)

theorem dect (n : Nat) : Statement (.dect n) := fun h => dataHeader_row 5 h (by decide)

end EncodesItsRow

end Sys2Proof.Laws
end

