-- ==== Sys2Proof/Laws/Sequencer.lean ====
section
/-! SUPPORT. The sequencer's ticks (R38): how they compose, what no tick changes, and a whole traceback. -/

namespace Sys2Proof.Machine.Run

@[simp] theorem ticks_zero (r : Run) : ticks 0 r = r := rfl

theorem ticks_succ (m : Nat) (r : Run) : ticks (m + 1) r = ticks m r.tick := rfl

theorem ticks_add (m n : Nat) (r : Run) : ticks (m + n) r = ticks n (ticks m r) := by
  induction m generalizing r with
  | zero => rw [Nat.zero_add]; rfl
  | succ m ih => rw [Nat.add_right_comm, ticks_succ, ih, ticks_succ]

/-- The last tick taken out. -/
theorem ticks_succ' (m : Nat) (r : Run) : ticks (m + 1) r = (ticks m r).tick := by
  rw [ticks_add]; rfl

/-- A run ends in IDLE and stays there. -/
theorem tick_of_idle {r : Run} (h : r.s.phase = .idle) : r.tick = r := by unfold tick; rw [h]

/-- A run begins in CHECK, for the command that started it. -/
theorem start_phase {i : Instr} {s : State} {r : Run} (h : start i s = some r) : r.s.phase = .check ∧ r.instr = i := by
  cases i
  case rst => cases h; exact ⟨rfl, rfl⟩
  all_goals
    simp only [start] at h
    split at h
    · cases h; exact ⟨rfl, rfl⟩
    · cases h

/-- No tick changes the command of the run. -/
theorem tick_instr (r : Run) : r.tick.instr = r.instr := by
  unfold tick
  split
  · rfl
  · unfold check; repeat' split
    all_goals rfl
  · rfl
  · unfold enc; repeat' split
    all_goals rfl
  · unfold acs; split <;> rfl
  · rfl
  · unfold trace; split <;> rfl
  · unfold respond; split <;> rfl

/-- The ticks of a traceback over the m columns held walk them as `tbRun` does, and end where the bits are delivered. -/
theorem ticks_trace (m : Nat) (r : Run) (hp : r.s.phase = .trace) (hm : r.s.work.colcnt = m) :
    ticks m r =
      { r with
        s := { r.s with work := (tbRun r.s.code m r.trail r.s.work).2 }
        trail := (tbRun r.s.code m r.trail r.s.work).1 } := by
  induction m generalizing r with
  | zero => rfl
  | succ m ih =>
    have ht : r.tick =
        { r with
          s := { r.s with work := (tbStep r.s.code r.s.work).2 }
          trail := inbit r.s.code.kVal r.s.work.tbState :: r.trail } := by
      unfold tick; rw [hp]; dsimp only [trace]; rw [if_neg (by omega)]; rfl
    rw [ticks_succ, ih r.tick (by rw [ht]; exact hp) (by rw [ht]; simp [hm]), ht]
    rfl

end Sys2Proof.Machine.Run
end

