-- ==== Sys2Proof/Machine/Text.lean ====
section
/-! DEFINITION. The textual form of commands and of their results (30_encoding.md R106), as the test programs write them.
The machine does not use it: the host sees headers and items (R36). -/

namespace Sys2Proof.Machine

/-- One bit as a character. -/
def bitChar (b : Bool) : Char := if b then '1' else '0'

/-- A bit string, element 0 leftmost; the empty one is `-` (R106). -/
def bitsText (xs : List Bool) : String := if xs.isEmpty then "-" else String.ofList (xs.map bitChar)

/-- The hexadecimal digit of a number below 16. -/
def hexChar (n : Nat) : Char := "0123456789ABCDEF".toList.getD n '?'

/-- A byte in 0x form (R106). -/
def byteText (b : Byte) : String := String.ofList ['0', 'x', hexChar (b.toNat / 16), hexChar (b.toNat % 16)]

/-- Items of a list, separated by commas. -/
def commaText (xs : List String) : String := String.intercalate "," xs

/-- A command's line (R106); polynomials in decimal. `G=` alone is the empty list, `ENCB -` is N = 0. -/
def Command.text : Command → String
  | .rst => "RST"
  | .cfg k g => "CFG K=" ++ Nat.repr k ++ " G=" ++ commaText (g.map fun w => Nat.repr w.toNat)
  | .encb xs => "ENCB " ++ bitsText xs
  | .encp n bytes => "ENCP N=" ++ Nat.repr n ++ " " ++ commaText (bytes.map byteText)
  | .decf xs => "DECF " ++ bitsText xs
  | .dect xs => "DECT " ++ bitsText xs

/-- The name of a response code (R97). -/
def Rsp.text : Rsp → String
  | .ok => "OK"
  | .errParam => "ERR_PARAM"
  | .errInput => "ERR_INPUT"
  | .errCmd => "ERR_CMD"

/-- The line `-> <code> <output>` after a command that delivered bits (R106). -/
def bitResultText (r : Rsp) (out : List Bool) : String :=
  "-> " ++ r.text ++ (if out.isEmpty then "" else " " ++ bitsText out)

/-- The same after ENCP, whose output is bytes (R106). -/
def byteResultText (r : Rsp) (out : List Byte) : String :=
  "-> " ++ r.text ++ (if out.isEmpty then "" else " " ++ commaText (out.map byteText))

end Sys2Proof.Machine
end

