-- ==== Sys2Proof/Tests/Slice0.lean ====
section
/-! SUPPORT. The model's own tests: the well-formedness smoke test, the decoder on words written out from the spec's
formats, one step of each command on the vectors of spec/95_test_vectors.md, and, for every statement of the
certificates that has hypotheses, a witness that meets them. -/

namespace Sys2Proof.Tests

open Sys2Proof.Machine

/-! ### States to test on -/

/-- A VTC after power-on and a successful CFG. -/
def configuredFor (k pf : Nat) (g : List Word) : State :=
  { State.reset with cfgValid := true, code := configured k pf g }

/-- K = 3, G = {0b110, 0b101}: the source's scenario. -/
def k3 : State := configuredFor 3 2 [6#32, 5#32]

/-- K = 2, G = {0b11, 0b01}. -/
def k2 : State := configuredFor 2 2 [3#32, 1#32]

/-- K = 2, G = {0b10}: every polynomial even (V16). -/
def even : State := configuredFor 2 1 [2#32]

/-- An instance with small parameters: K_MAX = 3, P_MAX = 1, D_MAX = 15, unconfigured. -/
def small : State := { State.reset with config := { kMax := 3, pMax := 1, dMax := some 15 } }

/-- The state with items on DIN. -/
def State.withBits (s : State) (xs : List Bool) : State := { s with din := xs.map .bit }
def State.withBytes (s : State) (xs : List Byte) : State := { s with din := xs.map .byte }
def State.withWords (s : State) (xs : List Word) : State := { s with din := xs.map .word }

/-- The n low bits of a literal, its leftmost digit first: a bit string as the vectors write it. -/
def bits (n x : Nat) : List Bool := (List.range n).map fun q => x.testBit (n - 1 - q)

/-- What an outcome shows on DOUT and RSP. -/
def shown : Host.Outcome State Fault Refusal → Option (List DoutItem × List Rsp)
  | .next t => some (t.dout, t.rsp)
  | _ => none

/-- The state after, where there is one. -/
def after (o : Host.Outcome State Fault Refusal) (s : State) : State :=
  match o with
  | .next t => t
  | _ => s

def outBits (n x : Nat) : List DoutItem := (bits n x).map .bit

theorem test_k3_inv : k3.Inv :=
  ⟨by decide, fun _ => ⟨by decide, by decide, rfl⟩, rfl, rfl, .inl rfl⟩

theorem test_k2_inv : k2.Inv :=
  ⟨by decide, fun _ => ⟨by decide, by decide, rfl⟩, rfl, rfl, .inl rfl⟩

theorem test_even_inv : even.Inv :=
  ⟨by decide, fun _ => ⟨by decide, by decide, rfl⟩, rfl, rfl, .inl rfl⟩

theorem test_withBits_inv {s : State} (h : s.Inv) (xs : List Bool) : (State.withBits s xs).Inv :=
  ⟨h.config, h.code, h.trellis, h.columns, h.phase⟩

theorem test_withBytes_inv {s : State} (h : s.Inv) (xs : List Byte) : (State.withBytes s xs).Inv :=
  ⟨h.config, h.code, h.trellis, h.columns, h.phase⟩

/-! ### WellFormed refuses an ill-formed term, for each of its checks -/

theorem test_illFormed_cfg_kf : (Instr.cfg 32 0).wellFormed = false := by decide
theorem test_illFormed_cfg_pf : (Instr.cfg 0 256).wellFormed = false := by decide
theorem test_illFormed_encb : (Instr.encb 16777216).wellFormed = false := by decide
theorem test_illFormed_encp : (Instr.encp 16777216).wellFormed = false := by decide
theorem test_illFormed_decf : (Instr.decf 16777216).wellFormed = false := by decide
theorem test_illFormed_dect : (Instr.dect 16777216).wellFormed = false := by decide

/-! ### Decode: words written bit by bit from R90 to R94 -/

/-- RST: OPC = 000, the rest zero (R92). -/
theorem test_decode_rst : decode 0b000_00000000000000000000000000000#32 = .ok .rst := by decide

/-- CFG: OPC = 001, KF = 00011, PF = 00000010, zeros (R93). -/
theorem test_decode_cfg : decode 0b001_00011_00000010_0000000000000000#32 = .ok (.cfg 3 2) := by decide

/-- ENCB: OPC = 010, zeros, N = 4 (R94). -/
theorem test_decode_encb : decode 0b010_00000_000000000000000000000100#32 = .ok (.encb 4) := by decide

/-- ENCP: OPC = 011, zeros, N = 16 (R94). -/
theorem test_decode_encp : decode 0b011_00000_000000000000000000010000#32 = .ok (.encp 16) := by decide

/-- DECF: OPC = 100, zeros, N = 8 (R94). -/
theorem test_decode_decf : decode 0b100_00000_000000000000000000001000#32 = .ok (.decf 8) := by decide

/-- DECT: OPC = 101, zeros, N = 22 (R94). -/
theorem test_decode_dect : decode 0b101_00000_000000000000000000010110#32 = .ok (.dect 22) := by decide

/-- The largest fields (V15). -/
theorem test_decode_largest :
    decode 0x3FFF0000#32 = .ok (.cfg 31 255) ∧ decode 0x40FFFFFF#32 = .ok (.encb 16777215) := by decide

/-- The illegal words of V15. -/
theorem test_decode_illegal :
    decode 0x00000001#32 = .error .rstBits ∧ decode 0x10000000#32 = .error .rstBits ∧
    decode 0x1F000000#32 = .error .rstBits ∧ decode 0x23020001#32 = .error .cfgBits ∧
    decode 0x2302FFFF#32 = .error .cfgBits ∧ decode 0x41000004#32 = .error .dataBits ∧
    decode 0xC0000000#32 = .error .reservedOpc ∧ decode 0xE0000000#32 = .error .reservedOpc ∧
    decode 0xFFFFFFFF#32 = .error .reservedOpc ∧ decode 0xDEADBEEF#32 = .error .reservedOpc := by decide

/-- Encoding of the V15 headers. -/
theorem test_encode :
    encode (.cfg 3 2) = 0x23020000#32 ∧ encode (.encp 16) = 0x60000010#32 ∧ encode (.dect 22) = 0xA0000016#32 := by
  decide

/-- A row's instruction is fetched and run first after reset: CFG K = 3, PF = 2 with zero words fails the check (R124). -/
theorem test_withFetchWord_cfg :
    decodeTableWord 32 0x23020000 = some (.cfg 3 2) ∧
    shown (step (State.reset.withFetchWord 32 0x23020000)) = some ([], [.errParam]) := by decide

/-! ### One step of each command (95_test_vectors.md) -/

/-- RST clears CFG_VALID and answers OK (R120). -/
theorem test_rst :
    shown (exec .rst k3) = some ([], [.ok]) ∧ (after (exec .rst k3) k3).cfgValid = false := by decide

/-- V1: the table of K = 3, G = {6, 5}. -/
theorem test_cfg_table :
    (after (exec (.cfg 3 2) (State.withWords State.reset [6#32, 5#32])) k2).code.tt =
      [bits 2 0b00, bits 2 0b11, bits 2 0b10, bits 2 0b01, bits 2 0b01, bits 2 0b10, bits 2 0b11, bits 2 0b00] := by
  decide

/-- V14: rows (a), (c), (e), (f). -/
theorem test_cfg_bad :
    shown (exec (.cfg 1 1) (State.withWords k3 [1#32])) = some ([], [.errParam]) ∧
    shown (exec (.cfg 3 0) k3) = some ([], [.errParam]) ∧
    shown (exec (.cfg 3 2) (State.withWords k3 [6#32, 0#32])) = some ([], [.errParam]) ∧
    shown (exec (.cfg 3 2) (State.withWords k3 [6#32, 8#32])) = some ([], [.errParam]) := by decide

/-- V2: ENCB 1011, end state 3. -/
theorem test_encb :
    shown (exec (.encb 4) (State.withBits k3 (bits 4 0b1011))) = some (outBits 8 0b01101011, [.ok]) ∧
    (after (exec (.encb 4) (State.withBits k3 (bits 4 0b1011))) k3).work.encState = 3 := by decide

/-- V2: K = 4, G = {15, 11}. -/
theorem test_encb_k4 :
    shown (exec (.encb 7) (State.withBits (configuredFor 4 2 [15#32, 11#32]) (bits 7 0b1100101))) =
      some (outBits 14 0b11000101001101, [.ok]) := by decide

/-- V8: N = 9, the pad bits zero. -/
theorem test_encp :
    shown (exec (.encp 9) (State.withBytes k3 [0xB5#8, 0x80#8])) =
      some ([.byte 0x6B#8, .byte 0x6A#8, .byte 0xC0#8], [.ok]) := by decide

/-- V8: P = 3, N = 5. -/
theorem test_encp_p3 :
    shown (exec (.encp 5) (State.withBytes (configuredFor 3 3 [7#32, 6#32, 5#32]) [0x68#8])) =
      some ([.byte 0x15#8, .byte 0x94#8], [.ok]) := by decide

/-- V4: a flip of bit 4 is corrected, a flip of bit 5 is not. -/
theorem test_decf :
    shown (exec (.decf 8) (State.withBits k3 (bits 8 0b01100011))) = some (outBits 4 0b1011, [.ok]) ∧
    shown (exec (.decf 8) (State.withBits k3 (bits 8 0b01101111))) = some (outBits 4 0b1001, [.ok]) := by decide

/-- V12: DECF of the received sequence that a window boundary divides. -/
theorem test_decf_v12 :
    shown (exec (.decf 22) (State.withBits k2 (bits 22 0b1000001101011000111110))) =
      some (outBits 11 0b00011100110, [.ok]) := by decide +kernel

/-- V12: DECT of the same sequence. -/
theorem test_dect_v12 :
    shown (exec (.dect 22) (State.withBits k2 (bits 22 0b1000001101011000111110))) =
      some (outBits 11 0b00011100100, [.ok]) := by decide +kernel

/-- Program 1, command 5, "for definiteness": T = 4, OUT_OFF = 4, MODE = 1, BEST = 2, TB_STATE = 0, PM = [2, 2, 1, 1]. -/
theorem test_dect_work :
    let w := (after (exec (.dect 8) (State.withBits k3 (bits 8 0b01101111))) k3).work
    w.t = 4#24 ∧ w.outOff = 4#24 ∧ w.mode = .truncated ∧ w.best = 2 ∧ w.tbState = 0 ∧
      w.pm = [2#8, 2#8, 1#8, 1#8] ∧ w.colcnt = 0 ∧ w.tr = [] := by decide

/-- V5: the unit vectors of the column step that show an unequal choice and saturation. -/
theorem test_colStep :
    (colStep k3.code (bits 2 0b00) { Work.reset with pm := [5#8, 5#8, 5#8, 5#8] }).pm = [5#8, 6#8, 6#8, 5#8] ∧
    (colStep k3.code (bits 2 0b00) { Work.reset with pm := [5#8, 5#8, 5#8, 5#8] }).tr = [[0, 2, 0, 3]] ∧
    (colStep k3.code (bits 2 0b11) { Work.reset with pm := [254#8, 253#8, 10#8, 255#8] }).pm =
      [253#8, 11#8, 254#8, 10#8] ∧
    (colStep k3.code (bits 2 0b11) { Work.reset with pm := [254#8, 253#8, 10#8, 255#8] }).tr = [[1, 2, 1, 2]] := by
  decide

/-- R106: lines of the test programs, and the pseudo-form of R107. -/
theorem test_text :
    (Command.cfg 3 [6#32, 5#32]).text = "CFG K=3 G=6,5" ∧ (Command.encb (bits 4 0b1011)).text = "ENCB 1011" ∧
    (Command.encb []).text = "ENCB -" ∧ (Command.encp 9 [0xB5#8, 0x80#8]).text = "ENCP N=9 0xB5,0x80" ∧
    bitResultText .ok (bits 4 0b1011) = "-> OK 1011" ∧
    Command.encpWhole [0xB5#8] = .encp 8 [0xB5#8] := by decide

/-- A command issued and run in one step: its header on CMD, its operands on DIN. -/
theorem test_issue :
    shown (step (k3.issue (.encb (bits 4 0b1011)))) = some (outBits 8 0b01101011, [.ok]) ∧
    shown (step (State.reset.issue .rst)) = some ([], [.ok]) := by decide

/-- R97: the response codes. -/
theorem test_rsp_codes :
    Rsp.ok.code = 0b00#2 ∧ Rsp.errParam.code = 0b01#2 ∧ Rsp.errInput.code = 0b10#2 ∧ Rsp.errCmd.code = 0b11#2 := by
  decide

/-- V15: responses of an unconfigured VTC and of bad lengths. -/
theorem test_errInput :
    shown (exec (.dect 0) State.reset) = some ([], [.errInput]) ∧
    shown (exec (.encp 8) (State.withBytes State.reset [0xB5#8])) = some ([], [.errInput]) ∧
    shown (exec (.decf 7) (State.withBits k3 (bits 7 0b0110101))) = some ([], [.errInput]) := by decide

/-! ### Witnesses: concrete values that meet the hypotheses of each statement -/

theorem test_witness_StepRunsTheDecodedCommand :
    let s := { State.withBits k3 (bits 4 0b1011) with cmd := [0x40000004#32, 0#32] }
    (s.phase = .idle ∧ s.cmd = 0x40000004#32 :: [0#32] ∧ decode 0x40000004#32 = .ok (.encb 4)) ∧
    (let c := { s with phase := .check, hdr := 0x40000004#32 }
     c.phase = .check ∧ decode c.hdr = .ok (.encb 4)) ∧
    (k3.phase = .idle ∧ k3.cmd = []) := by decide

/-- The premise "illegal" by each of its clauses, at a boundary value, and words just outside them. -/
theorem test_witness_IllegalHeadersTakeInvalidCommand :
    6 ≤ (0xC0000000#32 : Word).toNat / 2 ^ 29 ∧
    ((0x00000001#32 : Word).toNat / 2 ^ 29 = 0 ∧ (0x00000001#32 : Word).toNat % 2 ^ 29 ≠ 0) ∧
    ((0x20008000#32 : Word).toNat / 2 ^ 29 = 1 ∧ (0x20008000#32 : Word).toNat % 2 ^ 16 ≠ 0) ∧
    ((0xA1000000#32 : Word).toNat / 2 ^ 29 = 5 ∧ (0xA1000000#32 : Word).toNat / 2 ^ 24 % 2 ^ 5 ≠ 0) ∧
    decode 0xA0FFFFFF#32 = .ok (.dect 16777215) ∧ decode 0x20010000#32 = .ok (.cfg 0 1) ∧
    ({ k3 with cmd := [0xC0000000#32] } : State).phase = .idle ∧
    step { k3 with cmd := [0xC0000000#32] } =
      .next { k3 with hdr := 0xC0000000#32, rsp := [.errCmd] } := by
  refine ⟨by decide, by decide, by decide, by decide, by decide, by decide, rfl, rfl⟩

theorem test_witness_DecodeOfEncode :
    Instr.rst.wellFormed = true ∧ (Instr.cfg 31 255).wellFormed = true ∧ (Instr.cfg 0 0).wellFormed = true ∧
    (Instr.encb 16777215).wellFormed = true ∧ (Instr.encp 16777215).wellFormed = true ∧
    (Instr.decf 16777215).wellFormed = true ∧ (Instr.dect 16777215).wellFormed = true := by decide

theorem test_witness_EncodeOfDecode : decode 0x3FFF0000#32 = .ok (.cfg 31 255) := by decide

theorem test_witness_BitReversalWithinK :
    (0b1011 < 2 ^ 4 ∧ 3 < 4 ∧ (0b1011 : Nat) ≠ 0) ∧ ((0 : Nat) < 2 ^ 0) ∧ revK 4 0b1011 = 0b1101 := by decide

theorem test_witness_ParityCountsOneBits : 0xFF < 2 ^ 8 ∧ parity 8 0xFF = false ∧ (0 : Nat) < 2 ^ 0 := by decide

theorem test_witness_NextStateShiftsTheBitIn :
    (2 ≤ 2 ∧ 1 < 2 ^ (2 - 1)) ∧ (2 ≤ 31 ∧ 2 ^ 30 - 1 < 2 ^ (31 - 1)) ∧ nextState 2 1 true = 1 := by decide

theorem test_witness_TableIsThatOfTheParameters :
    k3.Inv ∧ k3.cfgValid = true ∧ 7 < 2 ^ k3.code.kVal ∧ k3.code.g[1]? = some 5#32 ∧
    ∃ t, exec (.encb 0) k3 = .next t :=
  ⟨test_k3_inv, by decide, by decide, by decide, _, rfl⟩

theorem test_witness_TableProperties :
    k3.code.Ok Config.largest ∧ k3.code.Ok { kMax := 3, pMax := 2, dMax := none } ∧ 3 < 2 ^ (k3.code.kVal - 1) ∧
    7 < 2 ^ k3.code.kVal ∧ k3.code.g[0]? = some 6#32 :=
  ⟨⟨by decide, by decide, rfl⟩, ⟨by decide, by decide, rfl⟩, by decide, by decide, by decide⟩

/-- At both ends of the ranges of K and P. -/
theorem test_witness_CfgBuildsTheConfiguration :
    let g : List Word := [1#32]
    let s := State.withWords small g
    s.din = g.map .word ++ [] ∧ (2 ≤ 2 ∧ 2 ≤ s.config.kMax.val) ∧ (2 ≤ 3 ∧ 3 = s.config.kMax.val) ∧
    1 ≤ g.length ∧ g.length = s.config.pMax.val ∧ (∀ x ∈ g, x.toNat ≠ 0 ∧ x.toNat < 2 ^ 2) :=
  ⟨by decide, by decide, by decide, by decide, by decide, by simp⟩

/-- Each of the five conditions fails, at a boundary value. -/
theorem test_witness_CfgWithBadParametersUnconfigures :
    (State.withWords k3 [1#32]).din = [1#32].map .word ++ [] ∧ 1 < 2 ∧ small.config.kMax.val < 4 ∧
    ([] : List Word).length = 0 ∧ small.config.pMax.val < [1#32, 1#32].length ∧
    (∃ x ∈ [6#32, 0#32], x.toNat = 0 ∨ 2 ^ 3 ≤ x.toNat) ∧ (∃ x ∈ [6#32, 8#32], x.toNat = 0 ∨ 2 ^ 3 ≤ x.toNat) :=
  ⟨by decide, by decide, by decide, by decide, by decide, ⟨0#32, by simp⟩, ⟨8#32, by simp⟩⟩

theorem test_witness_EncbDeliversTheConvolution :
    (State.withBits k3 (bits 4 0b1011)).Inv ∧ k3.cfgValid = true ∧
    (State.withBits k3 (bits 4 0b1011)).din = (bits 4 0b1011).map .bit ++ [] ∧ 1 < k3.code.kVal - 1 ∧
    codeword 3 [6#32, 5#32] (bits 4 0b1011) = bits 8 0b01101011 :=
  ⟨test_withBits_inv test_k3_inv _, by decide, by decide, by decide, by decide⟩

theorem test_witness_EncodingIsLinear :
    k3.code.Ok Config.largest ∧ (bits 4 0b1011).length = (bits 4 0b0110).length :=
  ⟨⟨by decide, by decide, rfl⟩, by decide⟩

/-- Both clauses: the last payload bit, and the first and last pad bit. -/
theorem test_witness_PackedBytesAreMsbFirst :
    let e := bits 9 0b101101011
    8 < e.length ∧ (e.length ≤ 9 ∧ 9 < 8 * byteCount e.length) ∧ (e.length ≤ 15 ∧ 15 < 8 * byteCount e.length) := by
  decide

theorem test_witness_EncpDeliversPackedBytes :
    (State.withBytes k3 [0xB5#8, 0x80#8]).Inv ∧ k3.cfgValid = true ∧ [0xB5#8, 0x80#8].length = byteCount 9 ∧
    (State.withBytes k3 [0xB5#8, 0x80#8]).din = [0xB5#8, 0x80#8].map .byte ++ [] :=
  ⟨test_withBytes_inv test_k3_inv _, by decide, by decide, by decide⟩

theorem test_witness_EncpIsPackedEncb :
    k3.Inv ∧ k3.cfgValid = true ∧ [0xB5#8, 0x80#8].length = byteCount 9 ∧ ([] : List Byte).length = byteCount 0 :=
  ⟨test_k3_inv, by decide, by decide, by decide⟩

theorem test_witness_PredecessorsInvertNext :
    (2 ≤ 2 ∧ 1 < 2 ^ (2 - 1) ∧ nextState 2 1 true = 1) ∧ (2 ≤ 4 ∧ 5 < 2 ^ (4 - 1) ∧ pred 4 5 true = 3) := by decide

theorem test_witness_BranchMetricIsHammingDistance :
    (bits 3 0b101).length = 3 ∧ (bits 3 0b100).length = 3 ∧ branchMetric (bits 3 0b101) (bits 3 0b100) = 1 := by decide

theorem test_witness_SaturatingAddStopsAtTheSentinel : satAdd 255#8 3 = 255#8 ∧ satAdd 100#8 3 = 103#8 := by decide

/-- The first tick of a decode leads to such a moment, in DECF (N = 0: a selection) and in DECT. -/
theorem test_witness_DecodeStartsInStateZero :
    (0 < 3 ∧ 3 < 2 ^ (k3.code.kVal - 1)) ∧ 22 < 2 ^ 24 ∧
    ((Run.start (.decf 0) k3).map fun r => ((Run.ticks 1 r).s.phase, (Run.ticks 1 r).s.work.t)) =
      some (.select, 0#24) ∧
    ((Run.start (.dect 22) (State.withBits k2 (bits 22 0b1000001101011000111110))).map
      fun r => ((Run.ticks 1 r).s.phase, (Run.ticks 1 r).s.work.t)) = some (.acs, 0#24) := by decide

theorem test_witness_ColumnStepSelectsTheBestPredecessor :
    k3.code.Ok Config.largest ∧ (bits 2 0b00).length = k3.code.pVal ∧ 3 < 2 ^ (k3.code.kVal - 1) ∧
    nextState k3.code.kVal 2 true = 3 ∧ nextState k3.code.kVal 3 true = 3 :=
  ⟨⟨by decide, by decide, rfl⟩, by decide, by decide, by decide, by decide⟩

/-- V6. -/
theorem test_witness_BestStateIsTheLeastMinimum :
    [3#8, 1#8, 1#8, 2#8].length = 2 ^ (k3.code.kVal - 1) ∧ bestState k3.code [3#8, 1#8, 1#8, 2#8] = 1 := by decide

theorem test_witness_TracebackFollowsTheRecordedPath :
    let w := columnSteps k3.code [bits 2 0b01, bits 2 0b10] (Work.reset.decodeStart k3.code .full)
    w.colcnt = w.tr.length ∧ w.colcnt = 2 ∧ (traceback k3.code w).1 = bits 2 0b10 := by decide

theorem test_witness_PathMetricIsTheLeastDistance :
    k3.code.Ok Config.largest ∧ (∀ r ∈ [bits 2 0b01, bits 2 0b10], r.length = k3.code.pVal) ∧
    1 < 2 ^ (k3.code.kVal - 1) ∧
    (readMetric (columnSteps k3.code [bits 2 0b01, bits 2 0b10] (Work.reset.decodeStart k3.code .full)).pm 1).toNat
      < 255 ∧
    (bits 2 0b10).length = 2 ∧ endState k3.code.kVal (bits 2 0b10) = 1 :=
  ⟨⟨by decide, by decide, rfl⟩, by decide, by decide, by decide, by decide, by decide⟩

theorem test_witness_SaturatedMetricsForgetTheInput :
    ({ Work.reset with pm := [255#8, 255#8] } : Work).pm = List.replicate (2 ^ (k2.code.kVal - 1)) 255#8 := by decide

theorem test_witness_DecfReturnsAClosestInput :
    let r := bits 8 0b01101111
    let s := State.withBits k3 r
    s.Inv ∧ s.cfgValid = true ∧ s.din = r.map .bit ++ [] ∧ r.length % s.code.pVal = 0 ∧
    s.config.fits (r.length / s.code.pVal) = true ∧ (bits 4 0b1011).length = 4 ∧
    hamming (codeword s.code.kVal s.code.g (bits 4 0b1011)) r < 255 :=
  ⟨test_withBits_inv test_k3_inv _, by decide, by decide, by decide, by decide, by decide, by decide⟩

/-- V12, n = 11 and WIN = 10: the whole window f = 0 and the last partial window f = 1 of one column; f = 2 is none. -/
theorem test_witness_DectDeliversOneBitPerSymbol :
    let r := bits 22 0b1000001101011000111110
    let s := State.withBits k2 r
    s.Inv ∧ s.cfgValid = true ∧ s.din = r.map .bit ++ [] ∧ r.length % s.code.pVal = 0 ∧
    0 * (5 * s.code.kVal) < r.length / s.code.pVal ∧ 1 * (5 * s.code.kVal) < r.length / s.code.pVal ∧
    ¬ 2 * (5 * s.code.kVal) < r.length / s.code.pVal :=
  ⟨test_withBits_inv test_k2_inv _, by decide, by decide, by decide, by decide, by decide, by decide⟩

/-- V12: after the last symbol PM = [2, 3], so the second window starts from state 0 of metrics that the flush after symbol
9 (PM = [2, 2]) left as they were. -/
theorem test_dect_metrics_persist :
    let rs := symbols 2 11 (bits 22 0b1000001101011000111110)
    (columnSteps k2.code (rs.take 10) (Work.reset.decodeStart k2.code .truncated)).pm = [2#8, 2#8] ∧
    (columnSteps k2.code rs (Work.reset.decodeStart k2.code .truncated)).pm = [2#8, 3#8] ∧
    (after (exec (.dect 22) (State.withBits k2 (bits 22 0b1000001101011000111110))) k2).work.pm = [2#8, 3#8] := by
  decide +kernel

theorem test_witness_NoiselessRoundTrip :
    let x := bits 4 0b1011
    let s := State.withBits k3 (codeword k3.code.kVal k3.code.g x)
    s.Inv ∧ s.cfgValid = true ∧ (∃ g ∈ s.code.g, g.toNat.testBit 0 = true) ∧
    s.din = (codeword s.code.kVal s.code.g x).map .bit ++ [] ∧ s.config.fits x.length = true :=
  ⟨test_withBits_inv test_k3_inv _, by decide, ⟨5#32, by decide, by decide⟩, by decide, by decide⟩

/-- V16: ENCB 101 gives 010. -/
theorem test_witness_EvenCodesLoseTheLastBit :
    let x := bits 2 0b10
    let s := State.withBits even (codeword even.code.kVal even.code.g (x ++ [true]))
    s.Inv ∧ s.cfgValid = true ∧ (∀ g ∈ s.code.g, g.toNat.testBit 0 = false) ∧
    s.din = (codeword s.code.kVal s.code.g (x ++ [true])).map .bit ++ [] ∧ s.din = (bits 3 0b010).map .bit ∧
    s.config.fits (x.length + 1) = true :=
  ⟨test_withBits_inv test_even_inv _, by decide, by simp [even, configuredFor, configured, State.withBits], by decide,
    by decide, by decide⟩

/-- V11, exactly one window: n = 10 = WIN. -/
theorem test_witness_DectAgreesWithDecfWithinOneWindow :
    let r := bits 20 0b11101101100011010110
    let s := State.withBits k2 r
    s.Inv ∧ s.cfgValid = true ∧ s.din = r.map .bit ++ [] ∧ r.length % s.code.pVal = 0 ∧
    r.length / s.code.pVal = 5 * s.code.kVal :=
  ⟨test_withBits_inv test_k2_inv _, by decide, by decide, by decide, by decide⟩

theorem test_witness_DectWindowsAreFinal :
    k2.Inv ∧ k2.cfgValid = true ∧
    (bits 20 0b11101101100011010110).length % (5 * k2.code.kVal * k2.code.pVal) = 0 ∧
    (bits 2 0b11).length % k2.code.pVal = 0 :=
  ⟨test_k2_inv, by decide, by decide, by decide⟩

/-- Each ground of InvalidInput: unconfigured, a length P does not divide, more columns than D_MAX (16 > 15). -/
theorem test_witness_InvalidInputChangesNothing :
    (State.withBits State.reset (bits 1 1)).cfgValid = false ∧
    (State.withBits State.reset (bits 1 1)).din = (bits 1 1).map .bit ++ [] ∧
    (bits 7 0b0110101).length % k3.code.pVal ≠ 0 ∧
    (∃ d, small.config.dMax = some d ∧ d < (List.replicate 16 true).length / even.code.pVal) ∧
    (State.withBytes State.reset [0xB5#8]).din = [0xB5#8].map .byte ++ [] ∧ [0xB5#8].length = byteCount 8 :=
  ⟨by decide, by decide, by decide, ⟨15, by decide, by decide⟩, by decide, by decide⟩

/-- One item short, for each command that has operands; and a VTC that waits. -/
theorem test_witness_StarvedCommandsWait :
    ((State.withWords k3 [6#32]).din = [6#32].map .word ∧ [6#32].length < 2) ∧
    ((State.withBits k3 (bits 3 0b101)).din = (bits 3 0b101).map .bit ∧ (bits 3 0b101).length < 4) ∧
    ((State.withBytes k3 [0xB5#8]).din = [0xB5#8].map .byte ∧ [0xB5#8].length < byteCount 9) ∧
    (let w := { State.withBits k3 (bits 3 0b101) with phase := .check, hdr := 0x40000004#32 }
     w.phase = .check ∧ decode w.hdr = .ok (.encb 4)) := by decide

theorem test_witness_WrongItemSizesAreRefused :
    ({ k3 with din := [.word 6#32, .bit true] } : State).din = [6#32].map .word ++ .bit true :: [] ∧
    [6#32].length < 2 ∧ (DinItem.bit true).asWord = none ∧
    ({ k3 with din := [.bit true, .byte 0#8] } : State).din = [true].map .bit ++ .byte 0#8 :: [] ∧
    [true].length < 2 ∧ (DinItem.byte 0#8).asBit = none ∧
    ({ k3 with din := [.word 0#32] } : State).din = ([] : List Byte).map .byte ++ .word 0#32 :: [] ∧
    ([] : List Byte).length < byteCount 1 ∧ (DinItem.word 0#32).asByte = none ∧
    exec (.encb 2) { k3 with din := [.bit true, .byte 0#8] } = .refused .dinItemSize := by
  refine ⟨by decide, by decide, by decide, by decide, by decide, by decide, by decide, by decide, by decide, rfl⟩

theorem test_witness_OneResponsePerCommand : ∃ t, exec (.encb 0) State.reset = .next t ∧ t.rsp = [.errInput] :=
  ⟨_, rfl, by decide⟩

/-- A command runs, from a state of the invariant. -/
theorem test_witness_StepKeepsInv :
    let s := { State.withBits k3 (bits 4 0b1011) with cmd := [0x40000004#32] }
    s.Inv ∧ ∃ t, step s = .next t ∧ t.dout = outBits 8 0b01101011 :=
  ⟨⟨test_k3_inv.config, test_k3_inv.code, rfl, rfl, .inl rfl⟩, _, rfl, by decide⟩

/-- Both outcomes of the statement occur from states of the invariant. -/
theorem test_witness_NothingStopsButWrongItems :
    let s := { k3 with cmd := [0x40000001#32], din := [.byte 0#8] }
    s.Inv ∧ step s = .refused .dinItemSize :=
  ⟨⟨test_k3_inv.config, test_k3_inv.code, rfl, rfl, .inl rfl⟩, rfl⟩

theorem test_witness_StepRevisesNothingDelivered :
    ∃ t, step { State.withBits k3 (bits 4 0b1011) with cmd := [0x40000004#32] } = .next t ∧ t.rsp = [.ok] :=
  ⟨_, rfl, by decide⟩

/-- V17: the same command after another history, here another ENC_STATE and counter. -/
theorem test_witness_ResultsDoNotDependOnHistory :
    let s := State.withBits k3 (bits 4 0b1011)
    let s' := { s with work := { s.work with encState := 3, pm := [2#8, 2#8, 1#8, 1#8] }, drawn := 7 }
    s'.config = s.config ∧ s'.cfgValid = s.cfgValid ∧ (s.cfgValid = true → s'.code = s.code) ∧ s'.din = s.din ∧
    ∃ t, exec (.encb 4) s = .next t :=
  ⟨rfl, rfl, fun _ => rfl, rfl, _, rfl⟩

theorem test_witness_SequencerRunsTheMeaning :
    (Instr.decf 8).wellFormed = true ∧
    (Run.start (.decf 8) (State.withBits k3 (bits 8 0b01101111))).isSome = true ∧
    ((Run.start (.decf 8) (State.withBits k3 (bits 8 0b01101111))).map
      fun r => ((Run.ticks 12 r).s.phase, (Run.ticks 12 r).s.dout)) = some (.idle, outBits 4 0b1001) := by decide

/-- Phases along a run: DECF from CHECK on; DECT at the end of its first window, in its traceback and after it. -/
theorem test_witness_TicksFollowThePhaseTable :
    (Instr.decf 8).wellFormed = true ∧ (Instr.dect 22).wellFormed = true ∧
    ((Run.start (.decf 8) (State.withBits k3 (bits 8 0b01101111))).map
      fun r => [0, 1, 4, 5, 6, 10, 11, 12].map fun m => (Run.ticks m r).s.phase) =
      some [.check, .acs, .acs, .select, .trace, .trace, .respond, .idle] ∧
    ((Run.start (.dect 22) (State.withBits k2 (bits 22 0b1000001101011000111110))).map
      fun r => [10, 11, 12, 22, 23, 24, 25, 26, 27, 28].map fun m => (Run.ticks m r).s.phase) =
      some [.acs, .select, .trace, .trace, .acs, .select, .trace, .trace, .respond, .idle] ∧
    ((Run.start (.encb 1) (State.withBits k3 (bits 1 1))).map
      fun r => [1, 2, 3, 4].map fun m => (Run.ticks m r).s.phase) = some [.enc, .enc, .respond, .idle] := by
  decide +kernel

/-- A selection is due, in either mode. -/
theorem test_witness_ColumnCountIsStepsSinceTheFlush :
    (State.withBits k3 (bits 8 0b01101111)).Inv ∧ 8 < 2 ^ 24 ∧
    ((Run.start (.decf 8) (State.withBits k3 (bits 8 0b01101111))).map
      fun r => ((Run.ticks 5 r).s.phase, (Run.ticks 5 r).s.work.colcnt)) = some (.select, 4) ∧
    ((Run.start (.dect 22) (State.withBits k2 (bits 22 0b1000001101011000111110))).map
      fun r => ((Run.ticks 11 r).s.phase, (Run.ticks 11 r).s.work.colcnt)) = some (.select, 10) :=
  ⟨test_withBits_inv test_k3_inv _, by decide, by decide, by decide⟩

/-- After two symbols two columns are held; the entry of state 1 in the second is 2. -/
theorem test_witness_TrellisEntriesArePredecessors :
    (State.withBits k3 (bits 8 0b01101111)).Inv ∧
    ((Run.start (.decf 8) (State.withBits k3 (bits 8 0b01101111))).map
      fun r => (Run.ticks 3 r).s.work.tr) = some [[0, 2, 0, 2], [0, 2, 0, 2]] :=
  ⟨test_withBits_inv test_k3_inv _, by decide⟩

/-- A noisy input with a tie at the selection (V4, bit 5 flipped). -/
theorem test_witness_DecfDeliversTheSurvivorPath :
    let r := bits 8 0b01101111
    let s := State.withBits k3 r
    s.Inv ∧ s.cfgValid = true ∧ s.din = r.map .bit ++ [] ∧ r.length % s.code.pVal = 0 ∧
    s.config.fits (r.length / s.code.pVal) = true :=
  ⟨test_withBits_inv test_k3_inv _, by decide, by decide, by decide, by decide⟩

end Sys2Proof.Tests
end

section
/-! SUPPORT. What the statements on the decoder's state need beside the laws: PM at the start of a decode call, the
entries of a column step, and what holds of a decode at every tick. -/

namespace Sys2Proof.Machine

/-! ### PM at the start of a decode call (R41) -/

theorem getElem?_startMetrics (c : Code) {s : Nat} (hs : s < 2 ^ (c.kVal - 1)) :
    (startMetrics c)[s]? = some (if s = 0 then 0#8 else inf) := by
  simp [startMetrics, hs]

/-- The start of R41: S entries, state 0 at 0, every other state at the sentinel. -/
theorem startMetrics_spec (c : Code) :
    (startMetrics c).length = 2 ^ (c.kVal - 1) ∧ (startMetrics c)[0]? = some 0#8 ∧
    ∀ s, 0 < s → s < 2 ^ (c.kVal - 1) → (startMetrics c)[s]? = some 255#8 := by
  refine ⟨by simp [startMetrics], getElem?_startMetrics c (Nat.two_pow_pos _), fun s h0 hs => ?_⟩
  rw [getElem?_startMetrics c hs, if_neg (Nat.ne_of_gt h0)]
  rfl

/-! ### A decode, tick by tick (R38, R41) -/

/-- What holds of the run of a DECF or DECT at every tick: it is still in CHECK; or its columns are being made and walked,
T has not wrapped and cannot (the symbols left are too few), and while T = 0 no column step has touched PM; or it has
nothing left to do but answer. -/
inductive Run.Decoding (r : Run) : Prop where
  | check (n : Nat) (phase : r.s.phase = .check) (instr : r.instr = .decf n ∨ r.instr = .dect n) (fits : n < 2 ^ 24)
  | columns (phase : r.s.phase = .acs ∨ r.s.phase = .select ∨ r.s.phase = .trace)
      (count : r.s.work.t.toNat + r.syms.length < 2 ^ 24)
      (start : r.s.work.t = 0#24 → r.s.work.pm = startMetrics r.s.code)
  | answered (phase : r.s.phase = .respond ∨ r.s.phase = .idle)

namespace Run

theorem fail_decoding (r : Run) (e : Exc) : (r.fail e).Decoding := .answered (.inl rfl)

/-- CHECK's start of a decode call: T = 0, PM as R41 has it, N / P symbols ahead; with none of them, at SELECT (DECF) or
at RESPOND (DECT). -/
theorem enterDecode_decoding (r : Run) {n : Nat} (hn : n < 2 ^ 24) (m : Mode) {empty : Phase}
    (he : empty = .select ∨ empty = .respond) : (r.enterDecode n m empty).Decoding := by
  have hcount : n / r.s.code.pVal < 2 ^ 24 := Nat.lt_of_le_of_lt (Nat.div_le_self _ _) hn
  have columns (h : (r.enterDecode n m empty).s.phase = .acs ∨ (r.enterDecode n m empty).s.phase = .select) :
      (r.enterDecode n m empty).Decoding := by
    refine .columns (h.imp_right .inl) ?_ fun _ => rfl
    simpa [enterDecode, symbols_length] using hcount
  by_cases h0 : n / r.s.code.pVal = 0
  · have hp : (r.enterDecode n m empty).s.phase = empty := by simp [enterDecode, h0]
    rcases he with rfl | rfl
    · exact columns (.inr hp)
    · exact .answered (.inl hp)
  · exact columns (.inl (by simp [enterDecode, h0]))

theorem check_decoding {r : Run} {n : Nat} (hi : r.instr = .decf n ∨ r.instr = .dect n) (hn : n < 2 ^ 24) :
    r.check.Decoding := by
  rcases hi with hi | hi <;> simp only [check, hi] <;> split
  · exact enterDecode_decoding r hn _ (.inl rfl)
  · exact fail_decoding r _
  · exact enterDecode_decoding r hn _ (.inr rfl)
  · exact fail_decoding r _

/-- A column step takes T away from 0; with no symbol left ACS does nothing. -/
theorem acs_decoding {r : Run} (hp : r.s.phase = .acs) (count : r.s.work.t.toNat + r.syms.length < 2 ^ 24)
    (start : r.s.work.t = 0#24 → r.s.work.pm = startMetrics r.s.code) : r.acs.Decoding := by
  unfold acs
  cases hs : r.syms with
  | nil => exact .columns (.inl hp) count start
  | cons x xs =>
    rw [hs, List.length_cons] at count
    have ht : (r.s.work.t + 1#24).toNat = r.s.work.t.toNat + 1 := by
      rw [BitVec.toNat_add, BitVec.toNat_ofNat]; omega
    refine .columns ?_ ?_ fun h0 => ?_
    · dsimp only; split <;> simp
    · dsimp only; rw [colStep_t, ht]; omega
    · dsimp only at h0; rw [colStep_t] at h0; rw [h0] at ht; simp at ht

/-- A traceback step and the delivery keep T and PM. -/
theorem trace_decoding {r : Run} (hp : r.s.phase = .trace) (count : r.s.work.t.toNat + r.syms.length < 2 ^ 24)
    (start : r.s.work.t = 0#24 → r.s.work.pm = startMetrics r.s.code) : r.trace.Decoding := by
  unfold trace
  split
  · by_cases hn : r.s.work.t.toNat < r.n
    · exact .columns (.inl (by simp [deliver, hn])) count start
    · exact .answered (.inl (by simp [deliver, hn]))
  · exact .columns (.inr (.inr hp)) count start

theorem respond_phase (r : Run) : r.respond.s.phase = .idle := by
  unfold respond; split <;> rfl

theorem tick_decoding {r : Run} (h : r.Decoding) : r.tick.Decoding := by
  cases h with
  | check n hp hi hn => simpa only [tick, hp] using check_decoding hi hn
  | columns hp count start =>
    rcases hp with hp | hp | hp
    · simpa only [tick, hp] using acs_decoding hp count start
    · simpa only [tick, hp] using .columns (.inr (.inr rfl)) count start
    · simpa only [tick, hp] using trace_decoding hp count start
  | answered hp =>
    rcases hp with hp | hp
    · simpa only [tick, hp] using .answered (.inr r.respond_phase)
    · rw [tick_of_idle hp]; exact .answered (.inr hp)

theorem ticks_decoding {r : Run} (h : r.Decoding) (m : Nat) : (ticks m r).Decoding := by
  induction m generalizing r with
  | zero => exact h
  | succ m ih => exact ih (tick_decoding h)

theorem start_decoding {s : State} {n : Nat} {r : Run} (hn : n < 2 ^ 24)
    (h : start (.decf n) s = some r ∨ start (.dect n) s = some r) : r.Decoding := by
  rcases h with h | h
  · exact .check n (start_phase h).1 (.inl (start_phase h).2) hn
  · exact .check n (start_phase h).1 (.inr (start_phase h).2) hn

/-- When a column step or a selection is due at T = 0, PM is the start of the call. -/
theorem Decoding.pm_eq_startMetrics {r : Run} (h : r.Decoding) (hp : r.s.phase = .acs ∨ r.s.phase = .select)
    (ht : r.s.work.t = 0#24) : r.s.work.pm = startMetrics r.s.code := by
  cases h with
  | check _ hc => simp [hc] at hp
  | columns _ _ start => exact start ht
  | answered ha => rcases ha with ha | ha <;> simp [ha] at hp

end Run

/-! ### The entries of a column step (R42, R165, R166) -/

theorem getElem?_colStep_pm (c : Code) (r : Symbol) (w : Work) {s : Nat} (hs : s < 2 ^ (c.kVal - 1)) :
    (colStep c r w).pm[s]? = some (acs c w.pm r s).1 := by
  simp [hs]

theorem getElem?_colStep_colbuf (c : Code) (r : Symbol) (w : Work) {s : Nat} (hs : s < 2 ^ (c.kVal - 1)) :
    (colStep c r w).colbuf[s]? = some (acs c w.pm r s).2 := by
  simp [colStep, hs]

theorem colStep_colbuf_length (c : Code) (r : Symbol) (w : Work) :
    (colStep c r w).colbuf.length = 2 ^ (c.kVal - 1) := by
  simp [colStep]

/-- PM and PMN are the new vector, COLBUF and the column appended to TR the new column; the rest is kept (R166). -/
theorem colStep_eq (c : Code) (r : Symbol) (w : Work) :
    colStep c r w =
      { w with
        pm := (colStep c r w).pm, pmn := (colStep c r w).pm, colbuf := (colStep c r w).colbuf
        tr := w.tr ++ [(colStep c r w).colbuf], colcnt := w.colcnt + 1, t := w.t + 1#24 } := rfl

/-- The states from which some input bit leads to s are its two predecessors (R42). -/
theorem exists_nextState_eq_iff {k s q : Nat} (hk : 2 ≤ k) (hs : s < 2 ^ (k - 1)) (hq : q < 2 ^ (k - 1)) :
    (∃ b, nextState k q b = s) ↔ q = pred k s false ∨ q = pred k s true := by
  simp [nextState_eq_iff hk hs hq]

theorem pred_true_eq_succ {k : Nat} (hk : 2 ≤ k) (s : Nat) : pred k s true = pred k s false + 1 := by
  simp [pred_eq _ _ _ hk]

theorem pred_two (s : Nat) (x : Bool) : pred 2 s x = x.toNat := by
  simp [pred_eq 2 s x (Nat.le_refl 2)]

/-- The candidate metric in terms of the table's row and the Hamming distance (R162, R163). -/
theorem candidate_eq (c : Code) (pm : List Metric) (r : Symbol) (p s : Nat) :
    candidate c pm r p s =
      satAdd (readMetric pm p) (hamming r (c.readRow (idx c.kVal p (inbit c.kVal s)))) := by
  rw [candidate, branchMetric_eq_hamming, edgeOut]

/-! ### The configuration over a data command (R40) -/

/-- A data command that answers, whether it completes, fails its check or waits, keeps K, P, G, TT and CFG_VALID. -/
theorem dataCommand_keeps_configuration {s t : State} {n : Nat}
    (h : exec (.encb n) s = .next t ∨ exec (.encp n) s = .next t ∨ exec (.decf n) s = .next t ∨
      exec (.dect n) s = .next t) : t.code = s.code ∧ t.cfgValid = s.cfgValid := by
  rcases h with h | h | h | h
  · obtain ⟨_, _, _, ⟨_, rfl⟩ | ⟨_, rfl⟩⟩ | ⟨_, rfl⟩ := execEncb_next h <;> exact ⟨rfl, rfl⟩
  · obtain ⟨_, _, _, ⟨_, rfl⟩ | ⟨_, rfl⟩⟩ | ⟨_, rfl⟩ := execEncp_next h <;> exact ⟨rfl, rfl⟩
  · obtain ⟨_, _, _, ⟨_, rfl⟩ | ⟨_, rfl⟩⟩ | ⟨_, rfl⟩ := execDecf_next h <;> exact ⟨rfl, rfl⟩
  · obtain ⟨_, _, _, ⟨_, rfl⟩ | ⟨_, rfl⟩⟩ | ⟨_, rfl⟩ := execDect_next h <;> exact ⟨rfl, rfl⟩

/-! ### The statements -/

/-- Settles O10: the invariant holds the built table, and no data command writes the configuration. -/
theorem tableIsThatOfTheParameters : Obligations.TableIsThatOfTheParameters := by
  intro s hinv hvalid
  have hok := hinv.code hvalid
  refine ⟨by rw [hok.table, buildTable_length], fun i j gj hi hj => ⟨?_, hok.readRow_length hi⟩, fun n t h => ?_⟩
  · rw [hok.readRow_eq hi, List.getElem?_map, hj]; rfl
  · obtain ⟨hcode, hv⟩ := dataCommand_keeps_configuration h
    exact ⟨hcode, hv.trans hvalid⟩

/-- Settles O24: `Run.Decoding` holds at every tick, and PM is left alone until T has left 0. -/
theorem decodeStartsInStateZero : Obligations.DecodeStartsInStateZero := by
  constructor
  · exact fun c w m => ⟨rfl, startMetrics_spec c⟩
  · intro s n m r hn hr q hp ht
    have hpm : q.work.pm = startMetrics q.code :=
      (Run.ticks_decoding (Run.start_decoding hn hr) m).pm_eq_startMetrics hp ht
    rw [hpm]
    exact startMetrics_spec q.code

/-- Settles O25: each lane is `acs`, whose choice between the two predecessors `acs_cases` states. -/
theorem columnStepSelectsTheBestPredecessor : Obligations.ColumnStepSelectsTheBestPredecessor := by
  intro config c r w hok cost _
  have hk := hok.two_le
  refine ⟨_, _, colStep_eq c r w, colStep_pm_length c r w, colStep_colbuf_length c r w, fun s hs => ?_⟩
  refine ⟨fun q hq => exists_nextState_eq_iff hk hs hq, ?_, fun h2 => ?_, ?_⟩
  · rw [pred_true_eq_succ hk]; exact Nat.lt_succ_self _
  · rw [h2, pred_two, pred_two]; exact ⟨rfl, rfl⟩
  · have hcost (p : Nat) : candidate c w.pm r p s = cost p s := candidate_eq c w.pm r p s
    obtain ⟨x, hx, hmin, htie⟩ := acs_cases c w.pm r s
    simp only [hcost] at hx hmin htie
    exact ⟨x, by rw [getElem?_colStep_colbuf c r w hs, hx], by rw [getElem?_colStep_pm c r w hs, hx], hmin, htie⟩

end Sys2Proof.Machine
end

section
/-! SUPPORT. What the statements on the encoding need beside the laws: which words decode, the step of a header that does
not, and the bits of a packed byte. -/

namespace Sys2Proof

/-! ### The legal headers (R98) -/

theorem exists_decodeData_eq_ok_iff (mk : Nat → Instr) (h : Word) :
    (∃ i, decodeData mk h = .ok i) ↔ h.toNat / 2 ^ 24 % 2 ^ 5 = 0 := by
  rw [decodeData_eq]
  split
  · next hz => exact iff_of_true ⟨_, rfl⟩ hz
  · next hz => exact iff_of_false (by simp) hz

/-- A word decodes exactly when OPC is at most 5 and the must-be-zero bits of that OPC's format are zero. -/
theorem exists_decode_eq_ok_iff (h : Word) :
    (∃ i, decode h = .ok i) ↔
      (h.toNat / 2 ^ 29 = 0 ∧ h.toNat % 2 ^ 29 = 0) ∨ (h.toNat / 2 ^ 29 = 1 ∧ h.toNat % 2 ^ 16 = 0) ∨
      (2 ≤ h.toNat / 2 ^ 29 ∧ h.toNat / 2 ^ 29 ≤ 5 ∧ h.toNat / 2 ^ 24 % 2 ^ 5 = 0) := by
  rw [decode_eq]
  generalize h.toNat / 2 ^ 29 = opc
  split_ifs with h0 hr h1 hc h2 h3 h4 h5
  · exact iff_of_true ⟨_, rfl⟩ (.inl ⟨h0, hr⟩)
  · exact iff_of_false (by simp) (by omega)
  · exact iff_of_true ⟨_, rfl⟩ (.inr (.inl ⟨h1, hc⟩))
  · exact iff_of_false (by simp) (by omega)
  iterate 4
    · rw [exists_decodeData_eq_ok_iff]; omega
  · exact iff_of_false (by simp) (by omega)

end Sys2Proof

namespace Sys2Proof.Machine

/-- The exception InvalidCommand of a header first on CMD: the header is taken and ERR_CMD put (R223, R228). -/
theorem step_of_decode_error {s : State} {h : Word} {rest : List Word} {e : Illegal} (hp : s.phase = .idle)
    (hc : s.cmd = h :: rest) (hd : decode h = .error e) :
    step s = .next { s with cmd := rest, hdr := h, rsp := s.rsp ++ [.errCmd] } := by
  simp only [step, hp, hc, runHeader, accept_hdr, hd, raise_invalidCommand]
  rfl

/-! ### The bits of packed bytes (R105) -/

/-- Packing puts the bits of a byte in reverse order: it is bit reversal within 8 bits of the byte whose bit q is bit
8m + q of the sequence. -/
theorem packByte_eq_revK (e : List Bool) (m : Nat) :
    packByte e m = BitVec.ofNat 8 (revK 8 (Nat.ofBits fun q : Fin 8 => e.getD (8 * m + q) false)) := by
  unfold packByte revK
  congr 1
  refine List.foldl_ext _ _ _ fun acc q hq => ?_
  have hq8 : q < 8 := List.mem_range.mp hq
  rw [Nat.and_one_is_mod, Nat.shiftRight_eq_div_pow, ← Nat.toNat_testBit, Nat.testBit_ofBits_lt _ _ hq8]

theorem getLsbD_packByte (e : List Bool) (m : Nat) {q : Nat} (hq : q < 8) :
    (packByte e m).getLsbD (7 - q) = e.getD (8 * m + q) false := by
  have hpos : 7 - q < 8 := by omega
  have hrev : 8 - 1 - (7 - q) = q := by omega
  rw [packByte_eq_revK, BitVec.getLsbD_ofNat, testBit_revK, hrev, Nat.testBit_ofBits_lt _ _ hq]
  simp [hpos]

theorem getElem?_pack {e : List Bool} {m : Nat} (hm : m < byteCount e.length) :
    (pack e)[m]? = some (packByte e m) := by
  simp [pack, hm]

/-- Bit q of the packed bytes, payload and padding alike, is bit q of the sequence continued by zeros. -/
theorem getLsbD_getElem?_pack {e : List Bool} {q : Nat} (hq : q < 8 * byteCount e.length) :
    ((pack e)[q / 8]?).map (·.getLsbD (7 - q % 8)) = some (e.getD q false) := by
  rw [getElem?_pack (Nat.div_lt_of_lt_mul hq), Option.map_some, getLsbD_packByte _ _ (Nat.mod_lt q (by decide)),
    Nat.div_add_mod]

theorem le_eight_mul_byteCount (n : Nat) : n ≤ 8 * byteCount n := by unfold byteCount; omega

/-! ### The statements -/

/-- Settles O2: a word that is not illegal meets `exists_decode_eq_ok_iff`; an illegal one does not, so it decodes to an
error. -/
theorem illegalHeadersTakeInvalidCommand : Obligations.IllegalHeadersTakeInvalidCommand := by
  intro h opc illegal
  have legal_iff : (∃ i, decode h = .ok i) ↔ ¬ illegal := by
    rw [exists_decode_eq_ok_iff]
    omega
  refine ⟨legal_iff.mpr, fun hill s rest hp hc => ⟨h, ?_⟩⟩
  cases hd : decode h with
  | ok i => exact absurd hill (legal_iff.mp ⟨i, hd⟩)
  | error e => exact step_of_decode_error hp hc hd

/-- Settles O17: both clauses are `getLsbD_getElem?_pack`, below the payload's length and from it on. -/
theorem packedBytesAreMsbFirst : Obligations.PackedBytesAreMsbFirst := by
  refine fun e => ⟨pack_length e, fun q hq => ?_, fun q hle hq => ?_⟩
  · rw [getLsbD_getElem?_pack (hq.trans_le (le_eight_mul_byteCount _)), List.getD_eq_getElem _ _ hq,
      List.getElem?_eq_getElem hq]
  · rw [getLsbD_getElem?_pack hq, List.getD_eq_default _ _ hle]

end Sys2Proof.Machine
end

section
/-! SUPPORT. What the statements on the transition model need beside the laws: bit reversal as a map on K-bit numbers
(`testBit_revK` says it bit by bit), and the parity of 0. -/

namespace Sys2Proof.Machine

/-! ### Bit reversal as a map (R122) -/

theorem testBit_revK_sub {k m : Nat} (g : Nat) (hm : m < k) : (revK k g).testBit (k - 1 - m) = g.testBit m := by
  have hlt : k - 1 - m < k := by omega
  have hback : k - 1 - (k - 1 - m) = m := by omega
  simp [testBit_revK, hlt, hback]

@[simp] theorem revK_zero (k : Nat) : revK k 0 = 0 :=
  Nat.zero_of_testBit_eq_false fun j => by simp [testBit_revK]

/-- Below K the two reversals of the place cancel; from K on both numbers have no bits. -/
theorem revK_revK {k g : Nat} (hg : g < 2 ^ k) : revK k (revK k g) = g := by
  refine Nat.eq_of_testBit_eq fun j => ?_
  by_cases hj : j < k
  · simp [testBit_revK k (revK k g), hj, testBit_revK_sub g hj]
  · have hgj : g.testBit j = false :=
      Nat.testBit_lt_two_pow (hg.trans_le (Nat.pow_le_pow_right Nat.two_pos (Nat.not_lt.mp hj)))
    simp [testBit_revK, hj, hgj]

theorem revK_ne_zero {k g : Nat} (hg : g < 2 ^ k) (h0 : g ≠ 0) : revK k g ≠ 0 := by
  intro h
  refine h0 ?_
  calc g = revK k (revK k g) := (revK_revK hg).symm
    _ = 0 := by rw [h, revK_zero]

/-! ### Parity (R123) -/

theorem parity_zero (n : Nat) : parity n 0 = false := by
  rw [parity, xorOver_congr fun m _ => Nat.zero_testBit m, xorOver_false]

/-! ### The statements -/

/-- Settles O7: reversal is given bit by bit (`testBit_revK_sub`), so it is its own inverse and keeps only 0 at 0; the
worked values are computed. -/
theorem bitReversalWithinK : Obligations.BitReversalWithinK := by
  refine ⟨fun k g hg => ?_, by decide⟩
  exact ⟨revK_lt k g, fun m hm => testBit_revK_sub g hm, revK_revK hg, revK_zero k, revK_ne_zero hg⟩

/-- Settles O8: parity is an XOR over a range, which `xorOver_eq_countP` counts. -/
theorem parityCountsOneBits : Obligations.ParityCountsOneBits :=
  fun n x _ => ⟨xorOver_eq_countP n x.testBit, parity_zero n⟩

end Sys2Proof.Machine
end

section
/-! SUPPORT. What the statement on the encoder's next state needs beside the laws: its second form, and K = 2. -/

namespace Sys2Proof.Machine

/-- The shift by one of the composite index, taken on the state and on the bit apart; of every s, not of states alone. -/
theorem nextState_eq_or {k : Nat} (hk : 2 ≤ k) (s : Nat) (b : Bool) :
    nextState k s b = (s >>> 1) ||| (b.toNat <<< (k - 2)) := by
  have hbit : (b.toNat <<< (k - 1)) >>> 1 = b.toNat <<< (k - 2) := by
    rw [show k - 1 = (k - 2) + 1 by omega, Nat.shiftLeft_add, Nat.shiftLeft_shiftRight]
  rw [nextState, idx, Nat.shiftRight_or_distrib, hbit]

/-- With one state bit, the old state falls off whole. -/
theorem nextState_two {s : Nat} (hs : s < 2) (b : Bool) : nextState 2 s b = b.toNat := by
  rw [nextState_eq (Nat.le_refl 2) hs, Nat.div_eq_of_lt hs]
  simp

/-! ### The statement -/

/-- Settles O9: the index shifted right is its two parts shifted right (`nextState_eq_or`); the new top bit is bit K-1 of
the index (`testBit_nextState`). -/
theorem nextStateShiftsTheBitIn : Obligations.NextStateShiftsTheBitIn := by
  intro k s b hk hs
  refine ⟨rfl, nextState_eq_or hk s b, nextState_lt hk hs b, ?_, ?_⟩
  · rw [testBit_nextState hk hs, if_pos rfl]
  · rintro rfl
    exact nextState_two hs b

end Sys2Proof.Machine
end

section
/-! SUPPORT. What the statements on full decode need beside the laws: the bound of a Hamming distance, and the best
state, with the metrics that make it state 0. -/

namespace Sys2Proof.Machine

/-! ### Metric arithmetic (R163, R164) -/

theorem hamming_le_length_left (a b : List Bool) : hamming a b ≤ a.length := by
  calc hamming a b ≤ (List.zipWith (· ^^ ·) a b).length := List.count_le_length
    _ = min a.length b.length := List.length_zipWith
    _ ≤ a.length := Nat.min_le_left _ _

/-! ### Best-state select (R169) -/

theorem bestState_lt (c : Code) (pm : List Metric) : bestState c pm < 2 ^ (c.kVal - 1) := by
  rw [← nStates_eq]
  rcases (bestScan pm c.nStates).1 with hlt | h0
  · exact hlt
  · rw [bestState, h0, nStates_eq]
    exact Nat.two_pow_pos _

theorem readMetric_bestState_le (c : Code) (pm : List Metric) {s : Nat} (hs : s < 2 ^ (c.kVal - 1)) :
    readMetric pm (bestState c pm) ≤ readMetric pm s :=
  (bestScan pm c.nStates).2.1 s (by rwa [nStates_eq])

theorem readMetric_bestState_lt {c : Code} {pm : List Metric} {s : Nat} (hs : s < bestState c pm) :
    readMetric pm (bestState c pm) < readMetric pm s :=
  (bestScan pm c.nStates).2.2 s hs

/-- A best state above 0 would have a metric below that of state 0. -/
theorem bestState_eq_zero {c : Code} {pm : List Metric}
    (h : ∀ s, s < 2 ^ (c.kVal - 1) → readMetric pm 0 ≤ readMetric pm s) : bestState c pm = 0 := by
  by_contra hne
  have hlt : readMetric pm (bestState c pm) < readMetric pm 0 := readMetric_bestState_lt (Nat.pos_of_ne_zero hne)
  exact BitVec.not_lt.mpr (h _ (bestState_lt c pm)) hlt

theorem readMetric_startMetrics_zero (c : Code) : readMetric (startMetrics c) 0 = 0#8 := by
  rw [readMetric, List.getD_eq_getElem?_getD, (startMetrics_spec c).2.1, Option.getD_some]

/-- A vector of sentinels reads as the sentinel at its entries and outside them. -/
theorem readMetric_replicate_inf (n s : Nat) : readMetric (List.replicate n inf) s = inf := by
  by_cases hs : s < n
  · exact List.getD_replicate _ hs
  · exact List.getD_eq_default _ _ (by simpa using hs)

/-! ### The statements -/

/-- Settles O26: the strict scan's three properties, and the two vectors in which state 0 has a least metric. -/
theorem bestStateIsTheLeastMinimum : Obligations.BestStateIsTheLeastMinimum := by
  refine ⟨fun c pm _ => ?_, fun c => ⟨bestState_eq_zero fun s _ => ?_, bestState_eq_zero fun s _ => ?_⟩⟩
  · exact ⟨bestState_lt c pm, fun s hs => readMetric_bestState_le c pm hs, fun s hs => readMetric_bestState_lt hs⟩
  · rw [readMetric_startMetrics_zero]
    exact BitVec.le_def.mpr (Nat.zero_le _)
  · change readMetric (List.replicate _ inf) 0 ≤ readMetric (List.replicate _ inf) s
    rw [readMetric_replicate_inf, readMetric_replicate_inf]
    exact BitVec.le_refl _

/-- Settles O22: the branch metric counts the differing positions (`branchMetric_eq_hamming`), at most one for each of
the P bits. -/
theorem branchMetricIsHammingDistance : Obligations.BranchMetricIsHammingDistance := by
  rintro p r e rfl _
  rw [branchMetric_eq_hamming]
  exact ⟨rfl, hamming_le_length_left r e⟩

/-- Settles O23: the two branches are `satAdd_inf` and `satAdd_toNat`; the corner cases are computed. -/
theorem saturatingAddStopsAtTheSentinel : Obligations.SaturatingAddStopsAtTheSentinel := by
  refine ⟨fun m d => ⟨?_, fun _ => satAdd_toNat m d⟩, by decide⟩
  rintro rfl
  exact satAdd_inf d

end Sys2Proof.Machine
end

section
/-! SUPPORT. What the statements on exceptions need beside the laws: when the checks of the data commands fail, and
what a command whose check fails answers over the items it owns. -/

namespace Sys2Proof.Machine

/-! ### The checks that fail (R222) -/

theorem fits_eq_false_iff {config : Config} {n : Nat} :
    config.fits n = false ↔ ∃ d, config.dMax = some d ∧ d < n := by
  unfold Config.fits
  cases config.dMax <;> simp

theorem dectOk_eq_false_iff {s : State} {n : Nat} :
    s.dectOk n = false ↔ s.cfgValid = false ∨ n % s.code.pVal ≠ 0 := by
  rw [State.dectOk, Bool.and_eq_false_iff, beq_eq_false_iff_ne]

theorem decfOk_eq_false_iff {s : State} {n : Nat} :
    s.decfOk n = false ↔ s.cfgValid = false ∨ n % s.code.pVal ≠ 0 ∨
      ∃ d, s.config.dMax = some d ∧ d < n / s.code.pVal := by
  rw [State.decfOk, Bool.and_eq_false_iff, dectOk_eq_false_iff, fits_eq_false_iff, or_assoc]

/-! ### The answer to a failed check (R227) -/

/-- A command whose items have all arrived and whose check `ok` fails takes InvalidInput, whatever its body is. -/
theorem withItems_invalidInput {α : Type} {view : DinItem → Option α} {mk : α → DinItem}
    (hv : ∀ a, view (mk a) = some a) {s : State} {xs : List α} {rest : List DinItem} {n : Nat}
    (hd : s.din = xs.map mk ++ rest) (hn : xs.length = n) {ok : State → Bool} (body : List α → State → State)
    (hok : ok { s with din := rest } = false) :
    s.withItems view n (fun ys t => if ok t then body ys t else t.raise .invalidInput) =
      .next { s with din := rest, rsp := s.rsp ++ [.errInput], phase := .idle } := by
  rw [withItems_supplied hv hn hd, if_neg (by simp [hok])]
  rfl

/-! ### The statement -/

/-- Settles O36: the four data commands are one shape over their checks (`withItems_invalidInput`), and each ground
of R222 makes the check fail. -/
theorem invalidInputChangesNothing : Obligations.InvalidInputChangesNothing := by
  refine fun s rest => ⟨fun xs hd => ⟨fun hok => ?encb, fun hok => ?decf, fun hok => ?dect⟩,
    fun n bytes hd hn hok => ?encp, rfl⟩
  case encb =>
    unfold exec execEncb
    exact withItems_invalidInput asBit_bit hd rfl _ hok
  case decf =>
    unfold exec execDecf
    exact withItems_invalidInput asBit_bit hd rfl _ (decfOk_eq_false_iff.mpr hok)
  case dect =>
    unfold exec execDect
    exact withItems_invalidInput asBit_bit hd rfl _ (dectOk_eq_false_iff.mpr hok)
  case encp =>
    unfold exec execEncp
    exact withItems_invalidInput asByte_byte hd hn _ hok

end Sys2Proof.Machine
end

section
/-! SUPPORT. What the statements on headers need beside the laws: decoder and encoder as each other's inverses, and the
rows of the opcode table as conditions on the fields. -/

namespace Sys2Proof

/-! ### The decoder on the headers the encoder writes (R90 to R94) -/

theorem lengthFits_iff {n : Nat} : lengthFits n = true ↔ n < 2 ^ 24 := by simp [lengthFits]

theorem cfg_wellFormed_iff {kf pf : Nat} : (Instr.cfg kf pf).wellFormed = true ↔ kf < 2 ^ 5 ∧ pf < 2 ^ 8 := by
  simp [Instr.wellFormed]

/-- OPC, the field under it and N of a data header. -/
theorem dataHeader_fields {opc n : Nat} (ho : opc < 8) (hn : n < 2 ^ 24) :
    (header opc 0 n).toNat / 2 ^ 29 = opc ∧ (header opc 0 n).toNat / 2 ^ 24 % 2 ^ 5 = 0 ∧
    (header opc 0 n).toNat % 2 ^ 24 = n := by
  rw [header_toNat ho (by decide) hn]
  omega

/-- The fields of a CFG header. -/
theorem cfgHeader_fields {kf pf : Nat} (hk : kf < 2 ^ 5) (hp : pf < 2 ^ 8) :
    (header 1 kf (pf * 2 ^ 16)).toNat / 2 ^ 29 = 1 ∧ (header 1 kf (pf * 2 ^ 16)).toNat % 2 ^ 16 = 0 ∧
    (header 1 kf (pf * 2 ^ 16)).toNat / 2 ^ 24 % 2 ^ 5 = kf ∧
    (header 1 kf (pf * 2 ^ 16)).toNat / 2 ^ 16 % 2 ^ 8 = pf := by
  rw [header_toNat (by decide) hk (by omega)]
  omega

theorem decodeData_header {opc n : Nat} (mk : Nat → Instr) (ho : opc < 8) (hn : n < 2 ^ 24) :
    decodeData mk (header opc 0 n) = .ok (mk n) := by
  obtain ⟨_, hz, hl⟩ := dataHeader_fields ho hn
  rw [decodeData_eq, hz, hl, if_pos rfl]

theorem decode_encode {i : Instr} (h : i.wellFormed = true) : decode (encode i) = .ok i := by
  cases i with
  | rst => decide
  | cfg kf pf =>
    obtain ⟨hk, hp⟩ := cfg_wellFormed_iff.mp h
    obtain ⟨ho, hz, hkf, hpf⟩ := cfgHeader_fields hk hp
    simp only [encode, decode_eq, ho, hz, hkf, hpf]
    rfl
  | encb n =>
    have hn := lengthFits_iff.mp h
    simp only [encode, decode_eq, (dataHeader_fields (opc := 2) (by decide) hn).1]
    exact decodeData_header _ (by decide) hn
  | encp n =>
    have hn := lengthFits_iff.mp h
    simp only [encode, decode_eq, (dataHeader_fields (opc := 3) (by decide) hn).1]
    exact decodeData_header _ (by decide) hn
  | decf n =>
    have hn := lengthFits_iff.mp h
    simp only [encode, decode_eq, (dataHeader_fields (opc := 4) (by decide) hn).1]
    exact decodeData_header _ (by decide) hn
  | dect n =>
    have hn := lengthFits_iff.mp h
    simp only [encode, decode_eq, (dataHeader_fields (opc := 5) (by decide) hn).1]
    exact decodeData_header _ (by decide) hn

/-- A header is its own low 32 bits. -/
theorem headerOf_toNat (h : Word) : headerOf 32 h.toNat = h := by
  rw [headerOf, Nat.mod_eq_of_lt h.isLt, BitVec.ofNat_toNat, BitVec.setWidth_eq]

/-! ### The words that decode to each row, in numbers (R98, R99) -/

theorem decodeData_eq_ok_iff {mk : Nat → Instr} {h : Word} {i : Instr} :
    decodeData mk h = .ok i ↔ h.toNat / 2 ^ 24 % 2 ^ 5 = 0 ∧ i = mk (h.toNat % 2 ^ 24) := by
  rw [decodeData_eq]
  split
  · next hz => simp [hz, eq_comm, -Nat.reducePow]
  · next hz => simp [hz, -Nat.reducePow]

/-- Decoding by the value of OPC: the row's must-be-zero bits are zero and the fields are the bits of their places. -/
theorem decode_eq_ok_iff {h : Word} {i : Instr} :
    decode h = .ok i ↔
      (h.toNat / 2 ^ 29 = 0 ∧ h.toNat % 2 ^ 29 = 0 ∧ i = .rst) ∨
      (h.toNat / 2 ^ 29 = 1 ∧ h.toNat % 2 ^ 16 = 0 ∧
        i = .cfg (h.toNat / 2 ^ 24 % 2 ^ 5) (h.toNat / 2 ^ 16 % 2 ^ 8)) ∨
      (h.toNat / 2 ^ 24 = 2 * 2 ^ 5 ∧ i = .encb (h.toNat % 2 ^ 24)) ∨
      (h.toNat / 2 ^ 24 = 3 * 2 ^ 5 ∧ i = .encp (h.toNat % 2 ^ 24)) ∨
      (h.toNat / 2 ^ 24 = 4 * 2 ^ 5 ∧ i = .decf (h.toNat % 2 ^ 24)) ∨
      (h.toNat / 2 ^ 24 = 5 * 2 ^ 5 ∧ i = .dect (h.toNat % 2 ^ 24)) := by
  have dataRow (opc : Nat) :
      h.toNat / 2 ^ 24 = opc * 2 ^ 5 ↔ h.toNat / 2 ^ 29 = opc ∧ h.toNat / 2 ^ 24 % 2 ^ 5 = 0 := by omega
  simp only [dataRow]
  rw [decode_eq]
  generalize h.toNat / 2 ^ 29 = opc
  split_ifs with h0 hr h1 hc h2 h3 h4 h5
  · simp [h0, hr, eq_comm, -Nat.reducePow]
  · simp [h0, hr, -Nat.reducePow]
  · simp [h1, hc, eq_comm, -Nat.reducePow]
  · simp [h1, hc, -Nat.reducePow]
  · simp [decodeData_eq_ok_iff, h2]
  · simp [decodeData_eq_ok_iff, h3]
  · simp [decodeData_eq_ok_iff, h4]
  · simp [decodeData_eq_ok_iff, h5]
  · simp [h0, h1, h2, h3, h4, h5]

theorem encode_of_decode {h : Word} {i : Instr} (hd : decode h = .ok i) : i.wellFormed = true ∧ encode i = h := by
  have word {opc kf len : Nat} (e : h.toNat = opc * 2 ^ 29 + kf * 2 ^ 24 + len) : header opc kf len = h := by
    rw [header, ← e, BitVec.ofNat_toNat, BitVec.setWidth_eq]
  have fits : lengthFits (h.toNat % 2 ^ 24) = true := lengthFits_iff.mpr (Nat.mod_lt _ (by decide))
  have hlt := h.isLt
  rcases decode_eq_ok_iff.mp hd with ⟨h0, hr, rfl⟩ | ⟨h1, hz, rfl⟩ | ⟨hq, rfl⟩ | ⟨hq, rfl⟩ | ⟨hq, rfl⟩ | ⟨hq, rfl⟩
  · exact ⟨rfl, word (by omega)⟩
  · exact ⟨cfg_wellFormed_iff.mpr ⟨Nat.mod_lt _ (by decide), Nat.mod_lt _ (by decide)⟩, word (by omega)⟩
  all_goals exact ⟨fits, word (by omega)⟩

/-! ### The rows of spec/opcode_table.json -/

/-- The bits of a masked word in a high field whose mask bits are all ones. -/
theorem field_of_and {h mask row : Word} (e : h &&& mask = row) (p : Nat) {w : Nat}
    (hm : mask.toNat >>> p = 2 ^ w - 1) : h.toNat / 2 ^ p % 2 ^ w = row.toNat / 2 ^ p := by
  rw [← e, BitVec.toNat_and, ← Nat.shiftRight_eq_div_pow _ p, ← Nat.shiftRight_eq_div_pow _ p,
    Nat.shiftRight_and_distrib, hm, Nat.and_two_pow_sub_one_eq_mod]

/-- The bits of a masked word in a low field whose mask bits are all ones. -/
theorem lowField_of_and {h mask row : Word} (e : h &&& mask = row) (w : Nat) (hm : mask.toNat % 2 ^ w = 2 ^ w - 1) :
    h.toNat % 2 ^ w = row.toNat % 2 ^ w := by
  rw [← e, BitVec.toNat_and, Nat.and_mod_two_pow, hm, Nat.and_two_pow_sub_one_eq_mod, Nat.mod_mod]

theorem decode_eq_rst_iff (h : Word) : decode h = .ok .rst ↔ h &&& 0xFFFFFFFF#32 = 0x00000000#32 := by
  have hones : h &&& 0xFFFFFFFF#32 = h := BitVec.and_allOnes
  rw [hones]
  constructor
  · intro hd; exact (encode_of_decode hd).2.symm
  · rintro rfl; decide

theorem decode_eq_cfg_iff (h : Word) (kf pf : Nat) :
    decode h = .ok (.cfg kf pf) ↔
      h &&& 0xE000FFFF#32 = 0x20000000#32 ∧ kf = h.toNat / 2 ^ 24 % 2 ^ 5 ∧ pf = h.toNat / 2 ^ 16 % 2 ^ 8 := by
  have numbers : decode h = .ok (.cfg kf pf) ↔ h.toNat / 2 ^ 29 = 1 ∧ h.toNat % 2 ^ 16 = 0 ∧
      kf = h.toNat / 2 ^ 24 % 2 ^ 5 ∧ pf = h.toNat / 2 ^ 16 % 2 ^ 8 := by
    simp [decode_eq_ok_iff, -Nat.reducePow]
  constructor
  · intro hd
    obtain ⟨hw, henc⟩ := encode_of_decode hd
    exact ⟨henc ▸ Laws.EncodesItsRow.cfg kf pf hw, (numbers.mp hd).2.2⟩
  · rintro ⟨e, hkf, hpf⟩
    have h29 : h.toNat / 2 ^ 29 % 2 ^ 3 = 1 := field_of_and e 29 (by decide)
    have h16 : h.toNat % 2 ^ 16 = 0 := lowField_of_and e 16 (by decide)
    have hlt := h.isLt
    exact numbers.mpr ⟨by omega, h16, hkf, hpf⟩

/-- A data row's match under the mask of the data rows: its OPC, with zeros in 28:24, in the top byte. -/
theorem and_dataMask_eq_iff (h row : Word) {opc : Nat} (ho : opc < 8) (hr : row = BitVec.ofNat 32 (opc * 2 ^ 29)) :
    h &&& 0xFF000000#32 = row ↔ h.toNat / 2 ^ 24 = opc * 2 ^ 5 := by
  subst hr
  constructor
  · intro e
    have h24 := field_of_and (w := 8) e 24 (by decide)
    have hlt := h.isLt
    rw [BitVec.toNat_ofNat] at h24
    omega
  · intro e
    rw [Laws.and_dataMask, e]
    interval_cases opc <;> decide

theorem decode_eq_encb_iff (h : Word) (n : Nat) :
    decode h = .ok (.encb n) ↔ h &&& 0xFF000000#32 = 0x40000000#32 ∧ n = h.toNat % 2 ^ 24 := by
  rw [and_dataMask_eq_iff h 0x40000000#32 (opc := 2) (by decide) rfl]
  simp [decode_eq_ok_iff, -Nat.reducePow]

theorem decode_eq_encp_iff (h : Word) (n : Nat) :
    decode h = .ok (.encp n) ↔ h &&& 0xFF000000#32 = 0x60000000#32 ∧ n = h.toNat % 2 ^ 24 := by
  rw [and_dataMask_eq_iff h 0x60000000#32 (opc := 3) (by decide) rfl]
  simp [decode_eq_ok_iff, -Nat.reducePow]

theorem decode_eq_decf_iff (h : Word) (n : Nat) :
    decode h = .ok (.decf n) ↔ h &&& 0xFF000000#32 = 0x80000000#32 ∧ n = h.toNat % 2 ^ 24 := by
  rw [and_dataMask_eq_iff h 0x80000000#32 (opc := 4) (by decide) rfl]
  simp [decode_eq_ok_iff, -Nat.reducePow]

theorem decode_eq_dect_iff (h : Word) (n : Nat) :
    decode h = .ok (.dect n) ↔ h &&& 0xFF000000#32 = 0xA0000000#32 ∧ n = h.toNat % 2 ^ 24 := by
  rw [and_dataMask_eq_iff h 0xA0000000#32 (opc := 5) (by decide) rfl]
  simp [decode_eq_ok_iff, -Nat.reducePow]

/-! ### The statements -/

/-- Settles O4: each header is the number its fields spell, from which the decoder reads them again. -/
theorem decodeOfEncode : Obligations.DecodeOfEncode := by
  intro i hw
  have hd := decode_encode hw
  refine ⟨hd, ?_⟩
  rw [decodeTableWord, headerOf_toNat, hd]

/-- Settles O5: the decoder's conditions fix every bit of the word (`decode_eq_ok_iff`). -/
theorem encodeOfDecode : Obligations.EncodeOfDecode := fun _ _ hd => encode_of_decode hd

/-- Settles O3, row by row: under the masks the matches fix OPC and the must-be-zero bits, which are the decoder's
conditions (`decode_eq_ok_iff`). -/
theorem decodeMatchesTheOpcodeTable : Obligations.DecodeMatchesTheOpcodeTable := fun h =>
  ⟨decode_eq_rst_iff h, decode_eq_cfg_iff h, decode_eq_encb_iff h, decode_eq_encp_iff h, decode_eq_decf_iff h,
    decode_eq_dect_iff h⟩

/-- Settles O6. -/
theorem exampleHeadersDecode : Obligations.ExampleHeadersDecode := by
  unfold Obligations.ExampleHeadersDecode; decide

end Sys2Proof
end

section
/-! SUPPORT. What the statements on the configuration need beside the laws: rows of the table under changes of the index,
CFG over supplied words, and the predecessors of a state and of its mirror in the other half. -/

namespace Sys2Proof.Machine

/-! ### The arms of `exec` -/

theorem exec_rst (s : State) : exec .rst s = execRst s := rfl
theorem exec_cfg (kf pf : Nat) (s : State) : exec (.cfg kf pf) s = execCfg kf pf s := rfl
theorem exec_encb (n : Nat) (s : State) : exec (.encb n) s = execEncb n s := rfl
theorem exec_encp (n : Nat) (s : State) : exec (.encp n) s = execEncp n s := rfl
theorem exec_decf (n : Nat) (s : State) : exec (.decf n) s = execDecf n s := rfl
theorem exec_dect (n : Nat) (s : State) : exec (.dect n) s = execDect n s := rfl

/-! ### Rows of the table (R127) -/

theorem getElem?_readRow {config : Config} {c : Code} (h : c.Ok config) {i j : Nat} {gj : Word} (hi : i < 2 ^ c.kVal)
    (hj : c.g[j]? = some gj) : (c.readRow i)[j]? = some (rowBit c.kVal i (revK c.kVal gj.toNat)) := by
  rw [h.readRow_eq hi, List.getElem?_map, hj]; rfl

theorem rowBit_zero (k rev : Nat) : rowBit k 0 rev = false := by
  rw [rowBit, Nat.zero_and, parity_zero]

/-- The input bit of the index reaches a row through bit 0 of the polynomial alone. -/
theorem rowBit_idx_true {k s : Nat} (hk : 1 ≤ k) (hs : s < 2 ^ (k - 1)) (g : Nat) :
    rowBit k (idx k s true) (revK k g) = (rowBit k (idx k s false) (revK k g) ^^ g.testBit 0) := by
  obtain ⟨k, rfl⟩ : ∃ n, k = n + 1 := ⟨k - 1, by omega⟩
  rw [rowBit_revK', rowBit_revK', xorOver_succ', xorOver_succ', testBit_idx hk hs, testBit_idx hk hs]
  have older : (xorOver k fun m => g.testBit (m + 1) && (idx (k + 1) s true).testBit (k + 1 - 1 - (m + 1))) =
      xorOver k fun m => g.testBit (m + 1) && (idx (k + 1) s false).testBit (k + 1 - 1 - (m + 1)) := by
    refine xorOver_congr fun m hm => ?_
    have hm : ¬ k + 1 - 1 - (m + 1) = k + 1 - 1 := by omega
    rw [testBit_idx hk hs, testBit_idx hk hs, if_neg hm, if_neg hm]
  rw [older]
  simp [Bool.xor_comm]

/-- The complement of an index turns every tapped bit over. -/
theorem rowBit_complement {k i : Nat} (hi : i < 2 ^ k) (g : Nat) :
    rowBit k (2 ^ k - 1 - i) (revK k g) = (rowBit k i (revK k g) ^^ xorOver k g.testBit) := by
  rw [rowBit_revK', rowBit_revK', ← xorOver_xor]
  refine xorOver_congr fun m hm => ?_
  have hlt : k - 1 - m < k := by omega
  rw [show 2 ^ k - 1 - i = 2 ^ k - (i + 1) by omega, Nat.testBit_two_pow_sub_succ hi]
  cases g.testBit m <;> simp [hlt]

/-! ### CFG over supplied words (R121) -/

theorem execCfg_supplied {s : State} {g : List Word} {rest : List DinItem} (hd : s.din = g.map .word ++ rest)
    (k : Nat) :
    execCfg k g.length s = .next
      (if paramsOk s.config k g.length g then
        { s with
          din := rest, cfgValid := true, code := configured k g.length g, rsp := s.rsp ++ [.ok], phase := .idle }
      else ({ s with din := rest } : State).raise .invalidParameter) := by
  rw [execCfg, withItems_supplied asWord_word rfl hd]
  rfl

theorem paramsOk_eq_false {config : Config} {k pf : Nat} {g : List Word}
    (h : k < 2 ∨ config.kMax.val < k ∨ pf = 0 ∨ config.pMax.val < pf ∨ ∃ x ∈ g, x.toNat = 0 ∨ 2 ^ k ≤ x.toNat) :
    paramsOk config k pf g = false := by
  refine Bool.eq_false_iff.mpr fun hok => ?_
  obtain ⟨h1, h2, h3, h4, h5⟩ := paramsOk_iff.mp hok
  rcases h with h | h | h | h | ⟨x, hx, h⟩
  · omega
  · omega
  · omega
  · omega
  · have := h5 x hx; omega

/-! ### Predecessors (R161) -/

/-- Shifting left drops the top bit of a state, so the two halves have the same predecessors. -/
theorem pred_xor_top {k : Nat} (hk : 2 ≤ k) (s : Nat) (x : Bool) :
    pred k (s ^^^ (2 ^ (k - 1) >>> 1)) x = pred k s x := by
  have htop : (2 ^ (k - 1) >>> 1) <<< 1 = 2 ^ (k - 1) := by
    rw [pow_pred hk, Nat.shiftRight_one, Nat.mul_div_cancel_left _ (by decide), Nat.shiftLeft_eq]; ring
  have hlow : ((s ^^^ (2 ^ (k - 1) >>> 1)) <<< 1) &&& stateMask k = (s <<< 1) &&& stateMask k := by
    rw [Nat.shiftLeft_xor_distrib, htop, stateMask_eq, Nat.and_two_pow_sub_one_eq_mod,
      Nat.and_two_pow_sub_one_eq_mod, Nat.xor_mod_two_pow, Nat.mod_self, Nat.xor_zero]
  rw [pred, pred, hlow]

theorem pred_false_even {k : Nat} (hk : 2 ≤ k) (s : Nat) : pred k s false % 2 = 0 := by
  rw [pred_eq _ _ _ hk, pow_pred hk, Nat.mul_mod_mul_left]
  simp

/-! ### The statements -/

/-- Settles O11: each property is one of a row's bit (`rowBit_zero`, `rowBit_idx_true`, `rowBit_complement`); the table
itself is built from K and G. -/
theorem tableProperties : Obligations.TableProperties := by
  intro config c hok
  have hk := hok.two_le
  refine ⟨?_, fun config' c' hok' hk' hg' => ?_, fun s j gj hs hj => ?_, fun i j gj hi hj => ?_⟩
  · rw [hok.readRow_eq (Nat.two_pow_pos _), ← hok.count]
    simp only [rowBit_zero, List.map_const']
  · rw [hok'.table, hok.table, hk', hg']
  · rw [getElem?_readRow hok (idx_lt (by omega) hs _) hj, getElem?_readRow hok (idx_lt (by omega) hs _) hj,
      rowBit_idx_true (by omega) hs]
    rfl
  · rw [getElem?_readRow hok (by omega) hj, getElem?_readRow hok hi hj, rowBit_complement hi, xorOver_eq_countP]
    rfl

/-- Settles O12: the configuration left is `configured`, whose rows are those of the built table (`rowBit_revK`). -/
theorem cfgBuildsTheConfiguration : Obligations.CfgBuildsTheConfiguration := by
  intro s k g rest hd h1 h2 h3 h4 h5
  have hparams : paramsOk s.config k g.length g = true := paramsOk_iff.mpr ⟨h1, h2, h3, h4, h5⟩
  have hok := configured_ok hparams
  have hk : (configured k g.length g).kVal = k := configured_kVal (by omega) _ _
  have hp : (configured k g.length g).pVal = g.length := configured_pVal (by omega) _ _
  refine ⟨configured k g.length g, ?_, hk, hp, rfl, buildTable_length k g, fun i j gj hi hj => ?_⟩
  · rw [exec_cfg, execCfg_supplied hd, if_pos hparams]
  · rw [← hk] at hi
    refine ⟨by rw [hok.readRow_length hi, hp], ?_⟩
    rw [getElem?_readRow hok hi hj, rowBit_revK, hk]

/-- Settles O13: each condition makes the check fail, and CFG takes the exception InvalidParameter. -/
theorem cfgWithBadParametersUnconfigures : Obligations.CfgWithBadParametersUnconfigures := by
  intro s k g rest hd hbad
  refine ⟨Config.freeCode s.drawn, s.drawn + 1, ?_⟩
  rw [exec_cfg, execCfg_supplied hd, paramsOk_eq_false hbad]
  rfl

/-- Settles O14. -/
theorem rstUnconfigures : Obligations.RstUnconfigures := fun _ => ⟨_, _, _, rfl, rfl, rfl⟩

/-- Settles O21: the predecessors as numbers (`pred_eq`), and `nextState_eq_iff` for the inversion. -/
theorem predecessorsInvertNext : Obligations.PredecessorsInvertNext := by
  refine ⟨fun k s hk hs => ⟨fun x => ?_, fun p b hp => nextState_eq_iff hk hs hp b, pred_lt true hk,
    pred_true_eq_succ hk s, pred_false_even hk s, pred_xor_top hk s⟩, fun s x _ => pred_two s x, by decide⟩
  rw [pred, stateMask_eq]

end Sys2Proof.Machine
end

section
/-! SUPPORT. What the statements on the encoder need beside the laws: encoding over XOR, the streaming form of packing
against `pack`, and unpacking. -/

namespace Sys2Proof.Machine

/-! ### Encoding over XOR (R142) -/

theorem inputBefore_xor {x y : List Bool} (h : x.length = y.length) (t m : Nat) :
    inputBefore (List.zipWith (· ^^ ·) x y) t m = (inputBefore x t m ^^ inputBefore y t m) := by
  unfold inputBefore
  rcases Nat.lt_or_ge (t - m) x.length with hlt | hge
  · simp [List.getD, hlt, h ▸ hlt, Bool.and_xor_distrib_left]
  · simp [List.getD, hge, h ▸ hge]

theorem tapSum_xor {x y : List Bool} (h : x.length = y.length) (k g t : Nat) :
    tapSum k g (List.zipWith (· ^^ ·) x y) t = (tapSum k g x t ^^ tapSum k g y t) := by
  unfold tapSum
  rw [← xorOver_xor]
  exact xorOver_congr fun m _ => by rw [inputBefore_xor h, Bool.and_xor_distrib_left]

theorem zipWith_xor_flatMap {α : Type} (l : List α) {a b : α → List Bool} (h : ∀ t, (a t).length = (b t).length) :
    List.zipWith (· ^^ ·) (l.flatMap a) (l.flatMap b) = l.flatMap fun t => List.zipWith (· ^^ ·) (a t) (b t) := by
  induction l with
  | nil => rfl
  | cons t l ih => simp only [List.flatMap_cons]; rw [List.zipWith_append (h t), ih]

theorem codeword_xor {x y : List Bool} (h : x.length = y.length) (k : Nat) (g : List Word) :
    codeword k g (List.zipWith (· ^^ ·) x y) = List.zipWith (· ^^ ·) (codeword k g x) (codeword k g y) := by
  simp only [codeword, List.length_zipWith, ← h, Nat.min_self]
  rw [zipWith_xor_flatMap _ fun t => by simp]
  simp only [tapSum_xor h, List.zipWith_map, List.zipWith_self]

/-! ### The streaming form of packing (R144) -/

/-- PACK_ACC after the bits p, fewer than 8 of them, from 0. -/
def accOf (p : List Bool) : Byte := p.foldl (fun acc v => acc <<< 1 ||| BitVec.ofNat 8 v.toNat) 0#8

theorem accOf_append_singleton (p : List Bool) (v : Bool) :
    accOf (p ++ [v]) = accOf p <<< 1 ||| BitVec.ofNat 8 v.toNat := by simp [accOf]

/-- Bit i of PACK_ACC is the bit shifted in i bits before the last. -/
theorem getLsbD_accOf {p : List Bool} (hp : p.length ≤ 8) (i : Nat) :
    (accOf p).getLsbD i = (decide (i < p.length) && p.getD (p.length - 1 - i) false) := by
  induction p using List.reverseRecOn generalizing i with
  | nil => simp [accOf]
  | append_singleton p v ih =>
    have hlen : (p ++ [v]).length = p.length + 1 := by simp
    rw [hlen] at hp ⊢
    rw [accOf_append_singleton, BitVec.getLsbD_or, BitVec.getLsbD_shiftLeft, BitVec.getLsbD_ofNat, testBit_toNat,
      ih (by omega)]
    cases i with
    | zero => simp [List.getD]
    | succ i =>
      rcases Nat.lt_or_ge i p.length with hi | hi
      · have h8 : i + 1 < 8 := by omega
        have hback : p.length - (i + 1) = p.length - 1 - i := by omega
        have hlt : p.length - 1 - i < p.length := by omega
        simp [hi, h8, hback, List.getD, List.getElem?_append_left hlt]
      · simp [Nat.not_lt.mpr hi]

/-- Left-shifted to align, PACK_ACC is the byte that `pack` makes of the same bits (R69, R144). -/
theorem accOf_shiftLeft {p : List Bool} (hp : p.length ≤ 8) (e : List Bool) (he : p.length = 8 ∨ e = []) :
    accOf p <<< (8 - p.length) = packByte (p ++ e) 0 := by
  refine BitVec.eq_of_getLsbD_eq fun i hi => ?_
  have hbyte : (packByte (p ++ e) 0).getLsbD i = (p ++ e).getD (7 - i) false := by
    have := getLsbD_packByte (p ++ e) 0 (q := 7 - i) (by omega)
    rwa [show 7 - (7 - i) = i by omega, Nat.mul_zero, Nat.zero_add] at this
  rw [hbyte, BitVec.getLsbD_shiftLeft, getLsbD_accOf hp]
  rcases Nat.lt_or_ge (7 - i) p.length with hlt | hge
  · have h1 : ¬ i < 8 - p.length := by omega
    have h2 : i - (8 - p.length) < p.length := by omega
    have h3 : p.length - 1 - (i - (8 - p.length)) = 7 - i := by omega
    simp [hi, h1, h2, h3, List.getD, List.getElem?_append_left hlt]
  · have h1 : i < 8 - p.length := by omega
    have he : e = [] := he.resolve_left (by omega)
    simp [h1, he, List.getD, hge]

theorem pack_nil : pack [] = [] := rfl

/-- The first eight bits make the first byte. -/
theorem pack_append {p : List Bool} (hp : p.length = 8) (e : List Bool) :
    pack (p ++ e) = packByte (p ++ e) 0 :: pack e := by
  have hbyte (m : Nat) : packByte (p ++ e) (m + 1) = packByte e m := by
    rw [packByte_eq_revK, packByte_eq_revK]
    congr 4
    funext q
    rw [List.getD_append_right _ _ _ _ (by omega)]
    congr 1; omega
  rw [pack, pack, List.length_append, hp, byteCount_add_eight, List.range_succ_eq_map, List.map_cons, List.map_map]
  congr 1
  exact List.map_congr_left fun m _ => hbyte m

/-- One partly filled byte. -/
theorem pack_of_length_lt {p : List Bool} (h0 : p ≠ []) (hp : p.length < 8) : pack p = [packByte p 0] := by
  have hpos := List.length_pos_of_ne_nil h0
  have h1 : byteCount p.length = 1 := by unfold byteCount; omega
  rw [pack, h1]; rfl

/-- With the bits p in PACK_ACC, the streaming form goes on as `pack` of p and the bits to come. -/
theorem packBits_from {p : List Bool} (hp : p.length < 8) (e : List Bool) {w : Work} (hacc : w.packAcc = accOf p)
    (hcnt : w.packCnt = BitVec.ofNat 3 p.length) :
    (packBits e w).1 ++ packRest (packBits e w).2 = pack (p ++ e) := by
  induction e generalizing p w with
  | nil =>
    have hc : w.packCnt.toNat = p.length := by rw [hcnt, BitVec.toNat_ofNat]; omega
    change packRest w = pack (p ++ [])
    by_cases h0 : p = []
    · subst h0
      simp [packRest, hcnt, pack_nil]
    · have hne : w.packCnt ≠ 0#3 := fun hz => by
        rw [hz] at hc
        exact h0 (List.length_eq_zero_iff.mp hc.symm)
      rw [packRest, if_neg hne, hc, hacc, accOf_shiftLeft (by omega) [] (.inr rfl), List.append_nil,
        pack_of_length_lt h0 hp]
  | cons v e ih =>
    rw [packBits_cons, List.append_assoc, ← List.singleton_append, ← List.append_assoc p]
    have hlen : (p ++ [v]).length = p.length + 1 := by simp
    have hv : w.packAcc <<< 1 ||| BitVec.ofNat 8 v.toNat = accOf (p ++ [v]) := by
      rw [hacc, accOf_append_singleton]
    by_cases h7 : p.length = 7
    · have hfull : packBit v w = ([accOf (p ++ [v])], { w with packAcc := 0#8, packCnt := 0#3 }) := by
        simp only [packBit, hv, hcnt, h7]; rfl
      have hbyte : accOf (p ++ [v]) = packByte ((p ++ [v]) ++ e) 0 := by
        rw [← accOf_shiftLeft (by omega) e (.inl (by omega)), hlen, h7]
        simp
      rw [hfull, pack_append (by omega) e, ← hbyte]
      exact congrArg (_ :: ·) (ih (p := []) (by decide) rfl rfl)
    · have hne : w.packCnt ≠ 7#3 := fun he => by
        have := congrArg BitVec.toNat he
        rw [hcnt, BitVec.toNat_ofNat] at this
        simp at this; omega
      have hpart : packBit v w = ([], { w with packAcc := accOf (p ++ [v]), packCnt := w.packCnt + 1#3 }) := by
        simp only [packBit, hv, if_neg hne]
      rw [hpart]
      refine ih (by omega) rfl ?_
      dsimp only
      rw [hcnt, hlen, BitVec.ofNat_add]

theorem packBits_packStart (e : List Bool) (w : Work) (hacc : w.packAcc = 0#8) (hcnt : w.packCnt = 0#3) :
    (packBits e w).1 ++ packRest (packBits e w).2 = pack e :=
  packBits_from (p := []) (by decide) e hacc hcnt

/-- The body of ENCP delivers the packed output of ENCB (R145). -/
theorem encodePacked_out (c : Code) (xs : List Bool) (w : Work) :
    (encodePacked c xs w.encodeStart.packStart).1 = pack (encodeBits c xs w.encodeStart).1 := by
  have hw := encodeBits_work c xs w.encodeStart.packStart
  rw [encodePacked_eq, encodeBits_out_congr c xs (w := w.encodeStart) (w' := w.encodeStart.packStart) rfl]
  exact packBits_packStart _ _ (by rw [hw]; rfl) (by rw [hw]; rfl)

/-- ENCP changes ENC_STATE, PACK_ACC and PACK_CNT alone. -/
theorem encodePacked_work (c : Code) (xs : List Bool) (w : Work) :
    ∃ e acc cnt, (encodePacked c xs w.encodeStart.packStart).2 =
      { w with encState := e, packAcc := acc, packCnt := cnt } := by
  rw [encodePacked_eq]
  obtain ⟨acc, cnt, h⟩ := packBits_work (encodeBits c xs w.encodeStart.packStart).1
    (encodeBits c xs w.encodeStart.packStart).2
  refine ⟨xs.foldl (nextState c.kVal) 0, acc, cnt, ?_⟩
  dsimp only
  rw [h, encodeBits_work]
  rfl

/-! ### Unpacking (R143, R146) -/

theorem packedBit_eq (bytes : List Byte) {q : Nat} {b : Bool}
    (h : (bytes[q / 8]?).map (·.getLsbD (7 - q % 8)) = some b) : packedBit bytes q = b := by
  have hlow : q &&& 7 = q % 8 := Nat.and_two_pow_sub_one_eq_mod q 3
  obtain ⟨y, hy, rfl⟩ := Option.map_eq_some_iff.mp h
  rw [packedBit, Nat.shiftRight_eq_div_pow, hlow, List.getD, hy]
  rfl

theorem bitsOf_pack (e : List Bool) : bitsOf (pack e) e.length = e := by
  refine List.ext_getElem (by simp) fun q hq hq' => ?_
  have hbit := getLsbD_getElem?_pack (hq'.trans_le (le_eight_mul_byteCount e.length))
  rw [List.getD_eq_getElem _ _ hq'] at hbit
  simp [bitsOf, packedBit_eq _ hbit]

/-! ### The commands over supplied items -/

theorem execEncb_supplied {s : State} {xs : List Bool} {rest : List DinItem} (hv : s.cfgValid = true)
    (hd : s.din = xs.map .bit ++ rest) :
    execEncb xs.length s = .next
      { s with
        din := rest, dout := s.dout ++ (encodeBits s.code xs s.work.encodeStart).1.map .bit, rsp := s.rsp ++ [.ok]
        phase := .idle, work := (encodeBits s.code xs s.work.encodeStart).2 } := by
  rw [execEncb, withItems_supplied asBit_bit rfl hd]
  simp only [State.encodeOk, hv]
  rfl

theorem execEncp_supplied {s : State} {n : Nat} {bytes : List Byte} {rest : List DinItem} (hv : s.cfgValid = true)
    (hn : bytes.length = byteCount n) (hd : s.din = bytes.map .byte ++ rest) :
    execEncp n s = .next
      { s with
        din := rest
        dout := s.dout ++ (encodePacked s.code (bitsOf bytes n) s.work.encodeStart.packStart).1.map .byte
        rsp := s.rsp ++ [.ok], phase := .idle
        work := (encodePacked s.code (bitsOf bytes n) s.work.encodeStart.packStart).2 } := by
  rw [execEncp, withItems_supplied asByte_byte hn hd]
  simp only [State.encodeOk, hv]
  rfl

/-! ### The statements -/

/-- Settles O15: the encoder's loop is the convolution (`encodeBits_out`) and its end state the last inputs
(`testBit_endState`). -/
theorem encbDeliversTheConvolution : Obligations.EncbDeliversTheConvolution := by
  intro s xs rest hinv hv hd
  have hok := hinv.code hv
  refine ⟨endState s.code.kVal xs, ?_, by rw [codeword_length, hok.count], endState_lt hok.two_le xs,
    fun m hm => testBit_endState hok.two_le xs m hm⟩
  rw [exec_encb, execEncb_supplied hv hd, encodeBits_work, hok.encodeBits_out _ _ rfl]
  rfl

/-- Settles O16: the taps of an XOR of inputs are the XOR of the taps (`codeword_xor`). -/
theorem encodingIsLinear : Obligations.EncodingIsLinear := by
  intro config c w x y hok h
  rw [hok.encodeBits_out _ _ rfl, hok.encodeBits_out _ _ rfl, hok.encodeBits_out _ _ rfl, codeword_xor h]

/-- Settles O18: `packBits_from` with no bit in PACK_ACC. -/
theorem streamingPackingIsPack : Obligations.StreamingPackingIsPack :=
  fun e w => packBits_packStart e w.packStart rfl rfl

/-- Settles O19. -/
theorem encpDeliversPackedBytes : Obligations.EncpDeliversPackedBytes := by
  intro s n bytes rest hinv hv hn hd
  have hok := hinv.code hv
  obtain ⟨e, acc, cnt, hw⟩ := encodePacked_work s.code (bitsOf bytes n) s.work
  refine ⟨e, acc, cnt, ?_, by rw [pack_length, codeword_length, bitsOf_length, hok.count]⟩
  rw [exec_encp, execEncp_supplied hv hn hd, hw, encodePacked_out, hok.encodeBits_out _ _ rfl]

/-- Settles O20: both deliver the one output of the encoder's loop, and unpacking undoes packing (`bitsOf_pack`). -/
theorem encpIsPackedEncb : Obligations.EncpIsPackedEncb := by
  intro s n bytes hinv hv hn
  have hok := hinv.code hv
  have hlen : (encodeBits s.code (bitsOf bytes n) s.work.encodeStart).1.length = n * s.code.pVal := by
    rw [hok.encodeBits_out _ _ rfl, codeword_length, bitsOf_length, hok.count]
  have hencb := execEncb_supplied (s := { s with din := (bitsOf bytes n).map .bit }) (rest := []) hv
    (List.append_nil _).symm
  have hencp := execEncp_supplied (s := { s with din := bytes.map .byte }) (rest := []) hv hn (List.append_nil _).symm
  rw [bitsOf_length] at hencb
  refine ⟨_, _, _, hencb, rfl, hencp, ?_, ?_⟩
  · dsimp only; rw [encodePacked_out]
  · rw [← hlen, bitsOf_pack]

end Sys2Proof.Machine
end

section
/-! SUPPORT. What the statements on full decode need beside the laws: the path a traceback walks, and the path metric as a
distance. -/

namespace Sys2Proof.Machine

/-! ### The recorded path (R170, R171) -/

/-- The states of the path that ends in s and follows the predecessors recorded in the m columns from `first` on, the
oldest state first. -/
def recordedPath (tr : List (List Nat)) (first : Nat) : Nat → Nat → List Nat
  | 0, s => [s]
  | m + 1, s => recordedPath tr first m (readTrellis tr (first + m) s) ++ [s]

/-- The input bits of the recorded path: the top bits of its states after the first. -/
def survivor (c : Code) (tr : List (List Nat)) (first m s : Nat) : List Bool :=
  ((recordedPath tr first m s).drop 1).map (inbit c.kVal)

@[simp] theorem recordedPath_length (tr : List (List Nat)) (first m s : Nat) :
    (recordedPath tr first m s).length = m + 1 := by
  induction m generalizing s with
  | zero => rfl
  | succ m ih => rw [recordedPath, List.length_append, ih]; rfl

theorem recordedPath_last (tr : List (List Nat)) (first m s : Nat) : (recordedPath tr first m s)[m]? = some s := by
  cases m with
  | zero => rfl
  | succ m => rw [recordedPath, List.getElem?_append_right (by simp)]; simp

theorem recordedPath_step (tr : List (List Nat)) (first m s : Nat) {j q : Nat} (hj : j < m)
    (hq : (recordedPath tr first m s)[j + 1]? = some q) :
    (recordedPath tr first m s)[j]? = some (readTrellis tr (first + j) q) := by
  induction m generalizing s with
  | zero => omega
  | succ m ih =>
    rw [recordedPath] at hq ⊢
    rw [List.getElem?_append_left (by simpa using hj)]
    rcases Nat.lt_or_eq_of_le (Nat.lt_succ_iff.mp hj) with hlt | rfl
    · rw [List.getElem?_append_left (by simpa using hlt)] at hq
      exact ih _ hlt hq
    · rw [List.getElem?_append_right (by simp)] at hq
      obtain rfl : s = q := by simpa using hq
      exact recordedPath_last _ _ _ _

theorem recordedPath_headD_succ (tr : List (List Nat)) (first m s : Nat) :
    (recordedPath tr first (m + 1) s).headD 0 = (recordedPath tr first m (readTrellis tr (first + m) s)).headD 0 := by
  rw [recordedPath]
  cases h : recordedPath tr first m (readTrellis tr (first + m) s) with
  | nil => simpa [h] using recordedPath_length tr first m (readTrellis tr (first + m) s)
  | cons => rfl

/-- The path depends on the columns it walks alone. -/
theorem recordedPath_congr {tr tr' : List (List Nat)} {first first' m : Nat}
    (h : ∀ j, j < m → ∀ s, readTrellis tr (first + j) s = readTrellis tr' (first' + j) s) (s : Nat) :
    recordedPath tr first m s = recordedPath tr' first' m s := by
  induction m generalizing s with
  | zero => rfl
  | succ m ih => rw [recordedPath, recordedPath, h m (by omega), ih fun j hj => h j (by omega)]

/-- A path cut at a column: its last m steps are the path over the last m columns. -/
theorem recordedPath_drop (tr : List (List Nat)) (first a m s : Nat) :
    (recordedPath tr first (a + m) s).drop a = recordedPath tr (first + a) m s := by
  induction m generalizing s with
  | zero =>
    cases a with
    | zero => rfl
    | succ a =>
      change (recordedPath tr first a _ ++ [s]).drop (a + 1) = [s]
      rw [List.drop_append_of_le_length (by simp)]; simp
  | succ m ih =>
    rw [← Nat.add_assoc, recordedPath, List.drop_append_of_le_length (by simp; omega), ih, recordedPath,
      Nat.add_assoc first a m]

@[simp] theorem survivor_length (c : Code) (tr : List (List Nat)) (first m s : Nat) :
    (survivor c tr first m s).length = m := by simp [survivor]

@[simp] theorem survivor_zero (c : Code) (tr : List (List Nat)) (first s : Nat) : survivor c tr first 0 s = [] := rfl

theorem survivor_succ (c : Code) (tr : List (List Nat)) (first m s : Nat) :
    survivor c tr first (m + 1) s = survivor c tr first m (readTrellis tr (first + m) s) ++ [inbit c.kVal s] := by
  rw [survivor, recordedPath, List.drop_append_of_le_length (by simp), List.map_append]
  rfl

theorem survivor_congr (c : Code) {tr tr' : List (List Nat)} {first first' m : Nat}
    (h : ∀ j, j < m → ∀ s, readTrellis tr (first + j) s = readTrellis tr' (first' + j) s) (s : Nat) :
    survivor c tr first m s = survivor c tr' first' m s := by
  rw [survivor, survivor, recordedPath_congr h]

/-- Later columns do not matter. -/
theorem survivor_append (c : Code) (tr more : List (List Nat)) {first m : Nat} (h : first + m ≤ tr.length) (s : Nat) :
    survivor c (tr ++ more) first m s = survivor c tr first m s :=
  survivor_congr c (fun j hj s => readTrellis_append_old tr more (by omega) s) s

theorem survivor_drop (c : Code) (tr : List (List Nat)) (first a m s : Nat) :
    (survivor c tr first (a + m) s).drop a = survivor c tr (first + a) m s := by
  rw [survivor, survivor, ← recordedPath_drop, ← List.map_drop, List.drop_drop, List.drop_drop, Nat.add_comm 1 a]

theorem survivorBits_survivor (c : Code) (w : Work) (first m : Nat) :
    SurvivorBits c w first (survivor c w.tr first m (bestState c w.pm)) := by
  refine ⟨recordedPath w.tr first m (bestState c w.pm), by simp, by simpa using recordedPath_last _ _ _ _,
    fun j s hj hs => recordedPath_step _ _ _ _ (by simpa using hj) hs, rfl⟩

/-! ### The traceback walks the recorded path -/

theorem readTrellis_take {tr : List (List Nat)} {n j : Nat} (h : j < n) (s : Nat) :
    readTrellis (tr.take n) j s = readTrellis tr j s := by
  simp [readTrellis, List.getD, h]

/-- The last m columns walked: the bits recovered, and the state arrived at. -/
theorem tbRun_eq_survivor (c : Code) {m : Nat} (d : List Bool) {w : Work} (hm : m ≤ w.colcnt) :
    (tbRun c m d w).1 = survivor c w.tr (w.colcnt - m) m w.tbState ++ d ∧
    (tbRun c m d w).2.tbState = (recordedPath w.tr (w.colcnt - m) m w.tbState).headD 0 := by
  induction m generalizing d w with
  | zero => exact ⟨rfl, rfl⟩
  | succ m ih =>
    obtain ⟨hbits, hstate⟩ := ih (inbit c.kVal w.tbState :: d) (w := (tbStep c w).2) (by simp; omega)
    have hfirst : w.colcnt - 1 - m = w.colcnt - (m + 1) := by omega
    have hlast : w.colcnt - (m + 1) + m = w.colcnt - 1 := by omega
    have hpath := recordedPath_congr (tr := w.tr.take (w.colcnt - 1)) (tr' := w.tr) (first := w.colcnt - (m + 1))
      (first' := w.colcnt - (m + 1)) (m := m) (fun j hj s => readTrellis_take (by omega) s)
      (readTrellis w.tr (w.colcnt - 1) w.tbState)
    simp only [tbStep_tr, tbStep_colcnt, tbStep_tbState, hfirst, survivor, hpath] at hbits hstate
    rw [tbRun_succ, survivor_succ, recordedPath_headD_succ, hlast, survivor]
    exact ⟨by rw [hbits]; simp, hstate⟩

theorem traceback_bits (c : Code) (w : Work) :
    (traceback c w).1 = survivor c w.tr 0 w.colcnt (bestState c w.pm) := by
  have h := (tbRun_eq_survivor c [] (w := selectBest c w) (Nat.le_refl w.colcnt)).1
  simpa [traceback] using h

theorem traceback_tbState (c : Code) (w : Work) :
    (traceback c w).2.tbState = (recordedPath w.tr 0 w.colcnt (bestState c w.pm)).headD 0 := by
  have h := (tbRun_eq_survivor c [] (w := selectBest c w) (Nat.le_refl w.colcnt)).2
  simpa [traceback] using h

/-! ### The path metric as a distance (R45, R173) -/

theorem length_flatten_of_width {p : Nat} {rs : List Symbol} (h : ∀ r ∈ rs, r.length = p) :
    rs.flatten.length = rs.length * p := by
  induction rs with
  | nil => simp
  | cons r rs ih =>
    rw [List.flatten_cons, List.length_append, h r (by simp), ih fun q hq => h q (by simp [hq]), List.length_cons,
      Nat.add_mul, Nat.one_mul, Nat.add_comm]

theorem columnSteps_append_singleton (c : Code) (rs : List Symbol) (r : Symbol) (w : Work) :
    columnSteps c (rs ++ [r]) w = colStep c r (columnSteps c rs w) := by
  rw [columnSteps_append]; rfl

section
variable {config : Config} {c : Code} {rs : List Symbol}

/-- One more symbol: the distance grows by that of the edge taken. -/
theorem Code.Ok.hamming_codeword_edge (h : c.Ok config) {r : Symbol} (hrs : ∀ q ∈ rs, q.length = c.pVal) {y : List Bool}
    (hy : y.length = rs.length) {s : Nat} {z : Bool} (hp : endState c.kVal y = pred c.kVal s z) :
    hamming (codeword c.kVal c.g (y ++ [inbit c.kVal s])) (rs ++ [r]).flatten =
      hamming (codeword c.kVal c.g y) rs.flatten + branchMetric r (edgeOut c (pred c.kVal s z) s) := by
  have hlen : (codeword c.kVal c.g y).length = rs.flatten.length := by
    rw [codeword_length, h.count, length_flatten_of_width hrs, hy]
  rw [h.codeword_append_edge hp, List.flatten_append, List.flatten_singleton, hamming_append _ _ hlen,
    branchMetric_eq_hamming, hamming_comm r]

/-- No input is closer to the received symbols than the metric of the state it ends in. -/
theorem Code.Ok.metric_le_hamming (h : c.Ok config) (hrs : ∀ r ∈ rs, r.length = c.pVal) (w : Work) (m : Mode)
    {x : List Bool} (hx : x.length = rs.length) :
    (readMetric (columnSteps c rs (w.decodeStart c m)).pm (endState c.kVal x)).toNat ≤
      hamming (codeword c.kVal c.g x) rs.flatten := by
  induction rs using List.reverseRecOn generalizing x with
  | nil =>
    obtain rfl := List.length_eq_zero_iff.mp hx
    simp [readMetric_startMetrics_zero]
  | append_singleton rs r ih =>
    have hrs' : ∀ q ∈ rs, q.length = c.pVal := fun q hq => hrs q (by simp [hq])
    rcases List.eq_nil_or_concat' x with rfl | ⟨y, b, rfl⟩
    · simp at hx
    have hy : y.length = rs.length := by simpa using hx
    have hs := nextState_lt h.two_le (endState_lt h.two_le y) b
    rw [endState_append_singleton, columnSteps_append_singleton, readMetric_colStep _ _ _ hs]
    generalize hsdef : nextState c.kVal (endState c.kVal y) b = s at hs
    obtain ⟨rfl, hpred⟩ := (nextState_eq_iff h.two_le hs (endState_lt h.two_le y) b).mp hsdef
    obtain ⟨z, hz⟩ : ∃ z, endState c.kVal y = pred c.kVal s z := by
      rcases hpred with hp | hp
      · exact ⟨_, hp⟩
      · exact ⟨_, hp⟩
    obtain ⟨_, hacs, hmin, _⟩ := acs_cases c (columnSteps c rs (w.decodeStart c m)).pm r s
    have hnew := congrArg Prod.fst hacs
    dsimp only at hnew
    have hle := BitVec.le_def.mp (hmin z)
    have hold := ih hrs' hy
    rw [h.hamming_codeword_edge hrs' hy hz, hnew]
    rw [candidate_toNat c _ r (pred c.kVal s z), ← hz] at hle
    rw [hz] at hle hold
    omega

/-- A metric below the sentinel is the distance of the encoding of the recorded path, which ends in its state. -/
theorem Code.Ok.survivor_distance (h : c.Ok config) (hrs : ∀ r ∈ rs, r.length = c.pVal) (w : Work) (m : Mode)
    {s : Nat} (hs : s < 2 ^ (c.kVal - 1))
    (hlt : (readMetric (columnSteps c rs (w.decodeStart c m)).pm s).toNat < 255) :
    endState c.kVal (survivor c (columnSteps c rs (w.decodeStart c m)).tr 0 rs.length s) = s ∧
    hamming (codeword c.kVal c.g (survivor c (columnSteps c rs (w.decodeStart c m)).tr 0 rs.length s)) rs.flatten =
      (readMetric (columnSteps c rs (w.decodeStart c m)).pm s).toNat := by
  induction rs using List.reverseRecOn generalizing s with
  | nil =>
    have h0 : s = 0 := by
      by_contra hne
      have hinf : readMetric (startMetrics c) s = inf := by
        rw [readMetric, List.getD, getElem?_startMetrics c hs, if_neg hne]; rfl
      simp [hinf, inf_toNat] at hlt
    subst h0
    simp [readMetric_startMetrics_zero]
  | append_singleton rs r ih =>
    have hrs' : ∀ q ∈ rs, q.length = c.pVal := fun q hq => hrs q (by simp [hq])
    have htr : (columnSteps c rs (w.decodeStart c m)).tr.length = rs.length := by
      obtain ⟨_, _, _, _, _, _, htr, _⟩ := columnSteps_frame c rs (w.decodeStart c m)
      simpa using htr
    rw [columnSteps_append_singleton] at hlt ⊢
    generalize hW : columnSteps c rs (w.decodeStart c m) = W at hlt htr ih ⊢
    obtain ⟨z, hacs, _, _⟩ := acs_cases c W.pm r s
    have hnew : readMetric (colStep c r W).pm s = candidate c W.pm r (pred c.kVal s z) s := by
      rw [readMetric_colStep _ _ _ hs, hacs]
    have hrec : readTrellis (colStep c r W).tr rs.length s = pred c.kVal s z := by
      rw [← htr, readTrellis_colStep_new _ _ _ hs, hacs]
    have hsurv : survivor c (colStep c r W).tr 0 (rs ++ [r]).length s =
        survivor c W.tr 0 rs.length (pred c.kVal s z) ++ [inbit c.kVal s] := by
      rw [List.length_append, List.length_singleton, survivor_succ, Nat.zero_add, hrec, colStep_tr,
        survivor_append _ _ _ (by omega)]
    rw [hnew, candidate_toNat] at hlt
    have hold : (readMetric W.pm (pred c.kVal s z)).toNat < 255 := by omega
    obtain ⟨hend, hdist⟩ := ih hrs' (pred_lt z h.two_le) hold
    rw [hsurv, endState_append_singleton, hend, nextState_pred h.two_le hs, hnew, candidate_toNat,
      h.hamming_codeword_edge hrs' (by simp) hend, hdist]
    exact ⟨rfl, by omega⟩

/-- The recorded path to the best state is a closest input, when some input is closer than the sentinel. -/
theorem Code.Ok.survivor_closest (h : c.Ok config) (hrs : ∀ r ∈ rs, r.length = c.pVal) (w : Work) (m : Mode)
    {x : List Bool} (hx : x.length = rs.length) (hlt : hamming (codeword c.kVal c.g x) rs.flatten < 255)
    {y : List Bool} (hy : y.length = rs.length) :
    hamming (codeword c.kVal c.g (survivor c (columnSteps c rs (w.decodeStart c m)).tr 0 rs.length
        (bestState c (columnSteps c rs (w.decodeStart c m)).pm))) rs.flatten ≤
      hamming (codeword c.kVal c.g y) rs.flatten := by
  generalize hW : columnSteps c rs (w.decodeStart c m) = W
  have best (z : List Bool) (hz : z.length = rs.length) :
      (readMetric W.pm (bestState c W.pm)).toNat ≤ hamming (codeword c.kVal c.g z) rs.flatten :=
    (BitVec.le_def.mp (readMetric_bestState_le c W.pm (endState_lt h.two_le z))).trans
      (hW ▸ h.metric_le_hamming hrs w m hz)
  have distance := (h.survivor_distance hrs w m (bestState_lt c W.pm) (by rw [hW]; exact (best x hx).trans_lt hlt)).2
  rw [hW] at distance
  rw [distance]
  exact best y hy

end

/-! ### DECF -/

theorem decfOk_of {s : State} {n : Nat} (hv : s.cfgValid = true) (hn : n % s.code.pVal = 0)
    (hf : s.config.fits (n / s.code.pVal) = true) : s.decfOk n = true := by
  simp [State.decfOk, State.dectOk, hv, hn, hf]

theorem received_flatten {s : State} {r : List Bool} (hn : r.length % s.code.pVal = 0) :
    (s.received r.length r).flatten = r :=
  symbols_flatten (Nat.div_mul_cancel (Nat.dvd_of_mod_eq_zero hn))

theorem received_width {s : State} {r : List Bool} (hn : r.length % s.code.pVal = 0) :
    ∀ q ∈ s.received r.length r, q.length = s.code.pVal :=
  symbols_width (Nat.div_mul_cancel (Nat.dvd_of_mod_eq_zero hn)).le

/-- DECF's bits: the recorded path from the best state over all columns (R171, R172). -/
theorem decodeFull_bits (c : Code) (rs : List Symbol) (w : Work) :
    (decodeFull c rs w).1 =
      survivor c (columnSteps c rs (w.decodeStart c .full)).tr 0 rs.length
        (bestState c (columnSteps c rs (w.decodeStart c .full)).pm) := by
  obtain ⟨_, _, _, _, _, hcol, _, _⟩ := columnSteps_frame c rs (w.decodeStart c .full)
  rw [decodeFull_eq, traceback_bits, hcol]
  simp

/-! ### Saturation (R268) -/

theorem acs_of_inf {c : Code} {pm : List Metric} (h : ∀ s, readMetric pm s = inf) (r : Symbol) (s : Nat) :
    acs c pm r s = (inf, pred c.kVal s false) := by
  have hc (p : Nat) : candidate c pm r p s = inf := by rw [candidate, h, satAdd_inf]
  rw [acs_eq, hc, hc, if_pos (BitVec.le_refl _)]

/-! ### The statements -/

/-- Settles O27: a traceback walks `recordedPath`. -/
theorem tracebackFollowsTheRecordedPath : Obligations.TracebackFollowsTheRecordedPath := by
  intro c w h
  refine ⟨recordedPath w.tr 0 w.colcnt (bestState c w.pm), recordedPath_length _ _ _ _, recordedPath_last _ _ _ _,
    fun col s hcol hs => ?_, traceback_bits c w, ?_⟩
  · have := recordedPath_step _ _ _ _ hcol hs
    rwa [Nat.zero_add] at this
  · obtain ⟨b, hb⟩ := traceback_work c w h
    have hstate := traceback_tbState c w
    rw [hb] at hstate
    rw [hb, ← hstate]

/-- Settles O28: the recorded path is an input at the distance of the entry, and none that ends in s is closer. -/
theorem pathMetricIsTheLeastDistance : Obligations.PathMetricIsTheLeastDistance := by
  intro config c rs w m hok hrs s hs entry
  refine ⟨fun hlt => ?_, ?_⟩
  · obtain ⟨hend, hdist⟩ := hok.survivor_distance hrs w m hs hlt
    exact ⟨_, survivor_length _ _ _ _ _, hend, hdist⟩
  · rintro x hx rfl
    exact hok.metric_le_hamming hrs w m hx

/-- Settles O29: every lane sees the sentinel through both predecessors, a tie (`acs_of_inf`). -/
theorem saturatedMetricsForgetTheInput : Obligations.SaturatedMetricsForgetTheInput := by
  intro c r w hpm
  have hacs : acs c w.pm r = fun s => (inf, pred c.kVal s false) := by
    funext s
    exact acs_of_inf (fun q => by rw [hpm]; exact readMetric_replicate_inf _ q) r s
  have hnew : (colStep c r w).pm = List.replicate (2 ^ (c.kVal - 1)) inf := by
    rw [colStep_pm, hacs, List.map_map, nStates_eq]
    simp [Function.comp_def]
  refine ⟨hnew, by rw [colStep_tr, hacs, List.map_map, nStates_eq]; rfl, ?_⟩
  rw [hnew]
  exact (bestStateIsTheLeastMinimum.2 c).2

/-- Settles O50. -/
theorem decfDeliversTheSurvivorPath : Obligations.DecfDeliversTheSurvivorPath := by
  intro s r rest hinv hv hd hn hf n
  refine ⟨(decodeFull s.code (s.received r.length r) s.work).1, _,
    execDecf_supplied hd (decfOk_of hv hn hf), rfl, ?_, ?_⟩
  · rw [(decodeFull_frame _ _ _).1, State.received, symbols_length]
  · rw [decodeFull_bits]
    exact survivorBits_survivor _ _ _ _

/-- Settles O30: the bits are the recorded path to the best state, a closest input (`survivor_closest`). -/
theorem decfReturnsAClosestInput : Obligations.DecfReturnsAClosestInput := by
  intro s r rest hinv hv hd hn hf
  obtain ⟨hlen, htr, hcol, henc, hacc, hcnt⟩ := decodeFull_frame s.code (s.received r.length r) s.work
  have hn' : (s.received r.length r).length = r.length / s.code.pVal := symbols_length _ _ _
  refine ⟨(decodeFull s.code (s.received r.length r) s.work).1, _, _,
    execDecf_supplied hd (decfOk_of hv hn hf), hlen.trans hn', htr, hcol, henc, hacc, hcnt, ?_⟩
  rintro ⟨x, hx, hlt⟩ y hy
  have closest := (hinv.code hv).survivor_closest (received_width hn) s.work .full (x := x) (y := y)
  rw [received_flatten hn, ← decodeFull_bits] at closest
  exact closest (hx.trans hlen) hlt (hy.trans hlen)

end Sys2Proof.Machine
end

section
/-! SUPPORT. What the statements on truncated decode and on noiseless decoding need beside the laws: the bits of one window
as a part of the path over all columns so far, and which inputs an encoding determines. -/

namespace Sys2Proof.Machine

/-! ### Windows of the recorded path -/

/-- The bits of the columns from `first` on of the path that a traceback after the symbols rs walks. -/
def windowBits (c : Code) (w : Work) (rs : List Symbol) (first : Nat) : List Bool :=
  survivor c (columnSteps c rs w).tr first (rs.length - first) (bestState c (columnSteps c rs w).pm)

@[simp] theorem windowBits_length (c : Code) (w : Work) (rs : List Symbol) (first : Nat) :
    (windowBits c w rs first).length = rs.length - first := survivor_length _ _ _ _ _

theorem decodeFull_eq_windowBits (c : Code) (rs : List Symbol) (w : Work) :
    (decodeFull c rs w).1 = windowBits c (w.decodeStart c .full) rs 0 := decodeFull_bits c rs w

theorem windowBits_drop (c : Code) (w : Work) {rs : List Symbol} {first : Nat} (h : first ≤ rs.length) :
    (windowBits c w rs 0).drop first = windowBits c w rs first := by
  have := survivor_drop c (columnSteps c rs w).tr 0 first (rs.length - first) (bestState c (columnSteps c rs w).pm)
  rwa [Nat.add_sub_cancel' h, Nat.zero_add] at this

theorem windowBits_of_lt (c : Code) (w : Work) {rs : List Symbol} {first : Nat} (h : first < rs.length) :
    ∃ y, windowBits c w rs first = y ++ [inbit c.kVal (bestState c (columnSteps c rs w).pm)] := by
  obtain ⟨m, hm⟩ : ∃ m, rs.length - first = m + 1 := ⟨rs.length - first - 1, by omega⟩
  rw [windowBits, hm, survivor_succ]
  exact ⟨_, rfl⟩

/-! ### Column steps over a shortened trellis -/

/-- Columns already in TR are carried along: the new ones depend on the metrics alone. -/
theorem columnSteps_carry (c : Code) (rs : List Symbol) {w w' : Work} {old : List (List Nat)} (hpm : w.pm = w'.pm)
    (htr : w.tr = old ++ w'.tr) :
    (columnSteps c rs w).pm = (columnSteps c rs w').pm ∧ (columnSteps c rs w).tr = old ++ (columnSteps c rs w').tr := by
  induction rs generalizing w w' with
  | nil => exact ⟨hpm, htr⟩
  | cons r rs ih => exact ih (by simp [hpm]) (by simp [hpm, htr])

theorem windowBits_congr (c : Code) (rs : List Symbol) (first : Nat) {w w' : Work} (hpm : w.pm = w'.pm)
    (htr : w.tr = w'.tr) : windowBits c w rs first = windowBits c w' rs first := by
  obtain ⟨h1, h2⟩ := columnSteps_carry c rs (old := []) hpm htr
  rw [windowBits, windowBits, h1, h2, List.nil_append]

theorem readTrellis_append_new (old tr : List (List Nat)) (j s : Nat) :
    readTrellis (old ++ tr) (old.length + j) s = readTrellis tr j s := by
  simp [readTrellis, List.getD, List.getElem?_append_right]

/-! ### The loop of DECT, window by window (R201 to R203) -/

/-- COLCNT runs through 0 … WIN - 1: a flush empties it when it reaches WIN. -/
theorem decodeLoop_colcnt {c : Code} (rs : List Symbol) {w : Work} (hm : w.mode = .truncated)
    (hc : w.colcnt = w.tr.length) (hlt : w.colcnt < c.win) :
    (decodeLoop c rs w).2.colcnt = (w.colcnt + rs.length) % c.win := by
  induction rs generalizing w with
  | nil => simp [Nat.mod_eq_of_lt hlt]
  | cons r rs ih =>
    have hc1 : (colStep c r w).colcnt = (colStep c r w).tr.length := by simp [hc]
    by_cases hw : w.colcnt + 1 = c.win
    · obtain ⟨b, hb⟩ := flush_work c _ hc1
      rw [decodeLoop_cons_of_due _ _ _ _ (by simp [flushDue, hm, hw]), ih (by rw [hb]; exact hm) (by rw [hb]; rfl)
        (by rw [hb]; dsimp only; omega), hb]
      rw [List.length_cons, Nat.add_comm rs.length 1, ← Nat.add_assoc, hw]
      simp
    · rw [decodeLoop_cons_of_not_due _ _ _ _ (by simp [flushDue, hw]), ih (by simpa using hm) hc1
        (by rw [colStep_colcnt]; omega), colStep_colcnt, List.length_cons]
      congr 1; omega

/-- A whole window from an empty trellis ends in its flush. -/
theorem decodeLoop_whole_window {c : Code} {rs : List Symbol} {w : Work} (hm : w.mode = .truncated) (h0 : w.colcnt = 0)
    (hlen : rs.length = c.win) (hpos : 0 < c.win) : decodeLoop c rs w = flush c (columnSteps c rs w) := by
  rcases List.eq_nil_or_concat' rs with rfl | ⟨qs, r, rfl⟩
  · simp at hlen; omega
  have hqs : qs.length + 1 = c.win := by simpa using hlen
  obtain ⟨hmode, _, _, _, _, hcol, _, _⟩ := columnSteps_frame c qs w
  rw [decodeLoop_append, decodeLoop_below_window c qs w (by omega), columnSteps_append_singleton,
    decodeLoop_cons_of_due _ _ _ _ (by simp [flushDue, hmode, hm, hcol, h0, hqs])]
  simp only [decodeLoop_nil, List.nil_append, List.append_nil]

theorem flushRest_of_empty (c : Code) {w : Work} (h : w.colcnt = 0) : flushRest c w = ([], w) := by
  simp [flushRest, h]

theorem flushRest_of_pos (c : Code) {w : Work} (h : 0 < w.colcnt) : flushRest c w = flush c w := by
  simp [flushRest, h]

section
variable {c : Code} (w : Work) {pre rs : List Symbol}

/-- After whole windows the trellis is empty, every symbol has given its bit, and the metrics are those of the column
steps alone. -/
theorem decodeLoop_whole_windows (hpre : pre.length % c.win = 0) (hpos : 0 < c.win) :
    (decodeLoop c pre (w.decodeStart c .truncated)).2.mode = .truncated ∧
    (decodeLoop c pre (w.decodeStart c .truncated)).2.colcnt = 0 ∧
    (decodeLoop c pre (w.decodeStart c .truncated)).2.tr = [] ∧
    (decodeLoop c pre (w.decodeStart c .truncated)).2.pm =
      (columnSteps c pre (w.decodeStart c .truncated)).pm ∧
    (decodeLoop c pre (w.decodeStart c .truncated)).1.length = pre.length := by
  obtain ⟨hmode, _, _, _, hcol, hlen⟩ := decodeLoop_frame c pre (w.decodeStart c .truncated) rfl
  have h0 := decodeLoop_colcnt (c := c) pre (w := w.decodeStart c .truncated) rfl rfl hpos
  rw [decodeStart_colcnt, Nat.zero_add, hpre] at h0
  refine ⟨hmode, h0, List.length_eq_zero_iff.mp (hcol ▸ h0), decodeLoop_pm c pre rfl rfl, ?_⟩
  rw [h0] at hlen
  simpa using hlen

/-- What a traceback recovers in the window after the whole windows `pre`: the part of the path over all columns from
the end of `pre` on. -/
theorem traceback_window (hpre : pre.length % c.win = 0) (hpos : 0 < c.win) :
    (traceback c (columnSteps c rs (decodeLoop c pre (w.decodeStart c .truncated)).2)).1 =
      windowBits c (w.decodeStart c .truncated) (pre ++ rs) pre.length := by
  obtain ⟨_, h0, htr, hpm, _⟩ := decodeLoop_whole_windows w hpre hpos
  generalize (decodeLoop c pre (w.decodeStart c .truncated)).2 = v at *
  obtain ⟨_, _, _, _, _, hcol, _, _⟩ := columnSteps_frame c rs v
  obtain ⟨_, _, _, _, _, _, hold, _⟩ := columnSteps_frame c pre (w.decodeStart c .truncated)
  have hold : (columnSteps c pre (w.decodeStart c .truncated)).tr.length = pre.length := by simpa using hold
  obtain ⟨hpm', htr'⟩ := columnSteps_carry c rs (old := (columnSteps c pre (w.decodeStart c .truncated)).tr) hpm.symm
    (by rw [htr, List.append_nil])
  rw [traceback_bits, windowBits, columnSteps_append, hpm', htr', hcol, h0]
  rw [List.length_append, Nat.add_sub_cancel_left, Nat.zero_add]
  refine survivor_congr c (fun j _ s => ?_) _
  rw [Nat.zero_add, ← hold, readTrellis_append_new]

/-- DECT's bits, at a window `rs` after the whole windows `pre`: the window is whole, or it is the last. -/
theorem decodeTruncated_bits (hpre : pre.length % c.win = 0) (hpos : 0 < c.win) (hrs : 0 < rs.length)
    {more : List Symbol} (hlast : rs.length = c.win ∨ (rs.length < c.win ∧ more = [])) :
    ∃ d, (decodeTruncated c (pre ++ rs ++ more) w).1 =
      (decodeLoop c pre (w.decodeStart c .truncated)).1 ++
        windowBits c (w.decodeStart c .truncated) (pre ++ rs) pre.length ++ d := by
  obtain ⟨hmode, h0, htr, _, _⟩ := decodeLoop_whole_windows w hpre hpos
  rw [← traceback_window w hpre hpos, decodeTruncated_eq, List.append_assoc, decodeLoop_append]
  generalize (decodeLoop c pre (w.decodeStart c .truncated)).2 = v at *
  rcases hlast with hwhole | ⟨hpart, rfl⟩
  · rw [decodeLoop_append, decodeLoop_whole_window hmode h0 hwhole hpos, flush_bits]
    exact ⟨_, by simp only [List.append_assoc]; rfl⟩
  · obtain ⟨_, _, _, _, _, hcol, _, _⟩ := columnSteps_frame c rs v
    rw [List.append_nil, decodeLoop_below_window c rs v (by omega), flushRest_of_pos c (by dsimp only; omega),
      flush_bits]
    exact ⟨[], by simp⟩

/-- DECT's bits of one window, from the metrics and columns of column steps that no flush has touched (R202, R203). -/
theorem decodeTruncated_window (hpos : 0 < c.win) (f : Nat) (hf : f * c.win < rs.length) :
    ((decodeTruncated c rs w).1.take (min ((f + 1) * c.win) rs.length)).drop (f * c.win) =
      windowBits c (w.decodeStart c .truncated) (rs.take (min ((f + 1) * c.win) rs.length)) (f * c.win) := by
  obtain ⟨upTo, hupTo⟩ : ∃ u, u = min ((f + 1) * c.win) rs.length := ⟨_, rfl⟩
  rw [← hupTo]
  rw [Nat.add_mul, Nat.one_mul] at hupTo
  have hpre : (rs.take (f * c.win)).length = f * c.win := by rw [List.length_take]; omega
  have hwin : ((rs.take upTo).drop (f * c.win)).length = upTo - f * c.win := by
    rw [List.length_drop, List.length_take]; omega
  have hcut : rs.take (f * c.win) ++ (rs.take upTo).drop (f * c.win) = rs.take upTo := by
    rw [show rs.take (f * c.win) = (rs.take upTo).take (f * c.win) by rw [List.take_take]; congr 1; omega,
      List.take_append_drop]
  have hmod : (rs.take (f * c.win)).length % c.win = 0 := by rw [hpre, Nat.mul_mod_left]
  obtain ⟨d, hd⟩ := decodeTruncated_bits w (rs := (rs.take upTo).drop (f * c.win)) hmod hpos (by omega)
    (more := rs.drop upTo) (by
      rcases Nat.lt_or_ge rs.length (f * c.win + c.win) with hlt | hge
      · exact .inr ⟨by omega, List.drop_eq_nil_of_le (by omega)⟩
      · exact .inl (by omega))
  obtain ⟨_, _, _, _, hlen⟩ := decodeLoop_whole_windows w hmod hpos
  rw [hcut, List.take_append_drop, hpre] at hd
  have hbits : (windowBits c (w.decodeStart c .truncated) (rs.take upTo) (f * c.win)).length = upTo - f * c.win := by
    rw [windowBits_length, List.length_take]; omega
  rw [hd, List.take_left' (by rw [List.length_append, hlen, hbits, hpre]; omega), List.drop_left' (by omega)]

end

/-! ### What an encoding determines (R174) -/

/-- The newest input is tapped by bit 0 of a polynomial. -/
theorem tapSum_append_singleton {k : Nat} (hk : 1 ≤ k) (g : Nat) (x : List Bool) (b : Bool) :
    tapSum k g (x ++ [b]) x.length = ((g.testBit 0 && b) ^^ tapSum k g (x ++ [false]) x.length) := by
  obtain ⟨k, rfl⟩ : ∃ n, k = n + 1 := ⟨k - 1, by omega⟩
  unfold tapSum
  rw [xorOver_succ', xorOver_succ', inputBefore_here, inputBefore_here]
  simp [inputBefore_append_succ]

theorem Code.Ok.codeword_take {config : Config} {c : Code} (h : c.Ok config) (x : List Bool) {m : Nat}
    (hm : m ≤ x.length) : codeword c.kVal c.g (x.take m) = (codeword c.kVal c.g x).take (m * c.pVal) := by
  have hlen : (codeword c.kVal c.g (x.take m)).length = m * c.pVal := by
    rw [codeword_length, List.length_take, Nat.min_eq_left hm, h.count]
  have hall := h.encodeBits_from (x.take m) (x.drop m) { Work.reset with encState := endState c.kVal (x.take m) } rfl
  rw [List.take_append_drop] at hall
  rw [hall, List.take_left' hlen]

theorem flatten_take_of_width {p m : Nat} {rs : List Symbol} (h : ∀ r ∈ rs, r.length = p) (hm : m ≤ rs.length) :
    (rs.take m).flatten = rs.flatten.take (m * p) := by
  have hlen : (rs.take m).flatten.length = m * p := by
    rw [length_flatten_of_width fun r hr => h r (List.mem_of_mem_take hr), List.length_take, Nat.min_eq_left hm]
  conv_rhs => rw [← List.take_append_drop m rs, List.flatten_append, List.take_left' hlen]

/-- When some polynomial taps the newest input, the encoding determines the input. -/
theorem codeword_injective {k : Nat} (hk : 1 ≤ k) {g : List Word} (hg : ∃ gj ∈ g, gj.toNat.testBit 0 = true)
    {x y : List Bool} (hlen : x.length = y.length) (h : codeword k g x = codeword k g y) : x = y := by
  induction x using List.reverseRecOn generalizing y with
  | nil => exact (List.length_eq_zero_iff.mp hlen.symm).symm
  | append_singleton x b ih =>
    rcases List.eq_nil_or_concat' y with rfl | ⟨y, b', rfl⟩
    · simp at hlen
    have hlen : x.length = y.length := by simpa using hlen
    rw [codeword_append_singleton, codeword_append_singleton] at h
    obtain ⟨hold, hnew⟩ := List.append_inj h (by rw [codeword_length, codeword_length, hlen])
    obtain rfl := ih hlen hold
    obtain ⟨gj, hgj, hbit⟩ := hg
    have htap := List.map_inj_left.mp hnew gj hgj
    rw [tapSum_append_singleton hk, tapSum_append_singleton hk _ _ b'] at htap
    simpa [hbit] using htap

/-- When no polynomial taps the newest input, the encoding does not tell it. -/
theorem codeword_even {k : Nat} (hk : 1 ≤ k) {g : List Word} (hg : ∀ gj ∈ g, gj.toNat.testBit 0 = false)
    (x : List Bool) (b : Bool) : codeword k g (x ++ [b]) = codeword k g (x ++ [false]) := by
  rw [codeword_append_singleton, codeword_append_singleton]
  congr 1
  refine List.map_congr_left fun gj hgj => ?_
  rw [tapSum_append_singleton hk, hg gj hgj, Bool.false_and, Bool.false_xor]

section
variable {config : Config} {c : Code} {rs : List Symbol}

/-- Without noise the recorded path is the input. -/
theorem Code.Ok.windowBits_noiseless (h : c.Ok config) (hg : ∃ gj ∈ c.g, gj.toNat.testBit 0 = true)
    (hrs : ∀ r ∈ rs, r.length = c.pVal) (w : Work) (m : Mode) {x : List Bool} (hx : x.length = rs.length)
    (e : rs.flatten = codeword c.kVal c.g x) : windowBits c (w.decodeStart c m) rs 0 = x := by
  have hlen : (windowBits c (w.decodeStart c m) rs 0).length = rs.length := windowBits_length _ _ _ _
  have h0 : hamming (codeword c.kVal c.g x) rs.flatten = 0 := by rw [e, hamming_self]
  have closest : hamming (codeword c.kVal c.g (windowBits c (w.decodeStart c m) rs 0)) rs.flatten ≤
      hamming (codeword c.kVal c.g x) rs.flatten :=
    h.survivor_closest hrs w m hx (by omega) hx
  rw [h0, e] at closest
  refine codeword_injective (by have := h.two_le; omega) hg (hlen.trans hx.symm)
    (eq_of_hamming_eq_zero ?_ (Nat.le_zero.mp closest))
  rw [codeword_length, codeword_length, hlen, hx]

/-- A state that an encoding reaches without noise has metric 0, so the best state is no later one. -/
theorem Code.Ok.bestState_le_endState (h : c.Ok config) (hrs : ∀ r ∈ rs, r.length = c.pVal) (w : Work) (m : Mode)
    {x : List Bool} (hx : x.length = rs.length) (e : rs.flatten = codeword c.kVal c.g x) :
    bestState c (columnSteps c rs (w.decodeStart c m)).pm ≤ endState c.kVal x := by
  have hle := h.metric_le_hamming hrs w m hx
  rw [e, hamming_self] at hle
  by_contra hlt
  have := BitVec.lt_def.mp (readMetric_bestState_lt (Nat.not_le.mp hlt))
  omega

/-- With even polynomials an input that ends in 0 reaches its state without noise as well: the best state lies in the
lower half. -/
theorem Code.Ok.inbit_bestState_even (h : c.Ok config) (hg : ∀ gj ∈ c.g, gj.toNat.testBit 0 = false)
    (hrs : ∀ r ∈ rs, r.length = c.pVal) (w : Work) (m : Mode) {x : List Bool} {b : Bool}
    (hx : (x ++ [b]).length = rs.length) (e : rs.flatten = codeword c.kVal c.g (x ++ [b])) :
    inbit c.kVal (bestState c (columnSteps c rs (w.decodeStart c m)).pm) = false := by
  have hk := h.two_le
  rw [codeword_even (by omega) hg] at e
  have hle := h.bestState_le_endState hrs w m (x := x ++ [false]) (by simpa using hx) e
  have hend := endState_lt hk x
  rw [endState_append_singleton, nextState_eq hk hend] at hle
  rw [pow_pred hk] at hend
  have hlow : ¬ 2 ^ (c.kVal - 2) ≤ bestState c (columnSteps c rs (w.decodeStart c m)).pm := by
    simp at hle; omega
  rw [inbit_eq hk (bestState_lt c _), decide_eq_false hlow]

end

/-! ### Sequences cut into windows -/

/-- Two sequences that agree on every window agree. -/
theorem eq_of_windows {α : Type} {win : Nat} (hpos : 0 < win) {d x : List α} (hlen : d.length = x.length)
    (h : ∀ f, f * win < x.length →
      (d.take (min ((f + 1) * win) x.length)).drop (f * win) = (x.take (min ((f + 1) * win) x.length)).drop (f * win)) :
    d = x := by
  refine List.ext_getElem? fun i => ?_
  rcases Nat.lt_or_ge i x.length with hi | hi
  · have hle : i / win * win ≤ i := Nat.div_mul_le_self i win
    have hlt : i < (i / win + 1) * win := by rw [Nat.mul_comm]; exact Nat.lt_mul_div_succ i hpos
    have hwin := congrArg (·[i - i / win * win]?) (h (i / win) (by omega))
    have hmin : i < min ((i / win + 1) * win) x.length := Nat.lt_min.mpr ⟨hlt, hi⟩
    simpa [List.getElem?_drop, List.getElem?_take, Nat.add_sub_cancel' hle, hmin, List.getElem?_eq_getElem hi] using hwin
  · rw [List.getElem?_eq_none hi, List.getElem?_eq_none (hlen ▸ hi)]

/-! ### The commands over supplied bits -/

theorem dectOk_of {s : State} {n : Nat} (hv : s.cfgValid = true) (hn : n % s.code.pVal = 0) : s.dectOk n = true := by
  simp [State.dectOk, hv, hn]

@[simp] theorem received_length (s : State) (n : Nat) (r : List Bool) :
    (s.received n r).length = n / s.code.pVal := symbols_length _ _ _

section
variable {s : State} {r : List Bool} {rest : List DinItem} (hv : s.cfgValid = true)
  (hd : s.din = r.map .bit ++ rest) (hn : r.length % s.code.pVal = 0)
include hv hd hn

theorem exec_decf_dout (hf : s.config.fits (r.length / s.code.pVal) = true) :
    ∃ t, exec (.decf r.length) s = .next t ∧
      t.dout = s.dout ++ (windowBits s.code (s.work.decodeStart s.code .full) (s.received r.length r) 0).map .bit :=
  ⟨_, execDecf_supplied hd (decfOk_of hv hn hf), by rw [← decodeFull_eq_windowBits]; rfl⟩

theorem exec_dect_dout :
    ∃ t, exec (.dect r.length) s = .next t ∧
      t.dout = s.dout ++ (decodeTruncated s.code (s.received r.length r) s.work).1.map .bit :=
  ⟨_, execDect_supplied hd (dectOk_of hv hn), rfl⟩

end

/-- The symbols received when an encoding arrives without noise. -/
theorem Code.Ok.received_codeword {config : Config} {s : State} (h : s.code.Ok config) (x : List Bool) :
    (codeword s.code.kVal s.code.g x).length = x.length * s.code.pVal ∧
    (codeword s.code.kVal s.code.g x).length % s.code.pVal = 0 ∧
    (codeword s.code.kVal s.code.g x).length / s.code.pVal = x.length := by
  have hlen : (codeword s.code.kVal s.code.g x).length = x.length * s.code.pVal := by rw [codeword_length, h.count]
  exact ⟨hlen, by rw [hlen, Nat.mul_mod_left], by rw [hlen, Nat.mul_div_cancel _ h.one_le]⟩

theorem Code.Ok.win_pos {config : Config} {c : Code} (h : c.Ok config) : 0 < c.win := by
  have := h.two_le
  unfold Code.win; omega

/-- A window fits D_MAX, since 5 × K_MAX does. -/
theorem State.Inv.fits_of_le_win {s : State} (h : s.Inv) (hv : s.cfgValid = true) {n : Nat} (hn : n ≤ s.code.win) :
    s.config.fits n = true := by
  have hwf := h.config
  simp only [Config.wf, Bool.and_eq_true] at hwf
  have hk := (h.code hv).le_kMax
  exact fits_of_le hwf.2 (by unfold Code.win at hn; omega)

/-! ### The statements -/

/-- Settles O31: each window's bits are `decodeTruncated_window`, those of the recorded path over the columns so far. -/
theorem dectDeliversOneBitPerSymbol : Obligations.DectDeliversOneBitPerSymbol := by
  intro s r rest hinv hv hd hn n win
  obtain ⟨hlen, htr, hcol, henc, hacc, hcnt⟩ := decodeTruncated_frame s.code (s.received r.length r) s.work
  refine ⟨(decodeTruncated s.code (s.received r.length r) s.work).1, _, _, execDect_supplied hd (dectOk_of hv hn),
    hlen.trans (received_length _ _ _), fun f hf => ?_, htr, hcol, henc, hacc, hcnt⟩
  have hwindow := decodeTruncated_window s.work (rs := s.received r.length r) (hinv.code hv).win_pos f
    (by rw [received_length]; exact hf)
  rw [received_length] at hwindow
  change SurvivorBits _ _ _ (((decodeTruncated s.code (s.received r.length r) s.work).1.take
    (min ((f + 1) * s.code.win) (r.length / s.code.pVal))).drop (f * s.code.win))
  rw [hwindow]
  exact survivorBits_survivor _ _ _ _

/-- Settles O32: the recorded path is the input (`windowBits_noiseless`), and so is each of its windows. -/
theorem noiselessRoundTrip : Obligations.NoiselessRoundTrip := by
  intro s x rest hinv hv hg hd
  have hok := hinv.code hv
  obtain ⟨hlen, hmod, hdiv⟩ := hok.received_codeword x
  have hflat := received_flatten hmod
  have hwidth := received_width hmod
  have hcount : (s.received (codeword s.code.kVal s.code.g x).length (codeword s.code.kVal s.code.g x)).length =
      x.length := by rw [received_length, hdiv]
  rw [← hlen]
  refine ⟨fun hf => ?_, ?_⟩
  · have hrun := exec_decf_dout hv hd hmod (by rwa [hdiv])
    rwa [hok.windowBits_noiseless hg hwidth s.work .full hcount.symm hflat] at hrun
  · have hrun := exec_dect_dout hv hd hmod
    generalize s.received (codeword s.code.kVal s.code.g x).length (codeword s.code.kVal s.code.g x) = rs at *
    have hbits : (decodeTruncated s.code rs s.work).1 = x := by
      refine eq_of_windows hok.win_pos ((decodeTruncated_frame _ _ _).1.trans hcount) fun f hf => ?_
      have hwindow := decodeTruncated_window s.work hok.win_pos f (hcount ▸ hf)
      rw [hcount] at hwindow
      have hle : min ((f + 1) * s.code.win) x.length ≤ x.length := Nat.min_le_right _ _
      have hfirst : f * s.code.win ≤ min ((f + 1) * s.code.win) x.length := by rw [Nat.add_mul, Nat.one_mul]; omega
      generalize min ((f + 1) * s.code.win) x.length = upTo at *
      have hpath : windowBits s.code (s.work.decodeStart s.code .truncated) (rs.take upTo) 0 = x.take upTo :=
        hok.windowBits_noiseless hg (fun q hq => hwidth q (List.mem_of_mem_take hq)) s.work .truncated
          (by rw [List.length_take, List.length_take, hcount])
          (by rw [flatten_take_of_width hwidth (hcount.symm ▸ hle), hflat, hok.codeword_take x hle])
      rw [hwindow, ← windowBits_drop _ _ (by rw [List.length_take]; omega), hpath]
    rwa [hbits] at hrun

/-- Settles O33: the last bit is the top bit of the best state, which lies in the lower half
(`inbit_bestState_even`). -/
theorem evenCodesLoseTheLastBit : Obligations.EvenCodesLoseTheLastBit := by
  intro s x b rest hinv hv hg hd
  have hok := hinv.code hv
  obtain ⟨hlen, hmod, hdiv⟩ := hok.received_codeword (x ++ [b])
  have hflat := received_flatten hmod
  have hwidth := received_width hmod
  have hx : (x ++ [b]).length = x.length + 1 := by simp
  have hcount : (s.received (codeword s.code.kVal s.code.g (x ++ [b])).length
      (codeword s.code.kVal s.code.g (x ++ [b]))).length = x.length + 1 := by rw [received_length, hdiv, hx]
  rw [hx] at hlen
  rw [← hlen]
  refine ⟨fun hf => ?_, ?_⟩
  · obtain ⟨t, hrun, hout⟩ := exec_decf_dout hv hd hmod (by rwa [hdiv, hx])
    generalize s.received (codeword s.code.kVal s.code.g (x ++ [b])).length (codeword s.code.kVal s.code.g (x ++ [b])) =
      rs at *
    obtain ⟨y, hy⟩ := windowBits_of_lt s.code (s.work.decodeStart s.code .full) (rs := rs) (first := 0) (by omega)
    rw [hok.inbit_bestState_even hg hwidth s.work .full (hx.trans hcount.symm) hflat] at hy
    have hylen := congrArg List.length hy
    rw [windowBits_length, hcount, List.length_append, List.length_singleton] at hylen
    exact ⟨y, t, hrun, by omega, by rw [hout, hy]⟩
  · obtain ⟨t, hrun, hout⟩ := exec_dect_dout hv hd hmod
    generalize s.received (codeword s.code.kVal s.code.g (x ++ [b])).length (codeword s.code.kVal s.code.g (x ++ [b])) =
      rs at *
    have hdlen := (decodeTruncated_frame s.code rs s.work).1
    generalize hd' : (decodeTruncated s.code rs s.work).1 = d at *
    -- The last window is the one that holds column `x.length`.
    have hf : x.length / s.code.win * s.code.win ≤ x.length := Nat.div_mul_le_self _ _
    have hf' : x.length < (x.length / s.code.win + 1) * s.code.win := by
      rw [Nat.mul_comm]; exact Nat.lt_mul_div_succ _ hok.win_pos
    have hwindow := decodeTruncated_window s.work (rs := rs) hok.win_pos (x.length / s.code.win) (by omega)
    rw [Nat.min_eq_right (by omega), List.take_length, hd', List.take_of_length_le (by omega)] at hwindow
    obtain ⟨y, hy⟩ := windowBits_of_lt s.code (s.work.decodeStart s.code .truncated) (rs := rs)
      (first := x.length / s.code.win * s.code.win) (by omega)
    rw [hok.inbit_bestState_even hg hwidth s.work .truncated (hx.trans hcount.symm) hflat, ← hwindow] at hy
    have hall : d = d.take (x.length / s.code.win * s.code.win) ++ y ++ [false] := by
      rw [List.append_assoc, ← hy, List.take_append_drop]
    have hylen := congrArg List.length hall
    rw [List.length_append, List.length_singleton] at hylen
    exact ⟨d.take (x.length / s.code.win * s.code.win) ++ y, t, hrun, by omega, by rw [hout, ← hall]⟩

/-- A VTC of K = 2, G = {0b11, 0b01}, with the 22 received bits of vector V12 on DIN: one symbol more than WIN = 10. -/
def beyondWindow : State where
  config := Config.largest
  cfgValid := true
  code := configured 2 2 [3#32, 1#32]
  work := Work.reset
  phase := .idle
  cmd := []
  hdr := 0#32
  din := (List.range 22).map fun q => .bit ((0b1000001101011000111110).testBit (21 - q))
  dout := []
  rsp := []
  drawn := 0

/-- Settles O34: within one window DECT's only window starts at column 0 and covers what DECF's traceback covers; beyond
it V12 is a sequence on which they differ. -/
theorem dectAgreesWithDecfWithinOneWindow : Obligations.DectAgreesWithDecfWithinOneWindow := by
  constructor
  · intro s r rest hinv hv hd hn hwin
    have hpos := (hinv.code hv).win_pos
    obtain ⟨t, htrun, htout⟩ := exec_decf_dout hv hd hn (hinv.fits_of_le_win hv hwin)
    obtain ⟨u, hurun, huout⟩ := exec_dect_dout hv hd hn
    refine ⟨_, t, u, htrun, hurun, htout, ?_⟩
    have hcount := received_length s r.length r
    generalize s.received r.length r = rs at *
    have hle : rs.length ≤ s.code.win := hcount.trans_le hwin
    have hsame : (decodeTruncated s.code rs s.work).1 = windowBits s.code (s.work.decodeStart s.code .full) rs 0 := by
      rcases Nat.eq_zero_or_pos rs.length with h0 | hlt
      · obtain rfl := List.length_eq_zero_iff.mp h0
        exact (List.length_eq_zero_iff.mp (decodeTruncated_frame _ _ _).1)
      · have hwindow := decodeTruncated_window s.work (rs := rs) hpos 0 (by omega)
        rw [Nat.min_eq_right (by omega), List.take_length, Nat.zero_mul, List.drop_zero,
          List.take_of_length_le (decodeTruncated_frame _ _ _).1.le] at hwindow
        rw [hwindow]
        exact windowBits_congr s.code rs 0 rfl rfl
    rw [huout, hsame]
  · have hinv : beyondWindow.Inv := ⟨by decide, fun _ => ⟨by decide, by decide, rfl⟩, rfl, rfl, .inl rfl⟩
    let r : List Bool := (List.range 22).map fun q => (0b1000001101011000111110).testBit (21 - q)
    have hd : beyondWindow.din = r.map .bit ++ [] := by decide
    obtain ⟨t, htrun, htout⟩ := exec_decf_dout (r := r) rfl hd (by decide) rfl
    obtain ⟨u, hurun, huout⟩ := exec_dect_dout (r := r) rfl hd (by decide)
    refine ⟨beyondWindow, r, t, u, hinv, rfl, by decide, by decide, htrun, hurun, ?_⟩
    rw [htout, huout]
    decide +kernel

/-- Settles O35: after whole windows the loop has delivered every bit, and the last flush finds no column. -/
theorem dectWindowsAreFinal : Obligations.DectWindowsAreFinal := by
  intro s a b hinv hv ha hb
  have hok := hinv.code hv
  have hamod : a.length % s.code.pVal = 0 :=
    Nat.mod_eq_zero_of_dvd ((Nat.dvd_mul_left _ _).trans (Nat.dvd_of_mod_eq_zero ha))
  have hwindows : a.length / s.code.pVal % s.code.win = 0 := by
    obtain ⟨q, hq⟩ := Nat.dvd_of_mod_eq_zero ha
    rw [hq, Nat.mul_right_comm, Nat.mul_div_cancel _ hok.one_le]
    exact Nat.mul_mod_right _ _
  have hsum : (a ++ b).length / s.code.pVal = a.length / s.code.pVal + b.length / s.code.pVal := by
    rw [List.length_append, Nat.add_div_of_dvd_right (Nat.dvd_of_mod_eq_zero hamod)]
  have hsymbols : s.received (a ++ b).length (a ++ b) =
      s.received a.length a ++ s.received b.length b := by
    rw [State.received, hsum]
    exact symbols_append _ _ (Nat.div_mul_cancel (Nat.dvd_of_mod_eq_zero hamod))
  obtain ⟨t, htrun, htout⟩ := exec_dect_dout (s := { s with din := a.map .bit }) (r := a) (rest := []) hv
    (List.append_nil _).symm hamod
  obtain ⟨u, hurun, huout⟩ := exec_dect_dout (s := { s with din := (a ++ b).map .bit }) (r := a ++ b) (rest := []) hv
    (List.append_nil _).symm (by dsimp only; rw [List.length_append, Nat.add_mod, hamod, hb]; rfl)
  obtain ⟨_, h0, _, _, _⟩ := decodeLoop_whole_windows s.work (pre := s.received a.length a)
    (by rw [received_length]; exact hwindows) hok.win_pos
  change t.dout = s.dout ++ (decodeTruncated s.code (s.received a.length a) s.work).1.map .bit at htout
  change u.dout = s.dout ++ (decodeTruncated s.code (s.received (a ++ b).length (a ++ b)) s.work).1.map .bit at huout
  rw [decodeTruncated_eq, flushRest_of_empty _ h0, List.append_nil] at htout
  rw [hsymbols, decodeTruncated_eq, decodeLoop_append, List.append_assoc] at huout
  exact ⟨_, _, t, u, htrun, htout, hurun, huout⟩

end Sys2Proof.Machine
end

section
/-! SUPPORT. What the statements on the whole machine need beside the laws: what an answering command leaves, in the form
every invariant and frame reads off, and two runs of one command on states that agree on what it reads. -/

namespace Sys2Proof.Machine

/-! ### What an answering command leaves -/

/-- The command that led from s to t took a first part of DIN, put some items on DOUT and the one code on RSP, and is back
in IDLE; with a code other than OK it delivered nothing. TR and COLCNT are as before or cleared; a configuration it leaves
valid was there before or has passed the check. The headers and the parameters of R8 are untouched (R71, R74). -/
structure Answered (s t : State) (code : Rsp) : Prop where
  config : t.config = s.config
  cmd : t.cmd = s.cmd
  din : ∃ taken, s.din = taken ++ t.din
  dout : ∃ out, t.dout = s.dout ++ out ∧ (code ≠ .ok → out = [])
  rsp : t.rsp = s.rsp ++ [code]
  phase : t.phase = .idle
  trellis : t.work.tr = s.work.tr ∨ t.work.tr = []
  columns : t.work.colcnt = s.work.colcnt ∨ t.work.colcnt = 0
  code : t.cfgValid = true → (s.cfgValid = true ∧ t.code = s.code) ∨ t.code.Ok s.config

/-- The codes a command can end in (R224). -/
def possibleCode : Instr → Rsp → Prop
  | .rst, code => code = .ok
  | .cfg _ _, code => code = .ok ∨ code = .errParam
  | .encb _, code => code = .ok ∨ code = .errInput
  | .encp _, code => code = .ok ∨ code = .errInput
  | .decf _, code => code = .ok ∨ code = .errInput
  | .dect _, code => code = .ok ∨ code = .errInput

theorem takeItems_split {α : Type} {view : DinItem → Option α} {n : Nat} {din rest : List DinItem} {xs : List α}
    (h : takeItems view n din = .got xs rest) : ∃ taken, din = taken ++ rest :=
  let ⟨_, taken, hdin, _⟩ := takeItems_got h
  ⟨taken, hdin⟩

section
variable {s : State} {rest : List DinItem} (hdin : ∃ taken, s.din = taken ++ rest)
include hdin

/-- A data command that completes. -/
theorem answered_ok (out : List DoutItem) {w : Work} (m : Nat) (htr : w.tr = s.work.tr ∨ w.tr = [])
    (hcol : w.colcnt = s.work.colcnt ∨ w.colcnt = 0) :
    Answered s { s with din := rest, dout := s.dout ++ out, work := w, rsp := s.rsp ++ [.ok], phase := .idle, drawn := m }
      .ok :=
  ⟨rfl, rfl, hdin, ⟨out, rfl, fun h => absurd rfl h⟩, rfl, rfl, htr, hcol, fun h => .inl ⟨h, rfl⟩⟩

/-- A data command that fails its check. -/
theorem answered_errInput :
    Answered s { s with din := rest, rsp := s.rsp ++ [.errInput], phase := .idle } .errInput :=
  ⟨rfl, rfl, hdin, ⟨[], (List.append_nil _).symm, fun _ => rfl⟩, rfl, rfl, .inl rfl, .inl rfl, fun h => .inl ⟨h, rfl⟩⟩

theorem answered_cfg {k pf : Nat} {g : List Word} (hlen : g.length = pf) (hp : paramsOk s.config k pf g = true) :
    Answered s { s with
      din := rest, cfgValid := true, code := configured k pf g, rsp := s.rsp ++ [.ok], phase := .idle } .ok := by
  subst hlen
  exact ⟨rfl, rfl, hdin, ⟨[], (List.append_nil _).symm, fun _ => rfl⟩, rfl, rfl, .inl rfl, .inl rfl,
    fun _ => .inr (configured_ok hp)⟩

theorem answered_errParam : Answered s (({ s with din := rest } : State).raise .invalidParameter) .errParam :=
  ⟨rfl, rfl, hdin, ⟨[], (List.append_nil _).symm, fun _ => rfl⟩, rfl, rfl, .inl rfl, .inl rfl, nofun⟩

end

theorem answered_rst (s : State) : Answered s (s.clear.respond .ok) .ok :=
  ⟨rfl, rfl, ⟨[], rfl⟩, ⟨[], (List.append_nil _).symm, fun _ => rfl⟩, rfl, rfl, .inr rfl, .inr rfl, nofun⟩

/-- A header that spells no command (R228). -/
theorem answered_errCmd (s : State) : Answered s (s.respond .errCmd) .errCmd :=
  ⟨rfl, rfl, ⟨[], rfl⟩, ⟨[], (List.append_nil _).symm, fun _ => rfl⟩, rfl, rfl, .inl rfl, .inl rfl,
    fun h => .inl ⟨h, rfl⟩⟩

/-- A command that answers a next state waits, or answers one of its codes. -/
theorem exec_answered {i : Instr} {s t : State} (h : exec i s = .next t) :
    t = s.wait ∨ ∃ code, Answered s t code ∧ possibleCode i code := by
  cases i with
  | rst =>
    obtain rfl := Host.Outcome.next.inj h
    exact .inr ⟨_, answered_rst s, rfl⟩
  | cfg kf pf =>
    obtain ⟨g, rest, hg, ⟨hp, rfl⟩ | ⟨_, rfl⟩⟩ | ⟨_, rfl⟩ := execCfg_next h
    · exact .inr ⟨_, answered_cfg (takeItems_split hg) (takeItems_got hg).1 hp, .inl rfl⟩
    · exact .inr ⟨_, answered_errParam (takeItems_split hg), .inr rfl⟩
    · exact .inl rfl
  | encb n =>
    obtain ⟨xs, rest, hx, ⟨_, rfl⟩ | ⟨_, rfl⟩⟩ | ⟨_, rfl⟩ := execEncb_next h
    · have hw := encodeBits_work s.code xs s.work.encodeStart
      exact .inr ⟨_, answered_ok (takeItems_split hx) _ _ (.inl (by rw [hw]; rfl)) (.inl (by rw [hw]; rfl)), .inl rfl⟩
    · exact .inr ⟨_, answered_errInput (takeItems_split hx), .inr rfl⟩
    · exact .inl rfl
  | encp n =>
    obtain ⟨bytes, rest, hx, ⟨_, rfl⟩ | ⟨_, rfl⟩⟩ | ⟨_, rfl⟩ := execEncp_next h
    · obtain ⟨_, _, _, hw⟩ := encodePacked_work s.code (bitsOf bytes n) s.work
      exact .inr ⟨_, answered_ok (takeItems_split hx) _ _ (.inl (by rw [hw])) (.inl (by rw [hw])), .inl rfl⟩
    · exact .inr ⟨_, answered_errInput (takeItems_split hx), .inr rfl⟩
    · exact .inl rfl
  | decf n =>
    obtain ⟨r, rest, hx, ⟨_, rfl⟩ | ⟨_, rfl⟩⟩ | ⟨_, rfl⟩ := execDecf_next h
    · obtain ⟨_, htr, hcol, _, _, _⟩ := decodeFull_frame s.code (s.received n r) s.work
      exact .inr ⟨_, answered_ok (takeItems_split hx) _ _ (.inr htr) (.inr hcol), .inl rfl⟩
    · exact .inr ⟨_, answered_errInput (takeItems_split hx), .inr rfl⟩
    · exact .inl rfl
  | dect n =>
    obtain ⟨r, rest, hx, ⟨_, rfl⟩ | ⟨_, rfl⟩⟩ | ⟨_, rfl⟩ := execDect_next h
    · obtain ⟨_, htr, hcol, _, _, _⟩ := decodeTruncated_frame s.code (s.received n r) s.work
      exact .inr ⟨_, answered_ok (takeItems_split hx) _ _ (.inr htr) (.inr hcol), .inl rfl⟩
    · exact .inr ⟨_, answered_errInput (takeItems_split hx), .inr rfl⟩
    · exact .inl rfl

theorem runHeader_answered {s t : State} (h : runHeader s = .next t) : t = s.wait ∨ ∃ code, Answered s t code := by
  rcases runHeader_cases h with ⟨i, _, hexec⟩ | ⟨_, _, rfl⟩
  · exact (exec_answered hexec).imp_right fun ⟨code, ha, _⟩ => ⟨code, ha⟩
  · exact .inr ⟨_, answered_errCmd s⟩

/-- A step that answers leaves the state as it is; or, the next header taken or the one taken before tried again, waits or
answers. -/
theorem step_answered {s t : State} (h : step s = .next t) :
    t = s ∨ ∃ u, (t = u.wait ∨ ∃ code, Answered u t code) ∧
      (u = s ∨ ∃ hd rest, s.cmd = hd :: rest ∧ u = s.accept hd rest) := by
  rcases step_cases h with ⟨_, _, rfl⟩ | ⟨hd, rest, _, hc, hrun⟩ | ⟨_, hrun⟩
  · exact .inl rfl
  · exact .inr ⟨_, runHeader_answered hrun, .inr ⟨hd, rest, hc, rfl⟩⟩
  · exact .inr ⟨_, runHeader_answered hrun, .inl rfl⟩

/-! ### The invariant -/

theorem inv_wait {s : State} (h : s.Inv) : s.wait.Inv := ⟨h.config, h.code, h.trellis, h.columns, .inr rfl⟩

theorem inv_accept {s : State} (h : s.Inv) (hd : Word) (rest : List Word) : (s.accept hd rest).Inv :=
  ⟨h.config, h.code, h.trellis, h.columns, .inr rfl⟩

theorem Answered.inv {s t : State} {code : Rsp} (h : Answered s t code) (hs : s.Inv) : t.Inv where
  config := by rw [h.config]; exact hs.config
  code hv := by
    rw [h.config]
    rcases h.code hv with ⟨hv', hc⟩ | hok
    · rw [hc]; exact hs.code hv'
    · exact hok
  trellis := h.trellis.elim (·.trans hs.trellis) id
  columns := h.columns.elim (·.trans hs.columns) id
  phase := .inl h.phase

/-! ### Runs that do not move -/

theorem coreRun_of_step_self {M : Host.Core} {s : M.State} (h : M.step s = .next s) (n : Nat) :
    M.run n s = .next s := by
  induction n with
  | zero => rfl
  | succ n ih => simp only [Host.Core.run, h, ih]

theorem run_of_step_self {s : State} (h : step s = .next s) (n : Nat) : Host.Core.run core n s = .next s :=
  coreRun_of_step_self (M := core) h n

theorem step_of_idle_empty {s : State} (hp : s.phase = .idle) (hc : s.cmd = []) : step s = .next s := by
  simp only [step, hp, hc]

theorem step_of_idle {s : State} {h : Word} {rest : List Word} {i : Instr} (hp : s.phase = .idle)
    (hc : s.cmd = h :: rest) (hd : decode h = .ok i) : step s = exec i (s.accept h rest) := by
  simp only [step, hp, hc, runHeader, accept_hdr, hd]

theorem step_of_check {s : State} {i : Instr} (hp : s.phase = .check) (hd : decode s.hdr = .ok i) :
    step s = exec i s := by
  simp only [step, hp, runHeader, hd]

theorem wait_of_check {s : State} (hp : s.phase = .check) : s.wait = s := by
  unfold State.wait; rw [← hp]

/-- A command answers a next state or the refusal of an item's size, in every state. -/
theorem exec_next_or_refused (i : Instr) (s : State) :
    (∃ t, exec i s = .next t) ∨ exec i s = .refused .dinItemSize := by
  have items {α : Type} {view : DinItem → Option α} {n : Nat} {go : List α → State → State} :
      (∃ t, s.withItems view n go = .next t) ∨ s.withItems view n go = .refused .dinItemSize := by
    rcases withItems_cases (s := s) (view := view) (n := n) (go := go) with ⟨_, _, _, h⟩ | ⟨_, h⟩ | ⟨_, h⟩
    · exact .inl ⟨_, h⟩
    · exact .inl ⟨_, h⟩
    · exact .inr h
  cases i with
  | rst => exact .inl ⟨_, rfl⟩
  | cfg kf pf => rw [exec_cfg, execCfg]; exact items
  | encb n => rw [exec_encb, execEncb]; exact items
  | encp n => rw [exec_encp, execEncp]; exact items
  | decf n => rw [exec_decf, execDecf]; exact items
  | dect n => rw [exec_dect, execDect]; exact items

/-! ### Two runs of one command (R262, R275) -/

/-- Two states that agree on all that a command reads: the parameters of R8, CFG_VALID, a valid configuration, DIN. -/
structure Agree (s s' : State) : Prop where
  config : s'.config = s.config
  cfgValid : s'.cfgValid = s.cfgValid
  code : s.cfgValid = true → s'.code = s.code
  din : s'.din = s.din

/-- The steps from s to t and from s' to t' have the same results. -/
structure SameResults (s s' t t' : State) : Prop where
  phase : t'.phase = t.phase
  din : t'.din = t.din
  cfgValid : t'.cfgValid = t.cfgValid
  code : t.cfgValid = true → t'.code = t.code
  dout : ∃ out, t.dout = s.dout ++ out ∧ t'.dout = s'.dout ++ out
  rsp : ∃ codes, t.rsp = s.rsp ++ codes ∧ t'.rsp = s'.rsp ++ codes

theorem cfgValid_of_dectOk {s : State} {n : Nat} (h : s.dectOk n = true) : s.cfgValid = true := by
  rw [State.dectOk, Bool.and_eq_true] at h
  exact h.1

theorem cfgValid_of_decfOk {s : State} {n : Nat} (h : s.decfOk n = true) : s.cfgValid = true := by
  rw [State.decfOk, Bool.and_eq_true] at h
  exact cfgValid_of_dectOk h.1

theorem decodeTruncated_bits_congr (c : Code) (rs : List Symbol) (w w' : Work) :
    (decodeTruncated c rs w).1 = (decodeTruncated c rs w').1 := by
  obtain ⟨hbits, hsame⟩ := decodeLoop_sameTrellis c rs (w := w.decodeStart c .truncated)
    (w' := w'.decodeStart c .truncated) rfl ⟨rfl, rfl, rfl, rfl⟩
  obtain ⟨_, _, _, _, hcol, _⟩ := decodeLoop_frame c rs (w.decodeStart c .truncated) rfl
  have hrest : (flushRest c (decodeLoop c rs (w.decodeStart c .truncated)).2).1 =
      (flushRest c (decodeLoop c rs (w'.decodeStart c .truncated)).2).1 := by
    unfold flushRest
    rw [← hsame.2.2.1]
    split
    · exact (flush_sameTrellis c hcol hsame).1
    · rfl
  rw [decodeTruncated_eq, decodeTruncated_eq, hbits, hrest]

section
variable {s s' : State} (h : Agree s s')
include h

/-- Over DIN items two runs take the same items or both wait. -/
theorem Agree.withItems {α : Type} {view : DinItem → Option α} {n : Nat} {go : List α → State → State} {t : State}
    (hgo : ∀ xs rest, SameResults s s' (go xs { s with din := rest }) (go xs { s' with din := rest }))
    (hrun : s.withItems view n go = .next t) :
    ∃ t', s'.withItems view n go = .next t' ∧ SameResults s s' t t' := by
  unfold State.withItems at *
  rw [h.din]
  cases htake : takeItems view n s.din with
  | got xs rest =>
    rw [htake] at hrun
    obtain rfl := Host.Outcome.next.inj hrun
    exact ⟨_, rfl, hgo xs rest⟩
  | starved =>
    rw [htake] at hrun
    obtain rfl := Host.Outcome.next.inj hrun
    exact ⟨_, rfl, rfl, h.din, h.cfgValid, h.code, ⟨[], by simp⟩, ⟨[], by simp⟩⟩
  | mismatch => rw [htake] at hrun; cases hrun

/-- Two runs of a data command pass its check `ok` together or fail it together. -/
theorem Agree.checked {α : Type} {view : DinItem → Option α} {n : Nat} {ok : State → Bool}
    {body : List α → State → State} {t : State} (hok : ok s' = ok s)
    (hdin : ∀ (u : State) rest, ok { u with din := rest } = ok u)
    (hbody : ∀ xs rest, ok s = true → SameResults s s' (body xs { s with din := rest }) (body xs { s' with din := rest }))
    (hrun : s.withItems view n (fun xs u => if ok u then body xs u else u.raise .invalidInput) = .next t) :
    ∃ t', s'.withItems view n (fun xs u => if ok u then body xs u else u.raise .invalidInput) = .next t' ∧
      SameResults s s' t t' := by
  refine h.withItems (fun xs rest => ?_) hrun
  rw [hdin s rest, hdin s' rest, hok]
  split
  · next hs => exact hbody xs rest hs
  · exact ⟨rfl, rfl, h.cfgValid, h.code, ⟨[], by simp⟩, ⟨_, rfl, rfl⟩⟩

theorem Agree.decfOk (n : Nat) : s'.decfOk n = s.decfOk n := by
  unfold State.decfOk State.dectOk
  rw [h.cfgValid, h.config]
  cases hv : s.cfgValid with
  | false => rfl
  | true => rw [h.code hv]

theorem Agree.dectOk (n : Nat) : s'.dectOk n = s.dectOk n := by
  unfold State.dectOk
  rw [h.cfgValid]
  cases hv : s.cfgValid with
  | false => rfl
  | true => rw [h.code hv]

theorem Agree.exec {i : Instr} {t : State} (hrun : exec i s = .next t) :
    ∃ t', exec i s' = .next t' ∧ SameResults s s' t t' := by
  cases i with
  | rst =>
    obtain rfl := Host.Outcome.next.inj hrun
    exact ⟨_, rfl, rfl, h.din, rfl, nofun, ⟨[], by simp⟩, ⟨_, rfl, rfl⟩⟩
  | cfg kf pf =>
    rw [exec_cfg, execCfg] at hrun ⊢
    refine h.withItems (fun g rest => ?_) hrun
    simp only [h.config]
    split
    · exact ⟨rfl, rfl, rfl, fun _ => rfl, ⟨[], by simp⟩, ⟨_, rfl, rfl⟩⟩
    · exact ⟨rfl, rfl, rfl, nofun, ⟨[], by simp [State.raise, State.excEffect]⟩, ⟨_, rfl, rfl⟩⟩
  | encb n =>
    rw [exec_encb, execEncb] at hrun ⊢
    refine h.checked h.cfgValid (fun _ _ => rfl) (fun xs rest hv => ?_) hrun
    have hout := encodeBits_out_congr s.code xs (w := s'.work.encodeStart) (w' := s.work.encodeStart) rfl
    simp only [h.code hv, hout]
    exact ⟨rfl, rfl, h.cfgValid, fun _ => rfl, ⟨_, rfl, rfl⟩, ⟨_, rfl, rfl⟩⟩
  | encp n =>
    rw [exec_encp, execEncp] at hrun ⊢
    refine h.checked h.cfgValid (fun _ _ => rfl) (fun bytes rest hv => ?_) hrun
    have hout := encodeBits_out_congr s.code (bitsOf bytes n) (w := s'.work.encodeStart) (w' := s.work.encodeStart) rfl
    simp only [h.code hv, encodePacked_out, hout]
    exact ⟨rfl, rfl, h.cfgValid, fun _ => rfl, ⟨_, rfl, rfl⟩, ⟨_, rfl, rfl⟩⟩
  | decf n =>
    rw [exec_decf, execDecf] at hrun ⊢
    refine h.checked (ok := (State.decfOk · n)) (h.decfOk n) (fun _ _ => rfl) (fun r rest hok => ?_) hrun
    have hout (rs : List Symbol) := windowBits_congr s.code rs 0 (w := s'.work.decodeStart s.code .full)
      (w' := s.work.decodeStart s.code .full) rfl rfl
    simp only [h.code (cfgValid_of_decfOk hok), decodeFull_eq_windowBits, hout]
    exact ⟨rfl, rfl, h.cfgValid, fun _ => rfl, ⟨_, rfl, rfl⟩, ⟨_, rfl, rfl⟩⟩
  | dect n =>
    rw [exec_dect, execDect] at hrun ⊢
    refine h.checked (ok := (State.dectOk · n)) (h.dectOk n) (fun _ _ => rfl) (fun r rest hok => ?_) hrun
    simp only [h.code (cfgValid_of_dectOk hok), decodeTruncated_bits_congr s.code _ s'.work s.work]
    exact ⟨rfl, rfl, h.cfgValid, fun _ => rfl, ⟨_, rfl, rfl⟩, ⟨_, rfl, rfl⟩⟩

end

/-! ### The statements -/

/-- Settles O1. -/
theorem stepRunsTheDecodedCommand : Obligations.StepRunsTheDecodedCommand :=
  fun _ => ⟨fun _ _ _ hp hc hd => step_of_idle hp hc hd, fun _ hp hd => step_of_check hp hd,
    fun hp hc => step_of_idle_empty hp hc⟩

/-- Settles O37: the command waits, and waiting again changes nothing. -/
theorem starvedCommandsWait : Obligations.StarvedCommandsWait := by
  intro s i hstarved
  have hwait : exec i s = .next s.wait := by
    cases i with
    | rst => exact hstarved.elim
    | cfg kf pf => obtain ⟨xs, hd, hlt⟩ := hstarved; rw [exec_cfg, execCfg]; exact withItems_starved asWord_word hlt hd _
    | encb n => obtain ⟨xs, hd, hlt⟩ := hstarved; rw [exec_encb, execEncb]; exact withItems_starved asBit_bit hlt hd _
    | encp n => obtain ⟨xs, hd, hlt⟩ := hstarved; rw [exec_encp, execEncp]; exact withItems_starved asByte_byte hlt hd _
    | decf n => obtain ⟨xs, hd, hlt⟩ := hstarved; rw [exec_decf, execDecf]; exact withItems_starved asBit_bit hlt hd _
    | dect n => obtain ⟨xs, hd, hlt⟩ := hstarved; rw [exec_dect, execDect]; exact withItems_starved asBit_bit hlt hd _
  refine ⟨hwait, fun hp hd n => ?_⟩
  have hself : step s = .next s := by rw [step_of_check hp hd, hwait, wait_of_check hp]
  exact run_of_step_self hself n

/-- Settles O38. -/
theorem wrongItemSizesAreRefused : Obligations.WrongItemSizesAreRefused := by
  refine fun s x rest => ⟨fun k pf pre hd hlt hx => ?_, fun n pre hd hlt hx => ⟨?_, ?_, ?_⟩,
    fun n pre hd hlt hx => ?_⟩
  · rw [exec_cfg, execCfg]; exact withItems_mismatch asWord_word hlt hd hx _
  · rw [exec_encb, execEncb]; exact withItems_mismatch asBit_bit hlt hd hx _
  · rw [exec_decf, execDecf]; exact withItems_mismatch asBit_bit hlt hd hx _
  · rw [exec_dect, execDect]; exact withItems_mismatch asBit_bit hlt hd hx _
  · rw [exec_encp, execEncp]; exact withItems_mismatch asByte_byte hlt hd hx _

/-- Settles O39: read off `exec_answered`. -/
theorem oneResponsePerCommand : Obligations.OneResponsePerCommand := by
  intro i s t h
  refine (exec_answered h).imp_right fun ⟨code, ha, hcode⟩ => ⟨code, ha.rsp, ha.phase, fun hne => ?_, ?_⟩
  · obtain ⟨out, hout, hsilent⟩ := ha.dout
    rw [hout, hsilent hne, List.append_nil]
  · cases i <;> exact hcode

/-- Settles O40. -/
theorem powerOnIsUnconfigured : Obligations.PowerOnIsUnconfigured :=
  ⟨rfl, rfl, rfl, rfl, run_of_step_self (step_of_idle_empty rfl rfl)⟩

/-- Settles O41. -/
theorem invHoldsAtReset : Obligations.InvHoldsAtReset := ⟨by decide, nofun, rfl, rfl, .inl rfl⟩

/-- Settles O42: taking a header, waiting and answering each keep the invariant. -/
theorem stepKeepsInv : Obligations.StepKeepsInv := by
  intro s t hs h
  rcases step_answered h with rfl | ⟨u, hanswer, hu⟩
  · exact hs
  · have hinv : u.Inv := by
      rcases hu with rfl | ⟨hd, rest, _, rfl⟩
      · exact hs
      · exact inv_accept hs hd rest
    rcases hanswer with rfl | ⟨code, ha⟩
    · exact inv_wait hinv
    · exact ha.inv hinv

/-- Settles O43: the invariant's PHASE lets a step begin, and a command stops for an item's size alone. -/
theorem nothingStopsButWrongItems : Obligations.NothingStopsButWrongItems := by
  intro s hs
  have header (u : State) : (∃ t, runHeader u = .next t) ∨ runHeader u = .refused .dinItemSize := by
    unfold runHeader
    cases decode u.hdr with
    | ok i => exact exec_next_or_refused i u
    | error e => exact .inl ⟨_, rfl⟩
  rcases hs.phase with hp | hp
  · cases hc : s.cmd with
    | nil => exact .inl ⟨s, step_of_idle_empty hp hc⟩
    | cons h rest =>
      have hstep : step s = runHeader (s.accept h rest) := by simp only [step, hp, hc]
      rw [hstep]; exact header _
  · have hstep : step s = runHeader s := by simp only [step, hp]
    rw [hstep]; exact header _

/-- Settles O44: read off `step_answered`; only taking a header moves CMD. -/
theorem stepRevisesNothingDelivered : Obligations.StepRevisesNothingDelivered := by
  intro s t h
  rcases step_answered h with rfl | ⟨u, hanswer, hu⟩
  · exact ⟨rfl, ⟨[], rfl, by simp⟩, ⟨[], rfl⟩, ⟨[], by simp⟩, ⟨[], by simp⟩⟩
  · obtain ⟨hconfig, hdin, hdout, hrsp, taken, hcmd, hone⟩ : u.config = s.config ∧ u.din = s.din ∧ u.dout = s.dout ∧
        u.rsp = s.rsp ∧ ∃ taken, s.cmd = taken ++ u.cmd ∧ taken.length ≤ 1 := by
      rcases hu with rfl | ⟨hd, rest, hc, rfl⟩
      · exact ⟨rfl, rfl, rfl, rfl, [], rfl, by simp⟩
      · exact ⟨rfl, rfl, rfl, rfl, [hd], hc, by simp⟩
    rw [← hconfig, ← hdin, ← hdout, ← hrsp]
    rcases hanswer with rfl | ⟨code, ha⟩
    · exact ⟨rfl, ⟨taken, hcmd, hone⟩, ⟨[], rfl⟩, ⟨[], by simp⟩, ⟨[], by simp⟩⟩
    · obtain ⟨out, hout, _⟩ := ha.dout
      exact ⟨ha.config, ⟨taken, by rw [ha.cmd]; exact hcmd, hone⟩, ha.din, ⟨out, hout⟩, ⟨[code], ha.rsp, by simp⟩⟩

/-- Settles O45: two runs take the same items (`Agree.withItems`), pass the same checks, and the bodies read only the
configuration and what the call itself has set. -/
theorem resultsDoNotDependOnHistory : Obligations.ResultsDoNotDependOnHistory := by
  intro i s s' t hconfig hvalid hcode hdin hrun
  obtain ⟨t', hrun', r⟩ := Agree.exec ⟨hconfig, hvalid, hcode, hdin⟩ hrun
  exact ⟨t', hrun', r.phase, r.din, r.cfgValid, r.code, r.dout, r.rsp⟩

end Sys2Proof.Machine
end

section
/-! SUPPORT. What the statements on the sequencer need beside the laws: what holds of a decode's counters at every tick,
what every tick keeps of the trellis, and whole runs of the phases BUILD, ENC and ACS with SELECT and TRACE. -/

namespace Sys2Proof.Machine

namespace Run

/-! ### The counters of a decode (R33, R43) -/

/-- What holds of the run of a decode `i` begun in s while its columns are made and walked: the symbols left make up n
with T; every column step since the last flush is still a column, or a bit of the traceback in progress; a DECF selects
only after its last symbol; a DECT flushes when COLCNT reaches WIN. -/
structure Walking (i : Instr) (s : State) (r : Run) : Prop where
  code : r.s.code = s.code
  total : r.n = inputBits i / s.code.pVal
  bound : r.n < 2 ^ 24
  left : r.s.work.t.toNat + r.syms.length = r.n
  ahead : r.s.phase = .acs → r.syms ≠ []
  untold : r.s.phase ≠ .trace → r.trail = []
  count : r.s.work.colcnt + r.trail.length + r.s.work.outOff.toNat = r.s.work.t.toNat
  mode : (∃ len, i = .decf len ∧ r.s.work.mode = .full ∧ r.s.work.outOff = 0#24 ∧ (r.s.phase ≠ .acs → r.syms = [])) ∨
    (∃ len, i = .dect len ∧ r.s.work.mode = .truncated ∧
      (0 < s.code.win → r.s.work.colcnt ≤ s.code.win ∧ (r.s.phase = .acs → r.s.work.colcnt < s.code.win)))

/-- Where a run of `i` begun in s stands: in CHECK, with all that CHECK tests as it was; between columns; or in a phase
whose successor rests on nothing but the run itself. -/
inductive Counted (i : Instr) (s : State) (r : Run) : Prop
  | check (phase : r.s.phase = .check) (instr : r.instr = i) (config : r.s.config = s.config)
      (cfgValid : r.s.cfgValid = s.cfgValid) (code : r.s.code = s.code) (trail : r.trail = [])
  | walking (phase : r.s.phase = .acs ∨ r.s.phase = .select ∨ r.s.phase = .trace) (walk : Walking i s r)
  | other (phase : r.s.phase = .build ∨ r.s.phase = .enc ∨ r.s.phase = .respond ∨ r.s.phase = .idle)

theorem Counted.walk {i : Instr} {s : State} {r : Run} (h : Counted i s r)
    (hp : r.s.phase = .acs ∨ r.s.phase = .select ∨ r.s.phase = .trace) : Walking i s r := by
  cases h with
  | check hp' => simp [hp'] at hp
  | walking _ walk => exact walk
  | other hp' => rcases hp' with hp' | hp' | hp' | hp' <;> simp [hp'] at hp

theorem start_counted {i : Instr} {s : State} {r : Run} (h : start i s = some r) : Counted i s r := by
  obtain ⟨hp, hi⟩ := start_phase h
  cases i
  case rst => cases h; exact .check hp hi rfl rfl rfl rfl
  all_goals
    simp only [start] at h
    split at h
    · cases h; exact .check hp hi rfl rfl rfl rfl
    · cases h

theorem wellFormed_inputBits {i : Instr} (h : i.wellFormed = true) : inputBits i < 2 ^ 24 := by
  cases i with
  | rst => decide
  | cfg kf pf => exact Nat.two_pow_pos 24
  | encb n => exact lengthFits_iff.mp h
  | encp n => exact lengthFits_iff.mp h
  | decf n => exact lengthFits_iff.mp h
  | dect n => exact lengthFits_iff.mp h

theorem fail_counted {i : Instr} {s : State} (r : Run) (e : Exc) : Counted i s (r.fail e) := .other (by simp [fail])

section
variable {i : Instr} {s : State} {r : Run}

/-- The start of a DECF: T = 0 and every symbol ahead; with none, a selection is due. -/
theorem enterDecode_full_counted (hcode : r.s.code = s.code) (htrail : r.trail = []) {n : Nat} (hn : n < 2 ^ 24) :
    Counted (.decf n) s (r.enterDecode n .full .select) := by
  have hcount : n / s.code.pVal < 2 ^ 24 := Nat.lt_of_le_of_lt (Nat.div_le_self _ _) hn
  by_cases h0 : n / s.code.pVal = 0
  · refine .walking (.inr (.inl (by simp [enterDecode, hcode, h0]))) ⟨hcode, ?_, ?_, ?_, ?_, fun _ => htrail, ?_, ?_⟩ <;>
      simp [enterDecode, hcode, h0, inputBits, htrail, symbols]
  · refine .walking (.inl (by simp [enterDecode, hcode, h0])) ⟨hcode, ?_, ?_, ?_, fun _ => ?_, fun _ => htrail, ?_, ?_⟩
    · simp [enterDecode, hcode, inputBits]
    · simpa [enterDecode, hcode] using hcount
    · simp [enterDecode]
    · exact List.ne_nil_of_length_pos (by simpa [enterDecode, hcode] using Nat.pos_of_ne_zero h0)
    · simp [enterDecode, htrail]
    · exact .inl ⟨n, rfl, rfl, rfl, fun h => absurd (by simp [enterDecode, hcode, h0]) h⟩

/-- The start of a DECT: as of a DECF, but with no symbol the answer is due. -/
theorem enterDecode_truncated_counted (hcode : r.s.code = s.code) (htrail : r.trail = []) {n : Nat} (hn : n < 2 ^ 24) :
    Counted (.dect n) s (r.enterDecode n .truncated .respond) := by
  have hcount : n / s.code.pVal < 2 ^ 24 := Nat.lt_of_le_of_lt (Nat.div_le_self _ _) hn
  by_cases h0 : n / s.code.pVal = 0
  · exact .other (by simp [enterDecode, hcode, h0])
  · refine .walking (.inl (by simp [enterDecode, hcode, h0])) ⟨hcode, ?_, ?_, ?_, fun _ => ?_, fun _ => htrail, ?_, ?_⟩
    · simp [enterDecode, hcode, inputBits]
    · simpa [enterDecode, hcode] using hcount
    · simp [enterDecode]
    · exact List.ne_nil_of_length_pos (by simpa [enterDecode, hcode] using Nat.pos_of_ne_zero h0)
    · simp [enterDecode, htrail]
    · exact .inr ⟨n, rfl, rfl, fun hwin => ⟨Nat.zero_le _, fun _ => hwin⟩⟩

theorem check_counted (hw : i.wellFormed = true) (hi : r.instr = i) (hcode : r.s.code = s.code)
    (htrail : r.trail = []) : Counted i s r.check := by
  have hn := wellFormed_inputBits hw
  subst hi
  cases h : r.instr <;> simp only [check, h] <;> rw [h] at hn
  case rst => exact .other (.inr (.inr (.inl rfl)))
  case cfg =>
    split
    · exact .other (.inl rfl)
    · exact fail_counted r _
  case encb =>
    split
    · exact .other (.inr (.inl rfl))
    · exact fail_counted r _
  case encp =>
    split
    · exact .other (.inr (.inl rfl))
    · exact fail_counted r _
  case decf =>
    split
    · exact enterDecode_full_counted hcode htrail hn
    · exact fail_counted r _
  case dect =>
    split
    · exact enterDecode_truncated_counted hcode htrail hn
    · exact fail_counted r _

theorem acs_of_cons {x : Symbol} {xs : List Symbol} (h : r.syms = x :: xs) :
    r.acs = { r with
      s := { r.s with work := colStep r.s.code x r.s.work, phase := r.acs.s.phase }
      syms := xs } := by
  simp only [acs, h]

/-- T counts the column step without wrapping, since T is at most n. -/
theorem Walking.colStep_t {x : Symbol} {xs : List Symbol} (w : Walking i s r) (h : r.syms = x :: xs) :
    (colStep r.s.code x r.s.work).t.toNat = r.s.work.t.toNat + 1 := by
  have hleft := w.left
  have hbound := w.bound
  rw [h, List.length_cons] at hleft
  rw [Machine.colStep_t, BitVec.toNat_add, BitVec.toNat_ofNat]
  omega

/-- ACS goes to SELECT when a flush is due or the symbol was the last, and stays in ACS otherwise (R38). -/
theorem Walking.acs_phase {x : Symbol} {xs : List Symbol} (w : Walking i s r) (h : r.syms = x :: xs) :
    r.acs.s.phase = .select ∧ (flushDue r.s.code (colStep r.s.code x r.s.work) = true ∨ xs = []) ∨
    r.acs.s.phase = .acs ∧ flushDue r.s.code (colStep r.s.code x r.s.work) = false ∧ xs ≠ [] := by
  have hleft := w.left
  rw [h, List.length_cons] at hleft
  have hlast : ((colStep r.s.code x r.s.work).t.toNat == r.n) = true ↔ xs = [] := by
    rw [w.colStep_t h, beq_iff_eq, ← List.length_eq_zero_iff]; omega
  simp only [acs, h]
  split
  · next hd => exact .inl ⟨rfl, by rwa [Bool.or_eq_true, hlast] at hd⟩
  · next hd =>
    rw [Bool.or_eq_true, hlast, not_or] at hd
    exact .inr ⟨rfl, by simpa using hd.1, hd.2⟩

/-- A column step: the column counts, and T with it. -/
theorem acs_walking (hp : r.s.phase = .acs) (w : Walking i s r) : Walking i s r.acs := by
  obtain ⟨x, xs, hsyms⟩ := List.exists_cons_of_ne_nil (w.ahead hp)
  have htrail : r.trail = [] := w.untold (by simp [hp])
  have hleft := w.left
  have hcount := w.count
  have ht := w.colStep_t hsyms
  have hphase := w.acs_phase hsyms
  rw [hsyms, List.length_cons] at hleft
  rw [htrail, List.length_nil] at hcount
  rw [acs_of_cons hsyms]
  refine ⟨w.code, w.total, w.bound, ?_, fun h => ?_, fun _ => htrail, ?_, ?_⟩
  · dsimp only; omega
  · rcases hphase with ⟨h', _⟩ | ⟨_, _, hxs⟩
    · exact absurd (h.symm.trans h') nofun
    · exact hxs
  · dsimp only; rw [ht, htrail, colStep_colcnt, colStep_outOff, List.length_nil]; omega
  · refine w.mode.imp ?_ ?_
    · rintro ⟨len, rfl, hm, hoff, _⟩
      refine ⟨len, rfl, hm, hoff, fun h => ?_⟩
      rcases hphase with ⟨_, hd | hxs⟩ | ⟨hacs, _⟩
      · simp [flushDue, hm] at hd
      · exact hxs
      · exact absurd hacs h
    · rintro ⟨len, rfl, hm, hwin⟩
      refine ⟨len, rfl, hm, fun hpos => ?_⟩
      have hlt := (hwin hpos).2 hp
      refine ⟨hlt, fun h => ?_⟩
      rcases hphase with ⟨h', _⟩ | ⟨_, hd, _⟩
      · exact absurd (h.symm.trans h') nofun
      · have hne : ¬ r.s.work.colcnt + 1 = s.code.win := by simpa [flushDue, hm, w.code] using hd
        dsimp only; rw [colStep_colcnt]; omega

theorem acs_counted (hp : r.s.phase = .acs) (w : Walking i s r) : Counted i s r.acs := by
  obtain ⟨x, xs, hsyms⟩ := List.exists_cons_of_ne_nil (w.ahead hp)
  refine .walking ?_ (acs_walking hp w)
  rcases w.acs_phase hsyms with ⟨h, _⟩ | ⟨h, _⟩
  · exact .inr (.inl h)
  · exact .inl h

theorem select_counted (hp : r.s.phase = .select) (w : Walking i s r) : Counted i s r.select := by
  refine .walking (.inr (.inr rfl)) ⟨w.code, w.total, w.bound, w.left, nofun, fun h => absurd rfl h, w.count, ?_⟩
  refine w.mode.imp ?_ ?_
  · rintro ⟨len, rfl, hm, hoff, hsyms⟩
    exact ⟨len, rfl, hm, hoff, fun _ => hsyms (by simp [hp])⟩
  · rintro ⟨len, rfl, hm, hwin⟩
    exact ⟨len, rfl, hm, fun hpos => ⟨(hwin hpos).1, nofun⟩⟩

/-- The delivery of a traceback: OUT_OFF counts its bits, and the column steps go on while T < n. -/
theorem deliver_counted (hp : r.s.phase = .trace) (h0 : r.s.work.colcnt = 0) (w : Walking i s r) :
    Counted i s r.deliver := by
  have hleft := w.left
  have hbound := w.bound
  have hcount := w.count
  by_cases ht : r.s.work.t.toNat < r.n
  · rcases w.mode with ⟨_, _, _, _, hsyms⟩ | ⟨len, rfl, hm, hwin⟩
    · rw [hsyms (by simp [hp]), List.length_nil] at hleft
      omega
    · have hoff : (r.s.work.outOff + BitVec.ofNat 24 r.trail.length).toNat = r.s.work.t.toNat := by
        rw [BitVec.toNat_add, BitVec.toNat_ofNat]; omega
      refine .walking (.inl (by simp [deliver, ht])) ⟨w.code, w.total, w.bound, hleft, fun _ => ?_, fun _ => rfl, ?_, ?_⟩
      · exact List.ne_nil_of_length_pos (by show 0 < r.syms.length; omega)
      · simp [deliver, hm, h0, hoff]
      · exact .inr ⟨len, rfl, hm, fun hpos => ⟨by simp [deliver, h0], fun _ => by simpa [deliver, h0] using hpos⟩⟩
  · exact .other (by simp [deliver, ht])

/-- A traceback step: a column becomes a bit. -/
theorem trace_counted (hp : r.s.phase = .trace) (w : Walking i s r) : Counted i s r.trace := by
  unfold trace
  split
  · next h0 => exact deliver_counted hp h0 w
  · next hne =>
    have hcount := w.count
    refine .walking (.inr (.inr hp)) ⟨w.code, w.total, w.bound, w.left, ?_, fun h => absurd hp h, ?_, ?_⟩
    · intro h; simp [hp] at h
    · dsimp only; rw [tbStep_colcnt, tbStep_outOff, tbStep_t, List.length_cons]; omega
    · refine w.mode.imp ?_ ?_
      · rintro ⟨len, rfl, hm, hoff, hsyms⟩
        exact ⟨len, rfl, hm, hoff, fun _ => hsyms (by simp [hp])⟩
      · rintro ⟨len, rfl, hm, hwin⟩
        refine ⟨len, rfl, hm, fun hpos => ⟨?_, fun h => by simp [hp] at h⟩⟩
        have := (hwin hpos).1
        dsimp only; rw [tbStep_colcnt]; omega

@[simp] theorem emit_phase (r : Run) (row : Symbol) (w : Work) : (r.emit row w).phase = r.s.phase := by
  unfold emit; split <;> rfl

theorem build_counted (i : Instr) (s : State) (r : Run) : Counted i s r.build := by
  refine .other ?_
  simp only [build]
  split
  · exact .inr (.inr (.inl rfl))
  · exact .inl rfl

theorem enc_phase (hp : r.s.phase = .enc) : r.enc.s.phase = if r.bits = [] then .respond else .enc := by
  unfold enc
  cases hb : r.bits with
  | cons b bs => simpa using hp
  | nil =>
    dsimp only
    split <;> rfl

theorem tick_counted (hw : i.wellFormed = true) (h : Counted i s r) : Counted i s r.tick := by
  cases h with
  | check hp hi _ _ hcode htrail => simpa only [tick, hp] using check_counted hw hi hcode htrail
  | walking hp w =>
    rcases hp with hp | hp | hp
    · simpa only [tick, hp] using acs_counted hp w
    · simpa only [tick, hp] using select_counted hp w
    · simpa only [tick, hp] using trace_counted hp w
  | other hp =>
    rcases hp with hp | hp | hp | hp
    · simpa only [tick, hp] using build_counted i s r
    · refine .other ?_
      simp only [tick, hp, enc_phase hp]
      split
      · exact .inr (.inr (.inl rfl))
      · exact .inr (.inl rfl)
    · simpa only [tick, hp] using .other (.inr (.inr (.inr r.respond_phase)))
    · rw [tick_of_idle hp]; exact .other (.inr (.inr (.inr hp)))

theorem ticks_counted (hw : i.wellFormed = true) (h : Counted i s r) (m : Nat) : Counted i s (ticks m r) := by
  induction m with
  | zero => exact h
  | succ m ih => rw [ticks_succ']; exact tick_counted hw ih

/-! ### The PHASE table (R38) -/

/-- CHECK goes where the table says, on the tests of R124 and R222. -/
theorem check_phase (hi : r.instr = i) (hconfig : r.s.config = s.config) (hvalid : r.s.cfgValid = s.cfgValid)
    (hcode : r.s.code = s.code) : r.check.s.phase = phaseAfterCheck i s r.polys := by
  subst hi
  cases h : r.instr with
  | rst => simp [check, h, phaseAfterCheck]
  | cfg kf pf =>
    simp only [check, h, phaseAfterCheck, hconfig]
    split <;> rfl
  | encb n =>
    simp only [check, h, phaseAfterCheck, State.encodeOk, hvalid]
    split <;> rfl
  | encp n =>
    simp only [check, h, phaseAfterCheck, State.encodeOk, hvalid]
    split <;> rfl
  | decf n =>
    have htests : r.s.decfOk n = true ↔
        s.cfgValid = true ∧ n % s.code.pVal = 0 ∧ s.config.fits (inputBits (.decf n) / s.code.pVal) = true := by
      simp [State.decfOk, State.dectOk, hvalid, hcode, hconfig, and_assoc, inputBits]
    simp only [check, h, phaseAfterCheck]
    by_cases hok : r.s.decfOk n = true
    · rw [if_pos hok, if_pos (htests.mp hok)]
      simp only [enterDecode, hcode]
      rfl
    · rw [if_neg hok, if_neg fun ht => hok (htests.mpr ht)]
      rfl
  | dect n =>
    have htests : r.s.dectOk n = true ↔ s.cfgValid = true ∧ n % s.code.pVal = 0 := by
      simp [State.dectOk, hvalid, hcode]
    simp only [check, h, phaseAfterCheck]
    by_cases hok : r.s.dectOk n = true
    · rw [if_pos hok, if_pos (htests.mp hok)]
      simp only [enterDecode, hcode]
      rfl
    · rw [if_neg hok, if_neg fun ht => hok (htests.mpr ht)]
      rfl

theorem phaseAfterCheck_mem_nexts (i : Instr) (s : State) (polys : List Word) :
    phaseAfterCheck i s polys ∈ Phase.check.nexts := by
  cases i with
  | rst => simp [phaseAfterCheck, Phase.nexts]
  | cfg kf pf => simp only [phaseAfterCheck]; split <;> simp [Phase.nexts]
  | encb n => simp only [phaseAfterCheck]; split <;> simp [Phase.nexts]
  | encp n => simp only [phaseAfterCheck]; split <;> simp [Phase.nexts]
  | decf n => simp only [phaseAfterCheck]; split_ifs <;> simp [Phase.nexts]
  | dect n => simp only [phaseAfterCheck]; split_ifs <;> simp [Phase.nexts]

theorem build_phase (r : Run) :
    r.build.s.phase = if r.build.s.code.tt.length = 2 ^ r.build.s.code.kVal then .respond else .build := by
  simp [build, Code.kVal]

/-- ACS goes to SELECT when MODE = 1 and COLCNT = WIN, or T = n. -/
theorem Walking.acs_phase_eq (w : Walking i s r) (hp : r.s.phase = .acs) :
    r.acs.s.phase =
      if (r.acs.s.work.mode = .truncated ∧ r.acs.s.work.colcnt = 5 * r.acs.s.code.kVal) ∨
        r.acs.s.work.t.toNat = inputBits i / s.code.pVal then .select else .acs := by
  obtain ⟨x, xs, hsyms⟩ := List.exists_cons_of_ne_nil (w.ahead hp)
  rw [← w.total]
  simp [acs, hsyms, flushDue, Code.win]

/-- TRACE walks a column while one is left, then goes to ACS when T < n and to RESPOND otherwise. -/
theorem Walking.trace_phase (w : Walking i s r) (hp : r.s.phase = .trace) :
    r.trace.s.phase =
      if r.s.work.colcnt ≠ 0 then .trace
      else if r.trace.s.work.t.toNat < inputBits i / s.code.pVal then .acs else .respond := by
  rw [← w.total]
  unfold trace
  by_cases h0 : r.s.work.colcnt = 0
  · simp [h0, deliver]
  · simp [h0, hp, tbStep]

end

/-! ### What a tick does to the trellis (R43, R44) -/

/-- What a tick of r does to TR and COLCNT: nothing; it clears them; it adds a column; it walks one. K is written in CHECK
alone, and columns are held in ACS, SELECT and TRACE alone. -/
inductive TickTrellis (r : Run) : Prop
  | same (tr : r.tick.s.work.tr = r.s.work.tr) (colcnt : r.tick.s.work.colcnt = r.s.work.colcnt)
      (k : r.s.phase = .check ∨ r.tick.s.code.kVal = r.s.code.kVal)
      (resting : r.s.phase = .acs ∨ r.s.phase = .select ∨ r.s.phase = .trace → r.s.work.colcnt = 0 ∨
        r.tick.s.phase = .acs ∨ r.tick.s.phase = .select ∨ r.tick.s.phase = .trace)
  | cleared (tr : r.tick.s.work.tr = []) (colcnt : r.tick.s.work.colcnt = 0)
  | grown (x : Symbol) (work : r.tick.s.work = colStep r.s.code x r.s.work) (code : r.tick.s.code = r.s.code)
      (phase : r.tick.s.phase = .acs ∨ r.tick.s.phase = .select)
  | walked (held : r.s.work.colcnt ≠ 0) (work : r.tick.s.work = (tbStep r.s.code r.s.work).2)
      (code : r.tick.s.code = r.s.code) (phase : r.tick.s.phase = .trace)

@[simp] theorem fail_work (r : Run) (e : Exc) : (r.fail e).s.work = r.s.work := by cases e <;> rfl

theorem check_trellis (r : Run) :
    (r.check.s.work.tr = r.s.work.tr ∧ r.check.s.work.colcnt = r.s.work.colcnt) ∨
    (r.check.s.work.tr = [] ∧ r.check.s.work.colcnt = 0) := by
  unfold check
  split
  · exact .inr ⟨rfl, rfl⟩
  · split
    · exact .inl ⟨rfl, rfl⟩
    · exact .inl (by simp)
  · split
    · exact .inl ⟨rfl, rfl⟩
    · exact .inl (by simp)
  · split
    · exact .inl ⟨rfl, rfl⟩
    · exact .inl (by simp)
  · split
    · exact .inr ⟨rfl, rfl⟩
    · exact .inl (by simp)
  · split
    · exact .inr ⟨rfl, rfl⟩
    · exact .inl (by simp)

theorem emit_trellis (r : Run) (row : Symbol) (w : Work) :
    (r.emit row w).work.tr = w.tr ∧ (r.emit row w).work.colcnt = w.colcnt ∧ (r.emit row w).code = r.s.code := by
  unfold emit
  split
  · obtain ⟨_, _, hw⟩ := packBits_work row w
    exact ⟨by simp [hw], by simp [hw], rfl⟩
  · exact ⟨rfl, rfl, rfl⟩

theorem enc_trellis (r : Run) :
    r.enc.s.work.tr = r.s.work.tr ∧ r.enc.s.work.colcnt = r.s.work.colcnt ∧ r.enc.s.code = r.s.code := by
  unfold enc
  split
  · exact emit_trellis r _ _
  · split <;> exact ⟨rfl, rfl, rfl⟩

theorem respond_trellis (r : Run) :
    r.respond.s.work.tr = r.s.work.tr ∧ r.respond.s.work.colcnt = r.s.work.colcnt ∧ r.respond.s.code = r.s.code := by
  unfold respond
  split <;> exact ⟨rfl, rfl, rfl⟩

theorem tick_trellis (r : Run) : TickTrellis r := by
  cases hp : r.s.phase with
  | idle =>
    have ht := tick_of_idle hp
    exact .same (by rw [ht]) (by rw [ht]) (.inr (by rw [ht])) (by simp [hp])
  | check =>
    have ht : r.tick = r.check := by simp only [tick, hp]
    rcases check_trellis r with ⟨htr, hcol⟩ | ⟨htr, hcol⟩
    · exact .same (by rw [ht, htr]) (by rw [ht, hcol]) (.inl hp) (by simp [hp])
    · exact .cleared (by rw [ht, htr]) (by rw [ht, hcol])
  | build =>
    have ht : r.tick = r.build := by simp only [tick, hp]
    exact .same (by rw [ht]; rfl) (by rw [ht]; rfl) (.inr (by rw [ht]; rfl)) (by simp [hp])
  | enc =>
    have ht : r.tick = r.enc := by simp only [tick, hp]
    obtain ⟨htr, hcol, hcode⟩ := enc_trellis r
    exact .same (by rw [ht, htr]) (by rw [ht, hcol]) (.inr (by rw [ht, hcode])) (by simp [hp])
  | acs =>
    have ht : r.tick = r.acs := by simp only [tick, hp]
    cases hs : r.syms with
    | nil =>
      have hself : r.tick = r := by rw [ht]; simp only [acs, hs]
      exact .same (by rw [hself]) (by rw [hself]) (.inr (by rw [hself])) fun _ => .inr (.inl (by rw [hself, hp]))
    | cons x xs =>
      refine .grown x (by rw [ht]; simp only [acs, hs]) (by rw [ht]; simp only [acs, hs]) ?_
      rw [ht]
      simp only [acs, hs]
      split
      · exact .inr rfl
      · exact .inl rfl
  | select =>
    have ht : r.tick = r.select := by simp only [tick, hp]
    exact .same (by rw [ht]; rfl) (by rw [ht]; rfl) (.inr (by rw [ht]; rfl)) fun _ => .inr (.inr (.inr (by rw [ht]; rfl)))
  | trace =>
    have ht : r.tick = r.trace := by simp only [tick, hp]
    by_cases h0 : r.s.work.colcnt = 0
    · have ht : r.tick = r.deliver := by rw [ht, trace, if_pos h0]
      exact .same (by rw [ht]; rfl) (by rw [ht]; rfl) (.inr (by rw [ht]; rfl)) fun _ => .inl h0
    · rw [trace, if_neg h0] at ht
      exact .walked h0 (by rw [ht]) (by rw [ht]) (by rw [ht]; exact hp)
  | respond =>
    have ht : r.tick = r.respond := by simp only [tick, hp]
    obtain ⟨htr, hcol, hcode⟩ := respond_trellis r
    exact .same (by rw [ht, htr]) (by rw [ht, hcol]) (.inr (by rw [ht, hcode])) (by simp [hp])

/-- COLCNT is the number of columns held, and none is held but in ACS, SELECT and TRACE (R43). -/
structure Held (r : Run) : Prop where
  columns : r.s.work.colcnt = r.s.work.tr.length
  resting : r.s.work.colcnt = 0 ∨ r.s.phase = .acs ∨ r.s.phase = .select ∨ r.s.phase = .trace

theorem tick_held {r : Run} (h : Held r) : Held r.tick := by
  rcases tick_trellis r with ⟨htr, hcol, _, hrest⟩ | ⟨htr, hcol⟩ | ⟨x, hw, _, hp⟩ | ⟨hne, hw, _, hp⟩
  · refine ⟨by rw [hcol, htr, h.columns], ?_⟩
    rw [hcol]
    rcases h.resting with h0 | hp
    · exact .inl h0
    · exact hrest hp
  · exact ⟨by rw [hcol, htr]; rfl, .inl hcol⟩
  · exact ⟨by rw [hw]; simp [h.columns], .inr (hp.imp_right .inl)⟩
  · exact ⟨by rw [hw]; simp [h.columns], .inr (.inr (.inr hp))⟩

/-- The entries of every column held are predecessors of their states (R44). -/
def Recorded (k : Nat) (tr : List (List Nat)) : Prop :=
  ∀ col ∈ tr, ∀ (st p : Nat), col[st]? = some p → ∃ x, p = pred k st x

theorem recorded_nil (k : Nat) : Recorded k [] := nofun

theorem recorded_colStep {c : Code} {w : Work} (h : Recorded c.kVal w.tr) (x : Symbol) :
    Recorded c.kVal (colStep c x w).tr := by
  intro col hcol st p hp
  rw [colStep_tr, List.mem_append, List.mem_singleton] at hcol
  rcases hcol with hold | rfl
  · exact h col hold st p hp
  · rw [List.map_map, List.getElem?_map] at hp
    obtain ⟨st', hst, rfl⟩ := Option.map_eq_some_iff.mp hp
    obtain rfl : st = st' := by simpa using (List.getElem?_eq_some_iff.mp hst).2
    obtain ⟨y, hy, _⟩ := acs_cases c w.pm x st
    exact ⟨y, by simp [hy]⟩

/-- No tick leads back to CHECK. -/
theorem tick_phase_ne_check (r : Run) : r.tick.s.phase ≠ .check := by
  cases hp : r.s.phase with
  | idle => rw [tick_of_idle hp, hp]; nofun
  | check =>
    have hmem := phaseAfterCheck_mem_nexts r.instr r.s r.polys
    rw [← check_phase (s := r.s) rfl rfl rfl rfl] at hmem
    simp only [tick, hp]
    intro h
    rw [h] at hmem
    simp [Phase.nexts] at hmem
  | build => simp only [tick, hp, build]; split <;> nofun
  | enc => simp only [tick, hp, enc_phase hp]; split <;> nofun
  | acs =>
    simp only [tick, hp, acs]
    split
    · rw [hp]; nofun
    · dsimp only; split <;> nofun
  | select => simp only [tick, hp]; nofun
  | trace =>
    simp only [tick, hp, trace]
    split
    · simp only [deliver]; split <;> nofun
    · nofun
  | respond => simp only [tick, hp, respond_phase]; nofun

theorem ticks_recorded {r : Run} (h : r.s.work.tr = []) (m : Nat) :
    Recorded (ticks m r).s.code.kVal (ticks m r).s.work.tr ∧
      ((ticks m r).s.phase = .check → (ticks m r).s.work.tr = []) := by
  induction m with
  | zero => exact ⟨by rw [ticks_zero, h]; exact recorded_nil _, fun _ => h⟩
  | succ m ih =>
    obtain ⟨hrec, hempty⟩ := ih
    rw [ticks_succ']
    generalize ticks m r = q at *
    refine ⟨?_, fun hp => absurd hp (tick_phase_ne_check q)⟩
    rcases tick_trellis q with ⟨htr, _, hk, _⟩ | ⟨htr, _⟩ | ⟨x, hw, hcode, _⟩ | ⟨_, hw, hcode, _⟩
    · rw [htr]
      rcases hk with hp | hk
      · rw [hempty hp]; exact recorded_nil _
      · rw [hk]; exact hrec
    · rw [htr]; exact recorded_nil _
    · rw [hw, hcode]; exact recorded_colStep hrec x
    · rw [hw, hcode, tbStep_tr]
      exact fun col hcol => hrec col (List.mem_of_mem_take hcol)

theorem ticks_held {r : Run} (h : Held r) (m : Nat) : Held (ticks m r) := by
  induction m with
  | zero => exact h
  | succ m ih => rw [ticks_succ']; exact tick_held ih

theorem start_work {i : Instr} {s : State} {r : Run} (h : start i s = some r) : r.s.work = s.work := by
  cases i
  case rst => cases h; rfl
  all_goals
    simp only [start] at h
    split at h
    · cases h; rfl
    · cases h

end Run

/-! ### A predecessor and its bit 0 (R44) -/

theorem pred_testBit_zero (k s : Nat) (x : Bool) : (pred k s x).testBit 0 = x := by
  rw [pred, Nat.testBit_or, Nat.testBit_and, Nat.testBit_shiftLeft, testBit_toNat]
  simp

theorem pred_shiftRight (k s : Nat) (x : Bool) : pred k s x >>> 1 = s &&& (stateMask k >>> 1) := by
  have hx : x.toNat >>> 1 = 0 := by cases x <;> rfl
  rw [pred, Nat.shiftRight_or_distrib, Nat.shiftRight_and_distrib, Nat.shiftLeft_shiftRight, hx, Nat.or_zero]

/-! ### The statements -/

/-- Settles O47: `Run.Counted` holds at every tick, and says of each phase what its successor rests on. -/
theorem ticksFollowThePhaseTable : Obligations.TicksFollowThePhaseTable := by
  intro i s r m hw hr q q' hne
  have hcounted : Run.Counted i s q := Run.ticks_counted hw (Run.start_counted hr) m
  have hq' : q' = q.tick := Run.ticks_succ' m r
  rw [hq']
  cases hcounted with
  | check hp hi hconfig hvalid hcode _ =>
    have ht : q.tick = q.check := by simp only [Run.tick, hp]
    have hphase := Run.check_phase hi hconfig hvalid hcode
    simp only [ht, hphase, phaseAfter, hp]
    exact ⟨trivial, Run.phaseAfterCheck_mem_nexts i s q.polys, nofun⟩
  | walking hp w =>
    rcases hp with hp | hp | hp
    · have ht : q.tick = q.acs := by simp only [Run.tick, hp]
      have hphase := w.acs_phase_eq hp
      simp only [ht, phaseAfter, hp]
      refine ⟨hphase, ?_, nofun⟩
      rw [hphase]
      split <;> simp [Phase.nexts]
    · have ht : q.tick = q.select := by simp only [Run.tick, hp]
      simp only [ht, phaseAfter, hp]
      exact ⟨rfl, by simp [Run.select, Phase.nexts], nofun⟩
    · have ht : q.tick = q.trace := by simp only [Run.tick, hp]
      have hphase := w.trace_phase hp
      simp only [ht, phaseAfter, hp]
      refine ⟨hphase, ?_, nofun⟩
      rw [hphase]
      split_ifs <;> simp [Phase.nexts]
  | other hp =>
    rcases hp with hp | hp | hp | hp
    · have ht : q.tick = q.build := by simp only [Run.tick, hp]
      have hphase := Run.build_phase q
      simp only [ht, phaseAfter, hp]
      refine ⟨hphase, ?_, nofun⟩
      rw [hphase]
      split <;> simp [Phase.nexts]
    · have ht : q.tick = q.enc := by simp only [Run.tick, hp]
      simp only [ht, phaseAfter, hp, Run.enc_phase hp]
      refine ⟨trivial, by split <;> simp [Phase.nexts], fun _ => ?_⟩
      unfold Run.enc
      cases hb : q.bits with
      | cons b bs => rfl
      | nil => dsimp only; split <;> rfl
    · have ht : q.tick = q.respond := by simp only [Run.tick, hp]
      simp only [ht, phaseAfter, hp, Run.respond_phase]
      exact ⟨trivial, by simp [Phase.nexts], nofun⟩
    · exact absurd hp hne

/-- Settles O48: `Run.Counted` counts the column steps, `Run.Held` the columns. -/
theorem columnCountIsStepsSinceTheFlush : Obligations.ColumnCountIsStepsSinceTheFlush := by
  intro s n m r hinv hn w ph
  have held {i : Instr} (hr : Run.start i s = some r) : Run.Held (Run.ticks m r) := by
    refine Run.ticks_held ⟨?_, .inl ?_⟩ m <;> rw [Run.start_work hr, hinv.columns]
    rw [hinv.trellis]; rfl
  have due {i : Instr} (hw : i.wellFormed = true) (hr : Run.start i s = some r) :
      (ph = .acs ∨ ph = .select ∨ ph = .trace) → Run.Walking i s (Run.ticks m r) :=
    (Run.ticks_counted hw (Run.start_counted hr) m).walk
  have steps {i : Instr} (walk : Run.Walking i s (Run.ticks m r)) (hp : ph = .acs ∨ ph = .select) :
      w.colcnt + w.outOff.toNat = w.t.toNat := by
    have hcount := walk.count
    rwa [walk.untold (by rcases hp with hp | hp <;> exact fun h => absurd (hp.symm.trans h) nofun), List.length_nil]
      at hcount
  refine ⟨fun hr => ⟨(held hr).columns, fun hp => ?_⟩, fun hr => ⟨(held hr).columns, fun hp => ?_, fun hv => ?_⟩⟩
  · have walk := due (i := .decf n) (lengthFits_iff.mpr hn) hr (hp.imp_right .inl)
    have hsteps := steps walk hp
    rcases walk.mode with ⟨_, _, _, hoff, _⟩ | ⟨_, hi, _⟩
    · have hoff : w.outOff = 0#24 := hoff
      rw [hoff] at hsteps
      exact ⟨hsteps, hoff⟩
    · cases hi
  · exact steps (due (i := .dect n) (lengthFits_iff.mpr hn) hr (hp.imp_right .inl)) hp
  · rcases (held hr).resting with h0 | hp
    · exact (le_of_eq h0).trans (Nat.zero_le _)
    · rcases (due (i := .dect n) (lengthFits_iff.mpr hn) hr hp).mode with ⟨_, hi, _⟩ | ⟨_, _, _, hwin⟩
      · cases hi
      · exact (hwin (hinv.code hv).win_pos).1

/-- Settles O49: a column step records predecessors, and nothing else writes TR but to shorten it. -/
theorem trellisEntriesArePredecessors : Obligations.TrellisEntriesArePredecessors := by
  intro i s r m hinv hr q j st p col hcol hp
  obtain ⟨hrec, _⟩ := Run.ticks_recorded (by rw [Run.start_work hr, hinv.trellis]) m
  obtain ⟨x, rfl⟩ := hrec col (List.mem_of_getElem? hcol) st p hp
  refine ⟨by cases x <;> simp [q], ?_, pred_shiftRight _ _ _⟩
  rw [pred_testBit_zero]
  rfl

end Sys2Proof.Machine
end

section
/-! SUPPORT. Whole runs of the sequencer: BUILD fills the table, ENC encodes, ACS with SELECT and TRACE decodes, each as
the command's body does at one go. -/

namespace Sys2Proof.Machine

/-! ### Commands whose items have been taken -/

theorem withItems_got {α : Type} {view : DinItem → Option α} {s : State} {n : Nat} {xs : List α} {rest : List DinItem}
    (h : takeItems view n s.din = .got xs rest) (go : List α → State → State) :
    s.withItems view n go = .next (go xs { s with din := rest }) := by
  rw [State.withItems, h]

/-- The state with working state `w` and `out` delivered, in phase `p`. -/
def State.gave (s : State) (out : List DoutItem) (w : Work) (p : Phase) : State :=
  { s with work := w, dout := s.dout ++ out, phase := p }

@[simp] theorem gave_work (s : State) (out : List DoutItem) (w : Work) (p : Phase) : (s.gave out w p).work = w := rfl
@[simp] theorem gave_code (s : State) (out : List DoutItem) (w : Work) (p : Phase) : (s.gave out w p).code = s.code := rfl
@[simp] theorem gave_phase (s : State) (out : List DoutItem) (w : Work) (p : Phase) : (s.gave out w p).phase = p := rfl

theorem gave_gave (s : State) (out out' : List DoutItem) (w w' : Work) (p p' : Phase) :
    (s.gave out w p).gave out' w' p' = s.gave (out ++ out') w' p' := by
  simp [State.gave]

namespace Run

/-- Some number of ticks leads from r to r'. -/
def Reaches (r r' : Run) : Prop := ∃ m, ticks m r = r'

theorem Reaches.refl (r : Run) : Reaches r r := ⟨0, rfl⟩

theorem Reaches.trans {r r' r'' : Run} (h : Reaches r r') (h' : Reaches r' r'') : Reaches r r'' := by
  obtain ⟨m, rfl⟩ := h
  obtain ⟨n, rfl⟩ := h'
  exact ⟨m + n, ticks_add m n r⟩

theorem Reaches.tick_of {r r' : Run} (h : Reaches r.tick r') : Reaches r r' := by
  obtain ⟨m, rfl⟩ := h
  exact ⟨m + 1, rfl⟩

/-- A run that reaches RESPOND ends in the state that puts its code. -/
theorem Reaches.ends {i : Instr} {s : State} {r q : Run} (h : Reaches r q) (hp : q.s.phase = .respond)
    (he : exec i s = .next q.respond.s) :
    ∃ m, exec i s = .next (ticks m r).s ∧ (ticks m r).s.phase = .idle := by
  obtain ⟨m, rfl⟩ := h
  have ht : ticks (m + 1) r = (ticks m r).respond := by rw [ticks_succ']; simp only [tick, hp]
  exact ⟨m + 1, by rw [ht, he], by rw [ht, respond_phase]⟩

/-- A command that puts its code as it stands: all but a decode that ends in OK. -/
theorem respond_of_not_decode {r : Run} (h : ∀ n, r.instr = .decf n ∨ r.instr = .dect n → r.rsp ≠ .ok) :
    r.respond.s = r.s.respond r.rsp := by
  unfold respond
  split
  · next hi hr => exact absurd hr (h _ (.inl hi))
  · next hi hr => exact absurd hr (h _ (.inr hi))
  · rfl

/-! ### BUILD (R121, R126) -/

/-- One tick of BUILD, with the rows below j there: row j is appended, and CFG_VALID set with the last. -/
theorem build_eq {r : Run} {j : Nat} (hj : j < 2 ^ r.s.code.kVal)
    (htt : r.s.code.tt = (buildTable r.s.code.kVal r.s.code.g).take j) :
    r.build = { r with s := { r.s with
      code := { r.s.code with tt := (buildTable r.s.code.kVal r.s.code.g).take (j + 1) }
      cfgValid := r.s.cfgValid || j + 1 == 2 ^ r.s.code.kVal
      phase := if j + 1 == 2 ^ r.s.code.kVal then .respond else .build } } := by
  have hlt : j < (buildTable r.s.code.kVal r.s.code.g).length := by rwa [buildTable_length]
  have hlen : r.s.code.tt.length = j := by rw [htt, List.length_take]; omega
  have hrow : r.s.code.tt ++ [(r.s.code.g.map fun gj => revK r.s.code.kVal gj.toNat).map (rowBit r.s.code.kVal j)] =
      (buildTable r.s.code.kVal r.s.code.g).take (j + 1) := by
    rw [List.take_add_one, ← htt, List.getElem?_eq_getElem hlt]
    simp [buildTable]
  unfold build
  dsimp only
  rw [hlen, hrow]

/-- From BUILD with the rows below j there, d + 1 more complete the table. -/
theorem reaches_built {r : Run} {j d : Nat} (hp : r.s.phase = .build) (hd : j + (d + 1) = 2 ^ r.s.code.kVal)
    (htt : r.s.code.tt = (buildTable r.s.code.kVal r.s.code.g).take j) :
    Reaches r { r with s := { r.s with
      code := { r.s.code with tt := buildTable r.s.code.kVal r.s.code.g }, cfgValid := true, phase := .respond } } := by
  induction d generalizing r j with
  | zero =>
    have hfull : (buildTable r.s.code.kVal r.s.code.g).take (j + 1) = buildTable r.s.code.kVal r.s.code.g := by
      rw [hd, ← buildTable_length r.s.code.kVal r.s.code.g, List.take_length]
    refine Reaches.tick_of ?_
    have hlast : r.tick = r.build := by simp only [tick, hp]
    rw [hlast, build_eq (by omega) htt, hfull, hd, beq_self_eq_true, Bool.or_true, if_pos rfl]
    exact .refl _
  | succ d ih =>
    have hmore : (j + 1 == 2 ^ r.s.code.kVal) = false := beq_eq_false_iff_ne.mpr (by omega)
    refine Reaches.tick_of ?_
    have hnext : r.tick = r.build := by simp only [tick, hp]
    rw [hnext, build_eq (by omega) htt, hmore, Bool.or_false, if_neg Bool.false_ne_true]
    exact ih (j := j + 1) rfl (by dsimp only [Code.kVal] at hd ⊢; omega) rfl

/-! ### ENC (R142, R145) -/

/-- What a command puts on DOUT for encoder output: the bits, or the bytes that fill. -/
def emitted (i : Instr) (e : List Bool) (w : Work) : List DoutItem × Work :=
  match i with
  | .encp _ => ((packBits e w).1.map .byte, (packBits e w).2)
  | _ => (e.map .bit, w)

/-- What it puts on DOUT at the end: the pad byte of ENCP. -/
def padding (i : Instr) (w : Work) : List DoutItem :=
  match i with
  | .encp _ => (packRest w).map .byte
  | _ => []

end Run

theorem packBit_encState (v : Bool) (w : Work) (e : Nat) :
    packBit v { w with encState := e } = ((packBit v w).1, { (packBit v w).2 with encState := e }) := by
  unfold packBit
  dsimp only
  split <;> rfl

/-- Packing does not look at ENC_STATE. -/
theorem packBits_encState (a : List Bool) (w : Work) (e : Nat) :
    packBits a { w with encState := e } = ((packBits a w).1, { (packBits a w).2 with encState := e }) := by
  induction a generalizing w with
  | nil => rfl
  | cons v a ih => rw [packBits_cons, packBits_cons, packBit_encState, ih]

theorem packBits_append (a b : List Bool) (w : Work) :
    packBits (a ++ b) w =
      ((packBits a w).1 ++ (packBits b (packBits a w).2).1, (packBits b (packBits a w).2).2) := by
  induction a generalizing w with
  | nil => rfl
  | cons v a ih => rw [List.cons_append, packBits_cons, packBits_cons, ih]; simp only [List.append_assoc]

namespace Run

theorem emitted_encState (i : Instr) (a : List Bool) (w : Work) (e : Nat) :
    emitted i a { w with encState := e } = ((emitted i a w).1, { (emitted i a w).2 with encState := e }) := by
  unfold emitted
  split
  · rw [packBits_encState]
  · rfl

theorem emitted_keeps_encState (i : Instr) (a : List Bool) (w : Work) : (emitted i a w).2.encState = w.encState := by
  unfold emitted
  split
  · obtain ⟨_, _, h⟩ := packBits_work a w
    rw [h]
  · rfl

theorem emitted_append (i : Instr) (a b : List Bool) (w : Work) :
    emitted i (a ++ b) w = ((emitted i a w).1 ++ (emitted i b (emitted i a w).2).1, (emitted i b (emitted i a w).2).2) := by
  unfold emitted
  split
  · simp only [packBits_append, List.map_append]
  · simp only [List.map_append]

theorem emitted_nil (i : Instr) (w : Work) : emitted i [] w = ([], w) := by
  unfold emitted
  split <;> rfl

theorem emit_eq (r : Run) (row : Symbol) (w : Work) :
    r.emit row w = r.s.gave (emitted r.instr row w).1 (emitted r.instr row w).2 r.s.phase := by
  obtain ⟨s, i, _, _, _, _, _, _⟩ := r
  cases i <;> rfl

theorem enc_of_nil {r : Run} (h : r.bits = []) :
    r.enc = { r with s := r.s.gave (padding r.instr r.s.work) r.s.work .respond } := by
  obtain ⟨s, i, _, _, _, _, _, _⟩ := r
  obtain rfl := h
  cases i with
  | encp n => rfl
  | _ => simp [enc, padding, State.gave]

theorem enc_of_cons {r : Run} {b : Bool} {bs : List Bool} (h : r.bits = b :: bs) (hp : r.s.phase = .enc) :
    r.enc = { r with
      s := r.s.gave (emitted r.instr (encStep r.s.code b r.s.work).1 (encStep r.s.code b r.s.work).2).1
        (emitted r.instr (encStep r.s.code b r.s.work).1 (encStep r.s.code b r.s.work).2).2 .enc
      bits := bs } := by
  unfold enc
  rw [h]
  dsimp only
  rw [emit_eq, hp]

/-- ENC encodes the bits left, emits them, and pads. -/
theorem reaches_encoded {r : Run} (hp : r.s.phase = .enc) {e : List Bool} {w : Work}
    (he : encodeBits r.s.code r.bits r.s.work = (e, w)) :
    Reaches r { r with
      s := r.s.gave ((emitted r.instr e w).1 ++ padding r.instr (emitted r.instr e w).2) (emitted r.instr e w).2 .respond
      bits := [] } := by
  induction hb : r.bits generalizing r e w with
  | nil =>
    rw [hb, encodeBits_nil] at he
    obtain ⟨rfl, rfl⟩ := Prod.mk.inj he
    refine Reaches.tick_of ?_
    have henc : r.tick = r.enc := by simp only [tick, hp]
    rw [henc, enc_of_nil hb, emitted_nil, List.nil_append, ← hb]
    exact .refl _
  | cons b bs ih =>
    obtain ⟨row, v, hstep⟩ : ∃ row v, encStep r.s.code b r.s.work = (row, v) := ⟨_, _, rfl⟩
    -- The step's row goes out at once; the body of the command packs all rows together.
    have hcons : encodeBits r.s.code (b :: bs) r.s.work =
        (row ++ (encodeBits r.s.code bs v).1, (encodeBits r.s.code bs v).2) := by
      rw [encodeBits, hstep]
    rw [hb, hcons, encodeBits_work] at he
    obtain ⟨rfl, rfl⟩ := Prod.mk.inj he
    have hsame : (emitted r.instr row v).2.encState = v.encState := emitted_keeps_encState _ _ _
    have hrest : encodeBits r.s.code bs (emitted r.instr row v).2 =
        ((encodeBits r.s.code bs v).1,
          { (emitted r.instr row v).2 with encState := bs.foldl (nextState r.s.code.kVal) v.encState }) := by
      refine Prod.ext (encodeBits_out_congr _ _ hsame) ?_
      rw [encodeBits_work, hsame]
    have hrun := ih (r := { r with
      s := r.s.gave (emitted r.instr row v).1 (emitted r.instr row v).2 .enc, bits := bs }) rfl hrest rfl
    dsimp only at hrun
    rw [gave_gave, ← List.append_assoc] at hrun
    refine Reaches.tick_of ?_
    have henc : r.tick = r.enc := by simp only [tick, hp]
    rw [henc, enc_of_cons hb hp, hstep, emitted_append,
      emitted_encState r.instr row v (bs.foldl (nextState r.s.code.kVal) v.encState)]
    exact hrun

/-! ### ACS, SELECT, TRACE (R166, R171, R201, R202) -/

/-- What a selection leads to: a flush in truncated mode, one traceback in full-sequence mode. -/
def delivered (c : Code) (w : Work) : List Bool × Work := if w.mode = .truncated then flush c w else traceback c w

/-- What follows the loop: the last partial window in truncated mode, the traceback in full-sequence mode. -/
def finished (c : Code) (w : Work) : List Bool × Work := if w.mode = .truncated then flushRest c w else traceback c w

/-- The loop over rs, with what follows it: the body of a decode from the working state on. -/
def decodedBy (c : Code) (rs : List Symbol) (w : Work) : List Bool × Work :=
  ((decodeLoop c rs w).1 ++ (finished c (decodeLoop c rs w).2).1, (finished c (decodeLoop c rs w).2).2)

theorem traceback_keeps (c : Code) (w : Work) :
    (traceback c w).2.mode = w.mode ∧ (traceback c w).2.t = w.t ∧ (traceback c w).2.outOff = w.outOff ∧
    (traceback c w).2.colcnt = 0 := by
  have h := tbRun_work c w.colcnt [] (selectBest c w)
  rw [← traceback] at h
  rw [h]
  simp

theorem delivered_keeps (c : Code) (w : Work) :
    (delivered c w).2.mode = w.mode ∧ (delivered c w).2.t = w.t ∧ (delivered c w).2.colcnt = 0 := by
  obtain ⟨hm, ht, _, hc⟩ := traceback_keeps c w
  unfold delivered
  split
  · exact ⟨hm, ht, hc⟩
  · exact ⟨hm, ht, hc⟩

theorem finished_of_pos (c : Code) {w : Work} (h : 0 < w.colcnt) : finished c w = delivered c w := by
  unfold finished delivered
  rw [flushRest_of_pos c h]

theorem mode_of_flushDue {c : Code} {w : Work} (h : flushDue c w = true) : w.mode = .truncated := by
  rw [flushDue, Bool.and_eq_true, beq_iff_eq] at h
  exact h.1

theorem decodedBy_nil (c : Code) (w : Work) : decodedBy c [] w = finished c w := by
  rw [decodedBy, decodeLoop_nil, List.nil_append]

theorem decodedBy_of_not_due {c : Code} {x : Symbol} {w : Work} (h : flushDue c (colStep c x w) = false)
    (xs : List Symbol) : decodedBy c (x :: xs) w = decodedBy c xs (colStep c x w) := by
  rw [decodedBy, decodeLoop_cons_of_not_due _ _ _ _ h]
  rfl

theorem decodedBy_of_due {c : Code} {x : Symbol} {w : Work} (h : flushDue c (colStep c x w) = true)
    (xs : List Symbol) :
    decodedBy c (x :: xs) w =
      ((delivered c (colStep c x w)).1 ++ (decodedBy c xs (delivered c (colStep c x w)).2).1,
        (decodedBy c xs (delivered c (colStep c x w)).2).2) := by
  have hflush : delivered c (colStep c x w) = flush c (colStep c x w) := by
    rw [delivered, if_pos (mode_of_flushDue h)]
  rw [hflush, decodedBy, decodeLoop_cons_of_due _ _ _ _ h]
  simp only [decodedBy, List.append_assoc]

/-- After the last symbol one selection follows, in either mode: with the trigger's flush nothing is left. -/
theorem decodedBy_singleton (c : Code) (x : Symbol) (w : Work) :
    decodedBy c [x] w = delivered c (colStep c x w) := by
  obtain ⟨hm, _, hc⟩ := delivered_keeps c (colStep c x w)
  cases h : flushDue c (colStep c x w) with
  | false =>
    rw [decodedBy_of_not_due h, decodedBy_nil]
    exact finished_of_pos c (Nat.succ_pos _)
  | true =>
    rw [decodedBy_of_due h, decodedBy_nil]
    rw [finished, if_pos (hm.trans (mode_of_flushDue h)), flushRest_of_empty c hc, List.append_nil]

theorem decodedBy_full (c : Code) (rs : List Symbol) (w : Work) :
    decodedBy c rs (w.decodeStart c .full) = decodeFull c rs w := by
  have hm : (decodeLoop c rs (w.decodeStart c .full)).2.mode = .full := (decodeLoop_frame c rs _ rfl).1
  rw [decodedBy, finished, if_neg (by rw [hm]; nofun)]
  rfl

theorem decodedBy_truncated (c : Code) (rs : List Symbol) (w : Work) :
    decodedBy c rs (w.decodeStart c .truncated) = decodeTruncated c rs w := by
  have hm : (decodeLoop c rs (w.decodeStart c .truncated)).2.mode = .truncated := (decodeLoop_frame c rs _ rfl).1
  rw [decodedBy, finished, if_pos hm]
  rfl

theorem trace_of_empty {r : Run} (hp : r.s.phase = .trace) (h0 : r.s.work.colcnt = 0) :
    r.tick = { r with
      s := r.s.gave (r.trail.map .bit)
        { r.s.work with
          outOff := if r.s.work.mode = .truncated then r.s.work.outOff + BitVec.ofNat 24 r.trail.length
            else r.s.work.outOff }
        (if r.s.work.t.toNat < r.n then .acs else .respond)
      trail := [] } := by
  simp only [tick, hp, trace, if_pos h0]
  rfl

/-- SELECT and the traceback after it deliver at one go. -/
theorem reaches_delivered {r : Run} (hp : r.s.phase = .select) (ht : r.trail = []) :
    Reaches r { r with
      s := r.s.gave ((delivered r.s.code r.s.work).1.map .bit) (delivered r.s.code r.s.work).2
        (if r.s.work.t.toNat < r.n then .acs else .respond)
      trail := [] } := by
  obtain ⟨hm, htt, _, hc⟩ := traceback_keeps r.s.code r.s.work
  have hselect : r.tick = r.select := by simp only [tick, hp]
  have hwalk : Reaches r.select { r with
      s := { r.s with work := (traceback r.s.code r.s.work).2, phase := .trace }
      trail := (traceback r.s.code r.s.work).1 } := by
    have htrail : r.select.trail = [] := ht
    have h := ticks_trace r.s.work.colcnt r.select rfl rfl
    rw [htrail] at h
    exact ⟨_, h⟩
  refine Reaches.tick_of ?_
  rw [hselect]
  refine hwalk.trans (Reaches.tick_of ?_)
  rw [trace_of_empty rfl hc, ← htt]
  dsimp only
  rw [traceback_length]
  by_cases hmode : r.s.work.mode = .truncated
  · rw [if_pos (hm.trans hmode), delivered, if_pos hmode]
    exact .refl _
  · rw [if_neg (hm ▸ hmode), delivered, if_neg hmode]
    exact .refl _

/-- From ACS on a decode runs as its body: the column steps, the flushes on the way, what follows the last symbol. -/
theorem reaches_decoded {i : Instr} {s : State} (hw : i.wellFormed = true) (rs : List Symbol) {q : Run}
    (hq : Counted i s q) (hp : q.s.phase = .acs) (hs : q.syms = rs) :
    Reaches q { q with
      s := q.s.gave ((decodedBy q.s.code rs q.s.work).1.map .bit) (decodedBy q.s.code rs q.s.work).2 .respond
      syms := [], trail := [] } := by
  induction rs generalizing q with
  | nil => exact absurd hs ((hq.walk (.inl hp)).ahead hp)
  | cons x xs ih =>
    have w := hq.walk (.inl hp)
    have hacs : q.tick = q.acs := by simp only [tick, hp]
    have hnext : Counted i s q.acs := acs_counted hp w
    have hleft := (acs_walking hp w).left
    refine Reaches.tick_of ?_
    rw [hacs]
    rcases w.acs_phase hs with ⟨hselect, hdue⟩ | ⟨hstay, hnot, hxs⟩
    · have hrun : q.acs = { q with
          s := { q.s with work := colStep q.s.code x q.s.work, phase := .select }, syms := xs } := by
        rw [acs_of_cons hs, hselect]
      rw [hrun] at hnext hleft ⊢
      have hdel := reaches_delivered (r := { q with
          s := { q.s with work := colStep q.s.code x q.s.work, phase := .select }, syms := xs }) rfl
        (w.untold (by simp [hp]))
      dsimp only at hdel hleft
      by_cases hxs : xs = []
      · subst hxs
        rw [List.length_nil] at hleft
        rw [if_neg (by omega)] at hdel
        rw [decodedBy_singleton]
        exact hdel
      · have hpos := List.length_pos_of_ne_nil hxs
        rw [if_pos (by omega)] at hdel
        obtain ⟨m, hm⟩ := hdel
        have hrest := ih (hm ▸ ticks_counted hw hnext m) rfl rfl
        rw [decodedBy_of_due (hdue.resolve_right hxs), List.map_append]
        dsimp only [gave_code, gave_work] at hrest
        refine Reaches.trans ⟨m, hm⟩ ?_
        rw [gave_gave] at hrest
        exact hrest
    · have hrun : q.acs = { q with
          s := { q.s with work := colStep q.s.code x q.s.work, phase := .acs }, syms := xs } := by
        rw [acs_of_cons hs, hstay]
      rw [hrun] at hnext ⊢
      rw [decodedBy_of_not_due hnot]
      exact ih hnext rfl rfl

theorem Reaches.counted {i : Instr} {s : State} {r q : Run} (h : Reaches r q) (hw : i.wellFormed = true)
    (hstart : start i s = some r) : Counted i s q := by
  obtain ⟨m, rfl⟩ := h
  exact ticks_counted hw (start_counted hstart) m

/-- From the end of CHECK a decode runs as its body: through ACS when there is a symbol; with none, through SELECT in
full-sequence mode and at once in truncated mode. -/
theorem reaches_body {i : Instr} {s : State} {r : Run} {n : Nat} {m : Mode} {empty : Phase}
    (hw : i.wellFormed = true) (hq : Counted i s (r.enterDecode n m empty))
    (hempty : m = .full ∧ empty = .select ∨ m = .truncated ∧ empty = .respond) (ht : r.trail = []) :
    let body := decodedBy r.s.code (symbols r.s.code.pVal (n / r.s.code.pVal) r.bits) (r.s.work.decodeStart r.s.code m)
    ∃ q, Reaches (r.enterDecode n m empty) q ∧ q.s = r.s.gave (body.1.map .bit) body.2 .respond ∧
      q.instr = r.instr ∧ q.rsp = r.rsp := by
  intro body
  by_cases h0 : n / r.s.code.pVal = 0
  · have hphase : (r.enterDecode n m empty).s.phase = empty := if_pos h0
    have hn : (r.enterDecode n m empty).n = 0 := h0
    have hbody : body = finished r.s.code (r.s.work.decodeStart r.s.code m) := by
      simp only [body, h0, symbols, decodedBy_nil]
    rw [hbody]
    rcases hempty with ⟨rfl, rfl⟩ | ⟨rfl, rfl⟩
    · have hdel := reaches_delivered hphase ht
      rw [hn, if_neg (Nat.not_lt_zero _)] at hdel
      exact ⟨_, hdel, rfl, rfl, rfl⟩
    · have hnone : finished r.s.code (r.s.work.decodeStart r.s.code .truncated) =
          ([], r.s.work.decodeStart r.s.code .truncated) := by
        have hmode : (r.s.work.decodeStart r.s.code .truncated).mode = .truncated := rfl
        rw [finished, if_pos hmode, flushRest_of_empty]
        rfl
      rw [hnone, ← hphase]
      exact ⟨_, .refl _, by simp [State.gave, enterDecode], rfl, rfl⟩
  · have hphase : (r.enterDecode n m empty).s.phase = .acs := if_neg h0
    exact ⟨_, reaches_decoded hw _ hq hphase rfl, rfl, rfl, rfl⟩

/-- A decode that ends in OK leaves its scratch unspecified. -/
theorem respond_of_decode {r : Run} {n : Nat} (hi : r.instr = .decf n ∨ r.instr = .dect n) (hr : r.rsp = .ok) :
    r.respond.s = r.s.releaseScratch.respond .ok := by
  obtain ⟨_, _, _, _, _, _, _, _⟩ := r
  obtain rfl := hr
  rcases hi with rfl | rfl <;> rfl

/-- CHECK on an error: the exception is taken, as the command takes it. -/
theorem fail_respond (r : Run) (e : Exc) : (r.fail e).respond.s = r.s.raise e := by
  cases e <;> exact respond_of_not_decode fun _ _ => nofun

theorem reaches_check {r : Run} (hp : r.s.phase = .check) : Reaches r r.check :=
  ⟨1, by rw [ticks_succ, ticks_zero]; simp only [tick, hp]⟩

/-- A run whose CHECK takes an exception ends as the command that takes it. -/
theorem Reaches.fails {i : Instr} {s : State} {r : Run} {e : Exc} (h : Reaches r r.check) (hfail : r.check = r.fail e)
    (he : exec i s = .next (r.s.raise e)) :
    ∃ m, exec i s = .next (ticks m r).s ∧ (ticks m r).s.phase = .idle := by
  rw [hfail] at h
  exact h.ends (by cases e <;> rfl) (by rw [fail_respond, he])

section
variable {s : State} {rest : List DinItem}

/-- CFG: its check, then BUILD row by row. -/
theorem cfg_runs {kf pf : Nat} {g : List Word} (hkf : kf < 2 ^ 5) (htake : takeItems DinItem.asWord pf s.din = .got g rest)
    {r : Run} (hr : r = { init (.cfg kf pf) { s with din := rest } with polys := g }) :
    ∃ m, exec (.cfg kf pf) s = .next (ticks m r).s ∧ (ticks m r).s.phase = .idle := by
  subst hr
  have hcheck := reaches_check (r := { init (.cfg kf pf) { s with din := rest } with polys := g }) rfl
  have hexec := withItems_got htake
  by_cases hp : paramsOk s.config kf pf g = true
  · have hk : (BitVec.ofNat 5 kf).toNat = kf := by rw [BitVec.toNat_ofNat, Nat.mod_eq_of_lt hkf]
    have hpass : check { init (.cfg kf pf) { s with din := rest } with polys := g } =
        { init (.cfg kf pf) { s with din := rest } with
          polys := g
          s := { s with
            din := rest, code := { k := BitVec.ofNat 5 kf, p := BitVec.ofNat 8 pf, g := g, tt := [] }
            phase := .build } } := if_pos hp
    rw [hpass] at hcheck
    have hbuilt := reaches_built (r := { init (.cfg kf pf) { s with din := rest } with
        polys := g
        s := { s with
          din := rest, code := { k := BitVec.ofNat 5 kf, p := BitVec.ofNat 8 pf, g := g, tt := [] }
          phase := .build } }) (j := 0) (d := 2 ^ kf - 1) rfl
      (by have := Nat.two_pow_pos kf; dsimp only [Code.kVal]; rw [hk]; omega) rfl
    dsimp only [Code.kVal] at hbuilt
    rw [hk] at hbuilt
    refine (hcheck.trans hbuilt).ends rfl ?_
    rw [exec_cfg, execCfg, hexec]
    exact congrArg _ (if_pos hp)
  · refine hcheck.fails (if_neg hp) ?_
    rw [exec_cfg, execCfg, hexec]
    exact congrArg _ (if_neg hp)

/-- ENCB: its check, then ENC bit by bit. -/
theorem encb_runs {n : Nat} {xs : List Bool} (htake : takeItems DinItem.asBit n s.din = .got xs rest) {r : Run}
    (hr : r = { init (.encb n) { s with din := rest } with bits := xs }) :
    ∃ m, exec (.encb n) s = .next (ticks m r).s ∧ (ticks m r).s.phase = .idle := by
  have hcheck := reaches_check (r := r) (by rw [hr]; rfl)
  have hexec := withItems_got htake
  by_cases hv : s.cfgValid = true
  · have hpass : r.check = r.enterEnc s.work.encodeStart := by subst hr; exact if_pos hv
    have hrun := reaches_encoded (r := r.enterEnc s.work.encodeStart) rfl rfl
    subst hr
    rw [hpass] at hcheck
    refine (hcheck.trans hrun).ends rfl ?_
    rw [exec_encb, execEncb, hexec]
    refine congrArg _ ((if_pos hv).trans ?_)
    change _ = (State.gave _ (_ ++ []) _ _).respond .ok
    rw [List.append_nil]
    rfl
  · refine hcheck.fails (by subst hr; exact if_neg hv) ?_
    subst hr
    rw [exec_encb, execEncb, hexec]
    exact congrArg _ (if_neg hv)

/-- ENCP: its check, then ENC bit by bit, with the pad byte. -/
theorem encp_runs {n : Nat} {bytes : List Byte} (htake : takeItems DinItem.asByte (byteCount n) s.din = .got bytes rest)
    {r : Run} (hr : r = { init (.encp n) { s with din := rest } with bits := bitsOf bytes n }) :
    ∃ m, exec (.encp n) s = .next (ticks m r).s ∧ (ticks m r).s.phase = .idle := by
  have hcheck := reaches_check (r := r) (by rw [hr]; rfl)
  have hexec := withItems_got htake
  by_cases hv : s.cfgValid = true
  · have hpass : r.check = r.enterEnc s.work.encodeStart.packStart := by subst hr; exact if_pos hv
    have hrun := reaches_encoded (r := r.enterEnc s.work.encodeStart.packStart) rfl rfl
    subst hr
    rw [hpass] at hcheck
    refine (hcheck.trans hrun).ends rfl ?_
    rw [exec_encp, execEncp, hexec]
    refine congrArg _ ((if_pos hv).trans ?_)
    change _ = (State.gave _ (List.map _ _ ++ List.map _ _) _ _).respond .ok
    rw [← List.map_append]
    rfl
  · refine hcheck.fails (by subst hr; exact if_neg hv) ?_
    subst hr
    rw [exec_encp, execEncp, hexec]
    exact congrArg _ (if_neg hv)

/-- DECF: its check, then the body of the decode. -/
theorem decf_runs {n : Nat} (hw : (Instr.decf n).wellFormed = true) {xs : List Bool}
    (htake : takeItems DinItem.asBit n s.din = .got xs rest) {r : Run} (hstart : start (.decf n) s = some r)
    (hr : r = { init (.decf n) { s with din := rest } with bits := xs }) :
    ∃ m, exec (.decf n) s = .next (ticks m r).s ∧ (ticks m r).s.phase = .idle := by
  have hcheck := reaches_check (r := r) (by rw [hr]; rfl)
  have hexec := withItems_got htake
  by_cases hok : s.decfOk n = true
  · have hpass : r.check = r.enterDecode n .full .select := by subst hr; exact if_pos hok
    rw [hpass] at hcheck
    obtain ⟨q, hrun, hq, hi, hcode⟩ :=
      reaches_body hw (hcheck.counted hw hstart) (.inl ⟨rfl, rfl⟩) (by subst hr; rfl)
    subst hr
    refine (hcheck.trans hrun).ends (by rw [hq, gave_phase]) ?_
    rw [respond_of_decode (.inl hi) hcode, hq, decodedBy_full, exec_decf, execDecf, hexec]
    exact congrArg _ (if_pos hok)
  · refine hcheck.fails (by subst hr; exact if_neg hok) ?_
    subst hr
    rw [exec_decf, execDecf, hexec]
    exact congrArg _ (if_neg hok)

/-- DECT: its check, then the body of the decode. -/
theorem dect_runs {n : Nat} (hw : (Instr.dect n).wellFormed = true) {xs : List Bool}
    (htake : takeItems DinItem.asBit n s.din = .got xs rest) {r : Run} (hstart : start (.dect n) s = some r)
    (hr : r = { init (.dect n) { s with din := rest } with bits := xs }) :
    ∃ m, exec (.dect n) s = .next (ticks m r).s ∧ (ticks m r).s.phase = .idle := by
  have hcheck := reaches_check (r := r) (by rw [hr]; rfl)
  have hexec := withItems_got htake
  by_cases hok : s.dectOk n = true
  · have hpass : r.check = r.enterDecode n .truncated .respond := by subst hr; exact if_pos hok
    rw [hpass] at hcheck
    obtain ⟨q, hrun, hq, hi, hcode⟩ :=
      reaches_body hw (hcheck.counted hw hstart) (.inr ⟨rfl, rfl⟩) (by subst hr; rfl)
    subst hr
    refine (hcheck.trans hrun).ends (by rw [hq, gave_phase]) ?_
    rw [respond_of_decode (.inr hi) hcode, hq, decodedBy_truncated, exec_dect, execDect, hexec]
    exact congrArg _ (if_pos hok)
  · refine hcheck.fails (by subst hr; exact if_neg hok) ?_
    subst hr
    rw [exec_dect, execDect, hexec]
    exact congrArg _ (if_neg hok)

end

end Run

/-! ### The statement -/

/-- Settles O46: command by command, CHECK makes the command's tests and its first writes, and the phases after it run as
its body (`reaches_built`, `reaches_encoded`, `reaches_body`). -/
theorem sequencerRunsTheMeaning : Obligations.SequencerRunsTheMeaning := by
  intro i s r hw hr
  have hstart := hr
  cases i
  case rst => cases hr; exact (Run.reaches_check rfl).ends rfl rfl
  all_goals
    simp only [Run.start] at hr
    split at hr
    case h_2 => cases hr
  next htake => exact Run.cfg_runs (cfg_wellFormed_iff.mp hw).1 htake (Option.some.inj hr).symm
  next htake => exact Run.encb_runs htake (Option.some.inj hr).symm
  next htake => exact Run.encp_runs htake (Option.some.inj hr).symm
  next htake => exact Run.decf_runs hw htake hstart (Option.some.inj hr).symm
  next htake => exact Run.dect_runs hw htake hstart (Option.some.inj hr).symm

end Sys2Proof.Machine
end
